-- ==== Sys2Proof/Word.lean ====
section
/-! DEFINITION. The words of the engine and the two word widths (spec/00_scope.md R6, R10). -/

namespace Sys2Proof

/-- A 64-bit register value, address or value written to CMD (R6: XLEN = ABITS = 64). -/
abbrev Word := BitVec 64

/-- One memory byte (R40). -/
abbrev Byte := BitVec 8

/-- The word width W of a command: 4 or 8 bytes (R6, R61). -/
inductive Width where
  | w4
  | w8
deriving DecidableEq, Repr

/-- W in bytes. -/
abbrev Width.bytes : Width → Nat
  | .w4 => 4
  | .w8 => 8

/-- 8W, the width in bits of a W-word (R80). -/
abbrev Width.bits (W : Width) : Nat := 8 * W.bytes

/-- The number of byte addresses: addresses are 0 to 2^64 - 1 (R40). -/
abbrev addressSpace : Nat := 2 ^ 64

end Sys2Proof
end

