-- ==== Sys2Proof/Config.lean ====
section
/-! DEFINITION. What an implementation fixes and the spec leaves open (spec/00_scope.md R7, R8, R9;
spec/92_eei_decisions.md P1, P2), and the free values the model draws (notes/assumptions 1, 13, 14, 15). -/

namespace Sys2Proof

/-- The model's configuration: the pair (MAGIC, GOLDEN), 22 unsigned integers (R9). -/
structure Config where
  /-- MAGIC(4, i), i = 0 .. 9: Magic1, 2a, 2b, 3a, 3b, 3c, 4a, 4b, 4c, 4d (R7). -/
  magic4  : Vector (BitVec 32) 10
  /-- MAGIC(8, i), in the same order (R7). -/
  magic8  : Vector (BitVec 64) 10
  /-- GOLDEN(4) (R8). -/
  golden4 : BitVec 32
  /-- GOLDEN(8) (R8). -/
  golden8 : BitVec 64
deriving DecidableEq, Repr, Inhabited

/-- MAGIC(W, i) of R7. -/
def Config.magicEntry (c : Config) : (W : Width) → Fin 10 → BitVec W.bits
  | .w4, i => c.magic4[i]
  | .w8, i => c.magic8[i]

/-- GOLDEN(W) of R8. -/
def Config.golden (c : Config) : (W : Width) → BitVec W.bits
  | .w4 => c.golden4
  | .w8 => c.golden8

/-- The configuration of the engine at hand. DESIGN CHOICE (log entry 1), safe: opaque, so no proof can see a
value of it; R31: it is constant and no command or transaction writes it. -/
opaque Config.hw : Config

/-- Law M1 of R7 for one constant: every set bit b has b + 1 prime and b + 1 <= 8W - 1. DEDUCED (log entry 2),
safe: bit 0 (p = 1) is admitted too, since `91_not_in_source.md` N4 forbids assuming that a constant is even. -/
def Config.lawM1At {n : Nat} (c : BitVec n) : Prop :=
  ∀ b < n, c.getLsbD b = true → (b = 0 ∨ (b + 1).Prime) ∧ b + 1 ≤ n - 1

/-- Law M1 of R7, a well-formedness condition on the configuration; no rule depends on it. -/
def Config.LawM1 (c : Config) : Prop :=
  ∀ W i, Config.lawM1At (c.magicEntry W i)

/-- Law M2 of R7: the constants of one combine arity are pairwise disjoint; no rule depends on it. -/
def Config.LawM2 (c : Config) : Prop :=
  ∀ W, c.magicEntry W 1 &&& c.magicEntry W 2 = 0 ∧
    (∀ i ∈ [3, 4, 5], ∀ j ∈ [3, 4, 5], i ≠ j → c.magicEntry W i &&& c.magicEntry W j = 0) ∧
    (∀ i ∈ [6, 7, 8, 9], ∀ j ∈ [6, 7, 8, 9], i ≠ j → c.magicEntry W i &&& c.magicEntry W j = 0)

/-- A free choice between two outcomes that the spec admits (R51: old or new byte; R171: old or new byte).
DESIGN CHOICE (log entries 13, 14), safe: opaque, drawn with the counter `State.draws`. -/
opaque Config.freeBit : Nat → Bool

/-- A free count: how many of an abandoned command's accesses had been made (R171).
DESIGN CHOICE (log entry 14), safe: opaque, drawn with the counter `State.draws`. -/
opaque Config.freeCount : Nat → Nat

end Sys2Proof
end

