-- ==== Sys2Proof/Syntax.lean ====
section
/-! DEFINITION. The commands of PHE command set version 1: one constructor per row of spec/opcode_table.json
(spec/30_encoding.md R60 to R64). -/

namespace Sys2Proof

/-- A data register number, 0 to 7 (R21). -/
abbrev Reg := Fin 8

/-- The fourteen commands, each at W = 4 and W = 8 (R62). Operands in the order of R68. -/
inductive Instr where
  /-- MAGIC.W4 (R90): `rd` and the 4-bit immediate `idx`. -/
  | magicW4 (rd : Reg) (idx : BitVec 4)
  /-- MAGIC.W8 (R90): `rd` and the 4-bit immediate `idx`. -/
  | magicW8 (rd : Reg) (idx : BitVec 4)
  /-- MASK.W4 (R91): word `rs1`, valid byte count `rs2`. -/
  | maskW4 (rd rs1 rs2 : Reg)
  /-- MASK.W8 (R91): word `rs1`, valid byte count `rs2`. -/
  | maskW8 (rd rs1 rs2 : Reg)
  /-- MIX.W4 (R92): value `rs1`, multiplier `rs2`. -/
  | mixW4 (rd rs1 rs2 : Reg)
  /-- MIX.W8 (R92): value `rs1`, multiplier `rs2`. -/
  | mixW8 (rd rs1 rs2 : Reg)
  /-- SCRAMBLE.W4 (R93): value `rs1`. -/
  | scrambleW4 (rd rs1 : Reg)
  /-- SCRAMBLE.W8 (R93): value `rs1`. -/
  | scrambleW8 (rd rs1 : Reg)
  /-- RED2.W4 (R94): operands a, b. -/
  | red2W4 (rd rs1 rs2 : Reg)
  /-- RED2.W8 (R94): operands a, b. -/
  | red2W8 (rd rs1 rs2 : Reg)
  /-- RED3.W4 (R95): operands a, b, c. -/
  | red3W4 (rd rs1 rs2 rs3 : Reg)
  /-- RED3.W8 (R95): operands a, b, c. -/
  | red3W8 (rd rs1 rs2 rs3 : Reg)
  /-- RED4.W4 (R96): operands a, b, c, d. -/
  | red4W4 (rd rs1 rs2 rs3 rs4 : Reg)
  /-- RED4.W8 (R96): operands a, b, c, d. -/
  | red4W8 (rd rs1 rs2 rs3 rs4 : Reg)
  /-- COMB2.W4 (R97): operands a, b. -/
  | comb2W4 (rd rs1 rs2 : Reg)
  /-- COMB2.W8 (R97): operands a, b. -/
  | comb2W8 (rd rs1 rs2 : Reg)
  /-- COMB3.W4 (R98): operands a, b, c. -/
  | comb3W4 (rd rs1 rs2 rs3 : Reg)
  /-- COMB3.W8 (R98): operands a, b, c. -/
  | comb3W8 (rd rs1 rs2 rs3 : Reg)
  /-- COMB4.W4 (R99): operands a, b, c, d. -/
  | comb4W4 (rd rs1 rs2 rs3 rs4 : Reg)
  /-- COMB4.W8 (R99): operands a, b, c, d. -/
  | comb4W8 (rd rs1 rs2 rs3 rs4 : Reg)
  /-- MCZ.W4 (R100): word `rs1`. -/
  | mczW4 (rd rs1 : Reg)
  /-- MCZ.W8 (R100): word `rs1`. -/
  | mczW8 (rd rs1 : Reg)
  /-- HASHBUF.W4 (R111): buffer address `rs1`, size `rs2`. -/
  | hashbufW4 (rd rs1 rs2 : Reg)
  /-- HASHBUF.W8 (R111): buffer address `rs1`, size `rs2`. -/
  | hashbufW8 (rd rs1 rs2 : Reg)
  /-- HASHSTR.W4 (R112): string address `rs1`. -/
  | hashstrW4 (rd rs1 : Reg)
  /-- HASHSTR.W8 (R112): string address `rs1`. -/
  | hashstrW8 (rd rs1 : Reg)
  /-- HASHSEED.W4 (R113): key address `rs1`, length `rs2`, seed `rs3`, output address `rs4`; no `rd`. -/
  | hashseedW4 (rs1 rs2 rs3 rs4 : Reg)
  /-- HASHSEED.W8 (R113): key address `rs1`, length `rs2`, seed `rs3`, output address `rs4`; no `rd`. -/
  | hashseedW8 (rs1 rs2 rs3 rs4 : Reg)
deriving DecidableEq, Repr

/-- `HASH32 xa, xb, xc, xe` is `HASHSEED.W4 xa, xb, xc, xe` (R69). -/
abbrev Instr.hash32 (xa xb xc xe : Reg) : Instr := .hashseedW4 xa xb xc xe

/-- `HASH64 xa, xb, xc, xe` is `HASHSEED.W8 xa, xb, xc, xe` (R69). -/
abbrev Instr.hash64 (xa xb xc xe : Reg) : Instr := .hashseedW8 xa xb xc xe

end Sys2Proof
end

