-- ==== Sys2Proof/WellFormed.lean ====
section
/-! DEFINITION. Which command terms have an encoding (spec/30_encoding.md R65). Register numbers are bounded by
their type, unused fields are not part of a term, so the one check left is the index range of MAGIC (R65 (d)). -/

namespace Sys2Proof

/-- The check of R63 and R65 (d): MAGIC's index is 0 to 10; every other term is well formed as it stands. -/
def Instr.wellFormed : Instr → Bool
  | .magicW4 _ idx => decide (idx ≤ 10)
  | .magicW8 _ idx => decide (idx ≤ 10)
  | .maskW4 _ _ _ => true
  | .maskW8 _ _ _ => true
  | .mixW4 _ _ _ => true
  | .mixW8 _ _ _ => true
  | .scrambleW4 _ _ => true
  | .scrambleW8 _ _ => true
  | .red2W4 _ _ _ => true
  | .red2W8 _ _ _ => true
  | .red3W4 _ _ _ _ => true
  | .red3W8 _ _ _ _ => true
  | .red4W4 _ _ _ _ _ => true
  | .red4W8 _ _ _ _ _ => true
  | .comb2W4 _ _ _ => true
  | .comb2W8 _ _ _ => true
  | .comb3W4 _ _ _ _ => true
  | .comb3W8 _ _ _ _ => true
  | .comb4W4 _ _ _ _ _ => true
  | .comb4W8 _ _ _ _ _ => true
  | .mczW4 _ _ => true
  | .mczW8 _ _ => true
  | .hashbufW4 _ _ _ => true
  | .hashbufW8 _ _ _ => true
  | .hashstrW4 _ _ => true
  | .hashstrW8 _ _ => true
  | .hashseedW4 _ _ _ _ => true
  | .hashseedW8 _ _ _ _ => true

end Sys2Proof
end

