-- ==== Sys2Proof/Decode.lean ====
section
/-! DEFINITION. The decoder of spec/30_encoding.md R70, total on every 64-bit value written to CMD and rejecting by
name (R65), and after it the encoder, written from the same field table (R60, R63, R68). -/

namespace Sys2Proof

/-! ### The format (R60) -/

/-- The nine fields of a command word (R60). -/
structure Fields where
  op   : BitVec 6
  w    : BitVec 1
  rd   : BitVec 3
  rs1  : BitVec 3
  rs2  : BitVec 3
  rs3  : BitVec 3
  rs4  : BitVec 3
  idx  : BitVec 4
  zero : BitVec 6
deriving DecidableEq, Repr

/-- Step (2) of R70: cut the fields at the bit positions of R60. -/
def cutFields (c : BitVec 32) : Fields where
  op   := c.extractLsb' 0 6
  w    := c.extractLsb' 6 1
  rd   := c.extractLsb' 7 3
  rs1  := c.extractLsb' 10 3
  rs2  := c.extractLsb' 13 3
  rs3  := c.extractLsb' 16 3
  rs4  := c.extractLsb' 19 3
  idx  := c.extractLsb' 22 4
  zero := c.extractLsb' 26 6

/-- The command word of R60: `zero, idx, rs4, rs3, rs2, rs1, rd, w, op`, most significant first. -/
def Fields.word (f : Fields) : BitVec 32 :=
  f.zero ++ f.idx ++ f.rs4 ++ f.rs3 ++ f.rs2 ++ f.rs1 ++ f.rd ++ f.w ++ f.op

/-! ### The opcode map (R62) and the fields each command uses (R63) -/

/-- The fourteen mnemonics of R62. -/
inductive Opcode where
  | magic | mask | mix | scramble | red2 | red3 | red4 | comb2 | comb3 | comb4 | mcz
  | hashbuf | hashstr | hashseed
deriving DecidableEq, Repr

/-- The `op` value of each mnemonic (R62). -/
def Opcode.code : Opcode → BitVec 6
  | .magic => 0x01#6
  | .mask => 0x02#6
  | .mix => 0x03#6
  | .scramble => 0x04#6
  | .red2 => 0x05#6
  | .red3 => 0x06#6
  | .red4 => 0x07#6
  | .comb2 => 0x08#6
  | .comb3 => 0x09#6
  | .comb4 => 0x0A#6
  | .mcz => 0x0B#6
  | .hashbuf => 0x10#6
  | .hashstr => 0x11#6
  | .hashseed => 0x12#6

/-- Step (4) of R70: look `op` up in R62; every other value is reserved. -/
def opcodeOf (op : BitVec 6) : Option Opcode :=
  match op.toNat with
  | 0x01 => some .magic
  | 0x02 => some .mask
  | 0x03 => some .mix
  | 0x04 => some .scramble
  | 0x05 => some .red2
  | 0x06 => some .red3
  | 0x07 => some .red4
  | 0x08 => some .comb2
  | 0x09 => some .comb3
  | 0x0A => some .comb4
  | 0x0B => some .mcz
  | 0x10 => some .hashbuf
  | 0x11 => some .hashstr
  | 0x12 => some .hashseed
  | _    => none

/-- Which of the operand fields a command uses (R63); the others must be 0. -/
structure Uses where
  rd  : Bool
  rs1 : Bool
  rs2 : Bool
  rs3 : Bool
  rs4 : Bool
  idx : Bool
deriving DecidableEq, Repr

/-- The table of R63. -/
def Opcode.uses : Opcode → Uses
  | .magic => ⟨true, false, false, false, false, true⟩
  | .mask => ⟨true, true, true, false, false, false⟩
  | .mix => ⟨true, true, true, false, false, false⟩
  | .scramble => ⟨true, true, false, false, false, false⟩
  | .red2 => ⟨true, true, true, false, false, false⟩
  | .red3 => ⟨true, true, true, true, false, false⟩
  | .red4 => ⟨true, true, true, true, true, false⟩
  | .comb2 => ⟨true, true, true, false, false, false⟩
  | .comb3 => ⟨true, true, true, true, false, false⟩
  | .comb4 => ⟨true, true, true, true, true, false⟩
  | .mcz => ⟨true, true, false, false, false, false⟩
  | .hashbuf => ⟨true, true, true, false, false, false⟩
  | .hashstr => ⟨true, true, false, false, false, false⟩
  | .hashseed => ⟨false, true, true, true, true, false⟩

/-- Step (5) of R70: every field R63 shows as 0 for the command is 0. -/
def Fields.unusedAreZero (f : Fields) (u : Uses) : Bool :=
  (u.rd || f.rd == 0) && (u.rs1 || f.rs1 == 0) && (u.rs2 || f.rs2 == 0) &&
  (u.rs3 || f.rs3 == 0) && (u.rs4 || f.rs4 == 0) && (u.idx || f.idx == 0)

/-- Step (6) of R70: for MAGIC, `idx` is at most 10 (R65 (d)). -/
def Fields.indexIsLegal (f : Fields) (o : Opcode) : Bool :=
  o != .magic || decide (f.idx ≤ 10)

/-- A register field holds the number i of data register Xi (R61). -/
def regOf (b : BitVec 3) : Reg := ⟨b.toNat, b.isLt⟩

/-- The 3-bit field that names a data register (R61). -/
def regBits (r : Reg) : BitVec 3 := BitVec.ofNat 3 r.val

/-- Step (7) of R70: W = 4 if `w` = 0, W = 8 if `w` = 1. -/
def widthOf (w : BitVec 1) : Width := if w = 0 then .w4 else .w8

/-- The `w` bit of a width (R60). -/
def widthBit : Width → BitVec 1
  | .w4 => 0
  | .w8 => 1

/-- The command a legal set of fields stands for (R63). -/
def commandOf (o : Opcode) (W : Width) (f : Fields) : Instr :=
  match o, W with
  | .magic, .w4 => .magicW4 (regOf f.rd) f.idx
  | .magic, .w8 => .magicW8 (regOf f.rd) f.idx
  | .mask, .w4 => .maskW4 (regOf f.rd) (regOf f.rs1) (regOf f.rs2)
  | .mask, .w8 => .maskW8 (regOf f.rd) (regOf f.rs1) (regOf f.rs2)
  | .mix, .w4 => .mixW4 (regOf f.rd) (regOf f.rs1) (regOf f.rs2)
  | .mix, .w8 => .mixW8 (regOf f.rd) (regOf f.rs1) (regOf f.rs2)
  | .scramble, .w4 => .scrambleW4 (regOf f.rd) (regOf f.rs1)
  | .scramble, .w8 => .scrambleW8 (regOf f.rd) (regOf f.rs1)
  | .red2, .w4 => .red2W4 (regOf f.rd) (regOf f.rs1) (regOf f.rs2)
  | .red2, .w8 => .red2W8 (regOf f.rd) (regOf f.rs1) (regOf f.rs2)
  | .red3, .w4 => .red3W4 (regOf f.rd) (regOf f.rs1) (regOf f.rs2) (regOf f.rs3)
  | .red3, .w8 => .red3W8 (regOf f.rd) (regOf f.rs1) (regOf f.rs2) (regOf f.rs3)
  | .red4, .w4 => .red4W4 (regOf f.rd) (regOf f.rs1) (regOf f.rs2) (regOf f.rs3) (regOf f.rs4)
  | .red4, .w8 => .red4W8 (regOf f.rd) (regOf f.rs1) (regOf f.rs2) (regOf f.rs3) (regOf f.rs4)
  | .comb2, .w4 => .comb2W4 (regOf f.rd) (regOf f.rs1) (regOf f.rs2)
  | .comb2, .w8 => .comb2W8 (regOf f.rd) (regOf f.rs1) (regOf f.rs2)
  | .comb3, .w4 => .comb3W4 (regOf f.rd) (regOf f.rs1) (regOf f.rs2) (regOf f.rs3)
  | .comb3, .w8 => .comb3W8 (regOf f.rd) (regOf f.rs1) (regOf f.rs2) (regOf f.rs3)
  | .comb4, .w4 => .comb4W4 (regOf f.rd) (regOf f.rs1) (regOf f.rs2) (regOf f.rs3) (regOf f.rs4)
  | .comb4, .w8 => .comb4W8 (regOf f.rd) (regOf f.rs1) (regOf f.rs2) (regOf f.rs3) (regOf f.rs4)
  | .mcz, .w4 => .mczW4 (regOf f.rd) (regOf f.rs1)
  | .mcz, .w8 => .mczW8 (regOf f.rd) (regOf f.rs1)
  | .hashbuf, .w4 => .hashbufW4 (regOf f.rd) (regOf f.rs1) (regOf f.rs2)
  | .hashbuf, .w8 => .hashbufW8 (regOf f.rd) (regOf f.rs1) (regOf f.rs2)
  | .hashstr, .w4 => .hashstrW4 (regOf f.rd) (regOf f.rs1)
  | .hashstr, .w8 => .hashstrW8 (regOf f.rd) (regOf f.rs1)
  | .hashseed, .w4 => .hashseedW4 (regOf f.rs1) (regOf f.rs2) (regOf f.rs3) (regOf f.rs4)
  | .hashseed, .w8 => .hashseedW8 (regOf f.rs1) (regOf f.rs2) (regOf f.rs3) (regOf f.rs4)

/-! ### The decoder (R70) -/

/-- Why a value written to CMD is illegal: the cases (a) to (e) of R65. -/
inductive IllegalReason where
  /-- (a) bits [63:32] are not 0. -/
  | highBits
  /-- (b) the `zero` field is not 0. -/
  | zeroField
  /-- (c) `op` is reserved. -/
  | reservedOpcode
  /-- (d) MAGIC with `idx` 11 to 15. -/
  | magicIndex
  /-- (e) a field the command does not use is not 0. -/
  | unusedField
deriving DecidableEq, Repr

/-- The decoder's verdict: every 64-bit value gets exactly one (R70). -/
inductive Verdict where
  | legal (i : Instr)
  | illegal (why : IllegalReason)
deriving DecidableEq, Repr

/-- Steps (3) to (7) of R70 on the fields of a command word. -/
def decodeFields (f : Fields) : Verdict :=
  if f.zero ≠ 0 then .illegal .zeroField
  else match opcodeOf f.op with
    | none => .illegal .reservedOpcode
    | some o =>
      if f.unusedAreZero o.uses = false then .illegal .unusedField
      else if f.indexIsLegal o = false then .illegal .magicIndex
      else .legal (commandOf o (widthOf f.w) f)

/-- The decoding algorithm of R70 over the 64-bit value v written to CMD. -/
def decode (v : Word) : Verdict :=
  if v.extractLsb' 32 32 ≠ 0 then .illegal .highBits
  else decodeFields (cutFields (v.extractLsb' 0 32))

/-! ### The encoder (R60, R62, R63, R68) -/

/-- The fields of a command with every unused field 0 (R63). -/
def fieldsOf (o : Opcode) (W : Width) (rd rs1 rs2 rs3 rs4 : Reg) (idx : BitVec 4) : Fields where
  op   := o.code
  w    := widthBit W
  rd   := regBits rd
  rs1  := regBits rs1
  rs2  := regBits rs2
  rs3  := regBits rs3
  rs4  := regBits rs4
  idx  := idx
  zero := 0

/-- The fields of each command (R63): an operand it does not have is 0. -/
def Instr.fields : Instr → Fields
  | .magicW4 rd idx => fieldsOf .magic .w4 rd 0 0 0 0 idx
  | .magicW8 rd idx => fieldsOf .magic .w8 rd 0 0 0 0 idx
  | .maskW4 rd rs1 rs2 => fieldsOf .mask .w4 rd rs1 rs2 0 0 0
  | .maskW8 rd rs1 rs2 => fieldsOf .mask .w8 rd rs1 rs2 0 0 0
  | .mixW4 rd rs1 rs2 => fieldsOf .mix .w4 rd rs1 rs2 0 0 0
  | .mixW8 rd rs1 rs2 => fieldsOf .mix .w8 rd rs1 rs2 0 0 0
  | .scrambleW4 rd rs1 => fieldsOf .scramble .w4 rd rs1 0 0 0 0
  | .scrambleW8 rd rs1 => fieldsOf .scramble .w8 rd rs1 0 0 0 0
  | .red2W4 rd rs1 rs2 => fieldsOf .red2 .w4 rd rs1 rs2 0 0 0
  | .red2W8 rd rs1 rs2 => fieldsOf .red2 .w8 rd rs1 rs2 0 0 0
  | .red3W4 rd rs1 rs2 rs3 => fieldsOf .red3 .w4 rd rs1 rs2 rs3 0 0
  | .red3W8 rd rs1 rs2 rs3 => fieldsOf .red3 .w8 rd rs1 rs2 rs3 0 0
  | .red4W4 rd rs1 rs2 rs3 rs4 => fieldsOf .red4 .w4 rd rs1 rs2 rs3 rs4 0
  | .red4W8 rd rs1 rs2 rs3 rs4 => fieldsOf .red4 .w8 rd rs1 rs2 rs3 rs4 0
  | .comb2W4 rd rs1 rs2 => fieldsOf .comb2 .w4 rd rs1 rs2 0 0 0
  | .comb2W8 rd rs1 rs2 => fieldsOf .comb2 .w8 rd rs1 rs2 0 0 0
  | .comb3W4 rd rs1 rs2 rs3 => fieldsOf .comb3 .w4 rd rs1 rs2 rs3 0 0
  | .comb3W8 rd rs1 rs2 rs3 => fieldsOf .comb3 .w8 rd rs1 rs2 rs3 0 0
  | .comb4W4 rd rs1 rs2 rs3 rs4 => fieldsOf .comb4 .w4 rd rs1 rs2 rs3 rs4 0
  | .comb4W8 rd rs1 rs2 rs3 rs4 => fieldsOf .comb4 .w8 rd rs1 rs2 rs3 rs4 0
  | .mczW4 rd rs1 => fieldsOf .mcz .w4 rd rs1 0 0 0 0
  | .mczW8 rd rs1 => fieldsOf .mcz .w8 rd rs1 0 0 0 0
  | .hashbufW4 rd rs1 rs2 => fieldsOf .hashbuf .w4 rd rs1 rs2 0 0 0
  | .hashbufW8 rd rs1 rs2 => fieldsOf .hashbuf .w8 rd rs1 rs2 0 0 0
  | .hashstrW4 rd rs1 => fieldsOf .hashstr .w4 rd rs1 0 0 0 0
  | .hashstrW8 rd rs1 => fieldsOf .hashstr .w8 rd rs1 0 0 0 0
  | .hashseedW4 rs1 rs2 rs3 rs4 => fieldsOf .hashseed .w4 0 rs1 rs2 rs3 rs4 0
  | .hashseedW8 rs1 rs2 rs3 rs4 => fieldsOf .hashseed .w8 0 rs1 rs2 rs3 rs4 0

/-- The command word of an instruction (R60, R68). -/
def encode (i : Instr) : BitVec 32 := i.fields.word

/-- The 64-bit value the host writes to CMD for an instruction: its word with bits [63:32] zero (R60). -/
def cmdValue (i : Instr) : Word := (encode i).setWidth 64

/-- What the decoder reads from an instruction whose bits are w, numbered as spec/opcode_table.json numbers them:
the word is the low 32 bits of one CMD write (R67), so the CMD value is w with every bit above nbits zero. -/
def decodeTableWord (nbits w : Nat) : Option Instr :=
  match decode (BitVec.ofNat 64 (w % 2 ^ nbits)) with
  | .legal i => some i
  | .illegal _ => none

/-! ### Assembler syntax (R68) -/

/-- A register operand as R68 writes it. -/
def regAsm (r : Reg) : String := "x" ++ toString r.val

/-- The immediate of MAGIC as R68 writes it. -/
def immAsm (idx : BitVec 4) : String := "#" ++ toString idx.toNat

/-- The mnemonic with its width, as spec/opcode_table.json spells it (R68). -/
def Instr.mnemonic : Instr → String
  | .magicW4 _ _ => "MAGIC.W4"
  | .magicW8 _ _ => "MAGIC.W8"
  | .maskW4 _ _ _ => "MASK.W4"
  | .maskW8 _ _ _ => "MASK.W8"
  | .mixW4 _ _ _ => "MIX.W4"
  | .mixW8 _ _ _ => "MIX.W8"
  | .scrambleW4 _ _ => "SCRAMBLE.W4"
  | .scrambleW8 _ _ => "SCRAMBLE.W8"
  | .red2W4 _ _ _ => "RED2.W4"
  | .red2W8 _ _ _ => "RED2.W8"
  | .red3W4 _ _ _ _ => "RED3.W4"
  | .red3W8 _ _ _ _ => "RED3.W8"
  | .red4W4 _ _ _ _ _ => "RED4.W4"
  | .red4W8 _ _ _ _ _ => "RED4.W8"
  | .comb2W4 _ _ _ => "COMB2.W4"
  | .comb2W8 _ _ _ => "COMB2.W8"
  | .comb3W4 _ _ _ _ => "COMB3.W4"
  | .comb3W8 _ _ _ _ => "COMB3.W8"
  | .comb4W4 _ _ _ _ _ => "COMB4.W4"
  | .comb4W8 _ _ _ _ _ => "COMB4.W8"
  | .mczW4 _ _ => "MCZ.W4"
  | .mczW8 _ _ => "MCZ.W8"
  | .hashbufW4 _ _ _ => "HASHBUF.W4"
  | .hashbufW8 _ _ _ => "HASHBUF.W8"
  | .hashstrW4 _ _ => "HASHSTR.W4"
  | .hashstrW8 _ _ => "HASHSTR.W8"
  | .hashseedW4 _ _ _ _ => "HASHSEED.W4"
  | .hashseedW8 _ _ _ _ => "HASHSEED.W8"

/-- The used operands in the order of R68. -/
def Instr.operandsAsm : Instr → List String
  | .magicW4 rd idx => [regAsm rd, immAsm idx]
  | .magicW8 rd idx => [regAsm rd, immAsm idx]
  | .maskW4 rd rs1 rs2 => [regAsm rd, regAsm rs1, regAsm rs2]
  | .maskW8 rd rs1 rs2 => [regAsm rd, regAsm rs1, regAsm rs2]
  | .mixW4 rd rs1 rs2 => [regAsm rd, regAsm rs1, regAsm rs2]
  | .mixW8 rd rs1 rs2 => [regAsm rd, regAsm rs1, regAsm rs2]
  | .scrambleW4 rd rs1 => [regAsm rd, regAsm rs1]
  | .scrambleW8 rd rs1 => [regAsm rd, regAsm rs1]
  | .red2W4 rd rs1 rs2 => [regAsm rd, regAsm rs1, regAsm rs2]
  | .red2W8 rd rs1 rs2 => [regAsm rd, regAsm rs1, regAsm rs2]
  | .red3W4 rd rs1 rs2 rs3 => [regAsm rd, regAsm rs1, regAsm rs2, regAsm rs3]
  | .red3W8 rd rs1 rs2 rs3 => [regAsm rd, regAsm rs1, regAsm rs2, regAsm rs3]
  | .red4W4 rd rs1 rs2 rs3 rs4 => [regAsm rd, regAsm rs1, regAsm rs2, regAsm rs3, regAsm rs4]
  | .red4W8 rd rs1 rs2 rs3 rs4 => [regAsm rd, regAsm rs1, regAsm rs2, regAsm rs3, regAsm rs4]
  | .comb2W4 rd rs1 rs2 => [regAsm rd, regAsm rs1, regAsm rs2]
  | .comb2W8 rd rs1 rs2 => [regAsm rd, regAsm rs1, regAsm rs2]
  | .comb3W4 rd rs1 rs2 rs3 => [regAsm rd, regAsm rs1, regAsm rs2, regAsm rs3]
  | .comb3W8 rd rs1 rs2 rs3 => [regAsm rd, regAsm rs1, regAsm rs2, regAsm rs3]
  | .comb4W4 rd rs1 rs2 rs3 rs4 => [regAsm rd, regAsm rs1, regAsm rs2, regAsm rs3, regAsm rs4]
  | .comb4W8 rd rs1 rs2 rs3 rs4 => [regAsm rd, regAsm rs1, regAsm rs2, regAsm rs3, regAsm rs4]
  | .mczW4 rd rs1 => [regAsm rd, regAsm rs1]
  | .mczW8 rd rs1 => [regAsm rd, regAsm rs1]
  | .hashbufW4 rd rs1 rs2 => [regAsm rd, regAsm rs1, regAsm rs2]
  | .hashbufW8 rd rs1 rs2 => [regAsm rd, regAsm rs1, regAsm rs2]
  | .hashstrW4 rd rs1 => [regAsm rd, regAsm rs1]
  | .hashstrW8 rd rs1 => [regAsm rd, regAsm rs1]
  | .hashseedW4 rs1 rs2 rs3 rs4 => [regAsm rs1, regAsm rs2, regAsm rs3, regAsm rs4]
  | .hashseedW8 rs1 rs2 rs3 rs4 => [regAsm rs1, regAsm rs2, regAsm rs3, regAsm rs4]

/-- The assembler form of a command: the mnemonic, then its operands separated by commas (R68). -/
def Instr.asm (i : Instr) : String := i.mnemonic ++ " " ++ ", ".intercalate i.operandsAsm

end Sys2Proof
end

