-- ==== Sys2Proof/Machine/State.lean ====
section
/-! DEFINITION. The state of the machine as plain data: the engine's registers (spec/10_state.md R20), and what the
memory agent and the host hold (spec/00_scope.md R5), with the reasons a step can stop, and reset (R32). -/

namespace Sys2Proof.Machine

/-- Memory contents: (address, byte) pairs with strictly rising addresses, none of them the byte an unlisted address
reads as (R40; log entry 3). `Memory.wf` in Ops.lean is this form. -/
abbrev Memory := List Host.Cell

/-- What answers at an address of the memory port. -/
inductive RegionKind where
  /-- Ordinary memory (R45), in the readable set, the writable set, both or neither (R46, P4). -/
  | ram (readable writable : Bool)
  /-- A location with side effects: a device register, a FIFO (R45, V8). -/
  | device
  /-- The engine's own register port in the platform's map (R40, V10; P3: wherever the platform puts it). -/
  | enginePort
  /-- A location whose accesses are never answered (R178, V7). -/
  | silent
deriving DecidableEq, Repr

/-- One window of the platform's address map: addresses base to base + size - 1. -/
structure Region where
  base : Nat
  size : Nat
  kind : RegionKind
deriving DecidableEq, Repr

/-- The two accesses of the memory port (R42, R43). -/
inductive AccessKind where
  | read
  | write
deriving DecidableEq, Repr

/-- One `MemRead(addr, size)` or `MemWrite(addr, size, _)` presented to the memory agent (R42, R43). -/
structure Access where
  kind : AccessKind
  addr : Nat
  size : Nat
deriving DecidableEq, Repr

/-- What the world outside the engine does, in the order in which it happens (R5, R33, R170). DESIGN CHOICE (log entry
28), unsafe: no event joins `cmdThenReset` and `cmdWithStores`, a reset during a command whose read set other agents also write. -/
inductive Event where
  /-- `RegWrite(offset, value)` accepted by the register port (R24). -/
  | regWrite (offset : Nat) (value : Word)
  /-- `RegRead(offset)` accepted by the register port (R24). -/
  | regRead (offset : Nat)
  /-- The reset input asserted and released while the engine is idle (R170). -/
  | reset
  /-- `RegWrite(0x40, value)`, and reset asserted before the command has ended (R171); no other agent writes the
  command's read set meanwhile (log entry 28). -/
  | cmdThenReset (value : Word)
  /-- The host or another bus master writes one memory byte while no command runs (R5 (c), R172 (1)). -/
  | store (addr : Word) (byte : Byte)
  /-- `RegWrite(0x40, value)`, during whose command other agents write these bytes, in this order (R51, R173); the
  command is not cut short by reset (log entry 28). -/
  | cmdWithStores (value : Word) (stores : List (Word × Byte))
deriving DecidableEq, Repr

/-- The state: R20's architected state, then memory, the host's side, and the model's own two fields. -/
structure State where
  /-- X0 to X7 (R21). -/
  x      : Vector Word 8
  /-- STATUS.ERR, bits [3:0] of STATUS (R26); bits [63:4] are hard-wired to zero and not stored. -/
  err    : BitVec 4
  /-- FADDR (R27). -/
  faddr  : Word
  /-- FCMD (R28). -/
  fcmd   : Word
  /-- The contents of memory (R40). -/
  mem    : Memory
  /-- The platform's address map: readable set, writable set, windows that are no memory (R46, R48, P4). -/
  map    : List Region
  /-- What the outside world does next, first event first (R5, R33; log entry 8). -/
  events : List Event
  /-- The register port's answer to the transaction just accepted: `some` after a RegRead (R24; log entry 11). -/
  reply  : Option Word
  /-- The accesses the step just taken made at the memory port, in order (R50; log entry 12). The model's own field. -/
  bus    : List Access
  /-- How many free values have been drawn (log entry 15). The model's own field. -/
  draws  : Nat
deriving DecidableEq, Repr

/-- Why the machine is stuck. -/
inductive Fault where
  /-- A driver command's access is never answered: the command never ends and the register port never accepts again
  (R178, V7: stuck). Raised by HASHBUF, HASHSTR and HASHSEED on a `silent` region. Safe. -/
  | memoryNeverAnswers
deriving DecidableEq, Repr

/-- What the model gives no meaning to. -/
inductive Refusal where
  /-- An instruction without a meaning yet; only an arm of `exec` may answer it. Safe. -/
  | notModelled (mnemonic : String)
  /-- A driver command touches a location with side effects: "the model refuses it rather than give it a meaning"
  (R45, V8). Raised by HASHBUF, HASHSTR and HASHSEED. Safe. -/
  | deviceAccess
  /-- A driver command touches the engine's own registers in the platform's map: "the model refuses it" (R40, V10).
  Raised by HASHBUF, HASHSTR and HASHSEED. Safe. -/
  | enginePortAccess
  /-- A transaction at an offset that is no slot: "a model refuses such a transaction" (R29, V3). Raised by RegWrite
  and RegRead. Safe. -/
  | outsideRegisterPort
deriving DecidableEq, Repr

/-- The map a model run starts with: all of the address space is readable and writable memory.
DESIGN CHOICE (log entry 4), unsafe: P4 leaves both sets open. -/
def resetMap : List Region := [⟨0, addressSpace, .ram true true⟩]

/-- The machine right after reset (R32): every register 0, the error latch clear, the engine idle; memory with
nothing listed, and no event pending (log entries 3, 4, 8, 11, 12, 15). -/
def State.reset : State where
  x      := Vector.replicate 8 0
  err    := 0
  faddr  := 0
  fcmd   := 0
  mem    := []
  map    := resetMap
  events := []
  reply  := none
  bus    := []
  draws  := 0

end Sys2Proof.Machine
end

