-- ==== Sys2Proof/Machine/Ops.lean ====
section
/-! DEFINITION. The named operations over registers and memory (spec/10_state.md R21, spec/20_memory.md R41 to R46),
the error entry and its return (spec/60_exceptions.md R146, R148), and how a command ends (R140). -/

namespace Sys2Proof.Machine

/-! ### Data registers (R21) -/

/-- `x[i]` of R11. -/
def State.getX (s : State) (r : Reg) : Word := s.x[r]

/-- `x[i] <- v` of R11. -/
def State.setX (s : State) (r : Reg) (v : Word) : State := { s with x := s.x.set r v }

/-! ### Taking an error and clearing it (R141, R146, R148) -/

/-- The three errors a command can raise (R141). -/
inductive ErrorKind where
  | illegalCommand
  | rangeError
  | busError
deriving DecidableEq, Repr

/-- The code of each error in STATUS.ERR (R141). -/
def ErrorKind.code : ErrorKind → BitVec 4
  | .illegalCommand => 1
  | .rangeError => 2
  | .busError => 3

/-- Error entry (R146): STATUS.ERR, FCMD (the 64-bit value written to CMD) and FADDR are written, nothing else. -/
def State.takeError (s : State) (e : ErrorKind) (cmd faddr : Word) : State :=
  { s with err := e.code, fcmd := cmd, faddr := faddr }

/-- The return from the error state (R148): any write to STATUS. -/
def State.clearLatch (s : State) : State := { s with err := 0, faddr := 0, fcmd := 0 }

/-- Reset of the engine (R32, R170): every architected register 0; memory and the other agents are not touched
(log entry 16). -/
def State.resetEngine (s : State) : State :=
  { s with x := Vector.replicate 8 0, err := 0, faddr := 0, fcmd := 0 }

/-! ### Memory contents (R40) -/

/-- What an unlisted address holds. DESIGN CHOICE (log entry 3), unsafe: the spec gives memory no launch contents. -/
def Memory.blank : Byte := 0

/-- The byte at an address. -/
def Memory.byteAt : Memory → Nat → Byte
  | [], _ => Memory.blank
  | (a', b) :: m, a => if a = a' then b else Memory.byteAt m a

/-- Set one byte, keeping the canonical form: writing the blank byte removes the entry. -/
def Memory.set : Memory → Nat → Byte → Memory
  | [], a, b => if b = Memory.blank then [] else [(a, b)]
  | (a', b') :: m, a, b =>
    if a < a' then (if b = Memory.blank then (a', b') :: m else (a, b) :: (a', b') :: m)
    else if a = a' then (if b = Memory.blank then m else (a, b) :: m)
    else (a', b') :: Memory.set m a b

/-- The canonical form: addresses strictly rising, inside the address space (R40), no entry blank. -/
def Memory.wf (m : Memory) : Bool :=
  decide (m.Pairwise (fun c d => c.1 < d.1)) && m.all (fun c => decide (c.1 < addressSpace) && c.2 != Memory.blank)

/-- The n bytes at addresses a, a + 1, ..., in address order. -/
def Memory.bytesAt (m : Memory) (a n : Nat) : List Byte := (List.range n).map fun j => m.byteAt (a + j)

/-- Set the bytes at addresses a, a + 1, ... -/
def Memory.setBytes : Memory → Nat → List Byte → Memory
  | m, _, [] => m
  | m, a, b :: bs => Memory.setBytes (m.set a b) (a + 1) bs

/-- Little-endian assembly (R41): byte j of the list becomes bits [8j+7:8j]. -/
def leWord (n : Nat) : List Byte → BitVec n
  | [] => 0
  | b :: bs => b.setWidth n ||| (leWord n bs <<< 8)

/-- The n low bytes of a value, least significant first (R10, R43). -/
def leBytes {k : Nat} (n : Nat) (v : BitVec k) : List Byte := (List.range n).map fun j => v.extractLsb' (8 * j) 8

/-! ### What answers at an address (R46, R48) -/

/-- The window an address falls in: the first of the map that holds it. -/
def regionAt (map : List Region) (a : Nat) : Option RegionKind :=
  (map.find? fun r => decide (r.base ≤ a) && decide (a < r.base + r.size)).map Region.kind

/-- Whether memory lets an access of this kind touch a byte of this window: the readable and the writable set (R46). -/
def RegionKind.permits : RegionKind → AccessKind → Bool
  | .ram r _, .read => r
  | .ram _ w, .write => w
  | .device, _ => false
  | .enginePort, _ => false
  | .silent, _ => false

/-- Whether some byte of an access falls in a window of this kind. -/
def touches (map : List Region) (k : RegionKind) (a n : Nat) : Bool :=
  (List.range n).any fun j => regionAt map (a + j) == some k

/-- Whether every byte of an access is in the needed set (R46). -/
def permitted (map : List Region) (k : AccessKind) (a n : Nat) : Bool :=
  (List.range n).all fun j => (regionAt map (a + j)).any fun r => r.permits k

/-- How a command can stop before it completes. -/
inductive Stop where
  /-- `raise E(info)`: the error and the address FADDR records (R11, R146). -/
  | raise (e : ErrorKind) (faddr : Word)
  /-- An access is never answered (R178). -/
  | noAnswer
  /-- The model gives the access no meaning (R40, R45). -/
  | refuse (r : Refusal)
deriving DecidableEq, Repr

/-- `BusError(addr)`: the recorded address is the start address of the access modulo 2^64 (R46, R27). -/
def busError (addr : Nat) : Stop := .raise .busError (BitVec.ofNat 64 addr)

/-- How the memory agent answers an access that does not pass the top of the address space: `none` is success.
DESIGN CHOICE (log entry 6), safe: an access that touches several windows is refused first, stuck second. -/
def memoryAnswer (map : List Region) (k : AccessKind) (a n : Nat) : Option Stop :=
  if touches map .device a n then some (.refuse .deviceAccess)
  else if touches map .enginePort a n then some (.refuse .enginePortAccess)
  else if touches map .silent a n then some .noAnswer
  else if permitted map k a n then none
  else some (busError a)

/-! ### Running a command: accesses made so far, and a value or a stop -/

/-- A computation of a driver command: the accesses it made at the memory port, in order (R50), and its result. -/
structure Run (α : Type) where
  trace  : List Access
  result : Except Stop α
deriving Repr

/-- A computation that makes no access and succeeds. -/
def Run.done {α : Type} (a : α) : Run α := ⟨[], .ok a⟩

/-- A computation that makes no access and stops. -/
def Run.stop {α : Type} (e : Stop) : Run α := ⟨[], .error e⟩

/-- One computation after another; nothing after a stop is executed (R11). -/
def Run.andThen {α β : Type} (r : Run α) (f : α → Run β) : Run β :=
  match r.result with
  | .ok a => ⟨r.trace ++ (f a).trace, (f a).result⟩
  | .error e => ⟨r.trace, .error e⟩

/-- One access (R46): case (a), passing 2^64 in exact arithmetic, makes no transfer; otherwise the access is
presented to the memory agent, which answers with the value or refuses. -/
def access {α : Type} (map : List Region) (k : AccessKind) (a n : Nat) (value : α) : Run α :=
  if a + n > addressSpace then Run.stop (busError a)
  else ⟨[⟨k, a, n⟩], match memoryAnswer map k a n with
    | none => .ok value
    | some e => .error e⟩

/-- `MemRead(addr, n)` (R42): the n bytes at addr, assembled little-endian (R41). -/
def memRead (s : State) (a n : Nat) : Run (BitVec (8 * n)) :=
  access s.map .read a n (leWord (8 * n) (s.mem.bytesAt a n))

/-- `MemWrite(addr, n, v)` (R43): the memory after the n bytes are set; a failing write sets no byte. -/
def memWrite {k : Nat} (s : State) (a n : Nat) (v : BitVec k) : Run Memory :=
  access s.map .write a n (s.mem.setBytes a (leBytes n v))

/-- A command ends in one of two ways (R140): it completes with the effect `done`, or it raises one error (R146).
`cmd` is the value written to CMD. The accesses made are appended to `bus`. -/
def conclude {α : Type} (cmd : Word) (s : State) (r : Run α) (done : α → State → State) :
    Host.Outcome State Fault Refusal :=
  match r.result with
  | .ok a => .next (done a { s with bus := s.bus ++ r.trace })
  | .error (.raise e faddr) => .next (State.takeError { s with bus := s.bus ++ r.trace } e cmd faddr)
  | .error .noAnswer => .fault .memoryNeverAnswers
  | .error (.refuse why) => .refused why

end Sys2Proof.Machine
end

