-- ==== Sys2Proof/Machine/Operands.lean ====
section
/-! DEFINITION. How a command reads its operands and writes its result, one operation per operand kind
(spec/10_state.md R34, spec/30_encoding.md R64). -/

namespace Sys2Proof.Machine

/-- `xw[i]`, the W-wide view: bits [8W-1:0] of a data register; at W = 4 bits [63:32] are ignored (R34). -/
def wideView (W : Width) (r : Reg) (s : State) : BitVec W.bits := (s.getX r).setWidth W.bits

/-- A memory address: the full 64 bits whatever W is, as an exact number (R34, R46). -/
def addressOf (r : Reg) (s : State) : Nat := (s.getX r).toNat

/-- A byte count or a size: the full 64 bits, unsigned (R34). -/
def countOf (r : Reg) (s : State) : Nat := (s.getX r).toNat

/-- A length: `signed_64` of the register (R113, R10). -/
def signedLengthOf (r : Reg) (s : State) : Int := (s.getX r).toInt

/-- The seed: bits [31:0] at both widths, bits [63:32] ignored (R34, R113). -/
def seedOf (r : Reg) (s : State) : BitVec 32 := (s.getX r).extractLsb' 0 32

/-- Write a W-wide result: `x[rd] <- zext_64(r)` (R34). -/
def writeResult (W : Width) (rd : Reg) (v : BitVec W.bits) (s : State) : State := s.setX rd (v.setWidth 64)

end Sys2Proof.Machine
end

