-- ==== Sys2Proof/Machine/Flags.lean ====
section
/-! DEFINITION. The engine has no flags (spec/10_state.md R23). Its booleans are here: the zero-byte detector and the
scan that confirms it (spec/40_primitives.md R87, R88), and the operand range checks (spec/60_exceptions.md R143). -/

namespace Sys2Proof.Machine

/-- `LO_W`: bit 0 of every byte set (R6, R87). -/
def loMask : (W : Width) → BitVec W.bits
  | .w4 => 0x01010101#32
  | .w8 => 0x0101010101010101#64

/-- `HI_W`: bit 7 of every byte set (R6, R87). -/
def hiMask : (W : Width) → BitVec W.bits
  | .w4 => 0x80808080#32
  | .w8 => 0x8080808080808080#64

/-- The detector's word z of R87; the subtraction wraps modulo 2^(8W). -/
def detectorWord (W : Width) (w : BitVec W.bits) : BitVec W.bits := (w - loMask W) &&& ~~~w &&& hiMask W

/-- `mcz(W, w)` of R87. -/
def mcz (W : Width) (w : BitVec W.bits) : Bool := detectorWord W w != 0

/-- `first_zero(W, w)` of R88: the least i in 0 .. W - 1 whose byte of w is 0x00. -/
def firstZero (W : Width) (w : BitVec W.bits) : Option Nat :=
  (List.range W.bytes).find? fun i => w.extractLsb' (8 * i) 8 == (0 : BitVec 8)

/-- MASK's range check: the count is in [1, W] (R91, R143 (a)). -/
def countInRange (W : Width) (k : Nat) : Bool := decide (1 ≤ k) && decide (k ≤ W.bytes)

/-- The size and length checks of R143 (b), (c): at W = 4 a value of 2^32 or more is out of range. -/
def sizeTooLarge (W : Width) (n : Nat) : Bool := W == .w4 && decide (2 ^ 32 ≤ n)

end Sys2Proof.Machine
end

