-- ==== Sys2Proof/Machine/Datapath.lean ====
section
/-! DEFINITION. The pure functions of the datapath (spec/40_primitives.md R80 to R86). The configuration is an
argument, so that the same functions compute under any (MAGIC, GOLDEN). -/

namespace Sys2Proof.Machine

/-- `magic(W, i)` of R81: MAGIC(W, i) for i in 0 .. 9, GOLDEN(W) for i = 10; not defined above. -/
def magic (cfg : Config) (W : Width) (i : Nat) : Option (BitVec W.bits) :=
  if h : i < 10 then some (cfg.magicEntry W ⟨i, h⟩)
  else if i = 10 then some (cfg.golden W)
  else none

/-- `mask(W, v, k)` of R82, for 1 <= k <= W. -/
def maskTo (W : Width) (v : BitVec W.bits) (k : Nat) : BitVec W.bits :=
  if k = W.bytes then v else v &&& BitVec.ofNat W.bits (2 ^ (8 * k) - 1)

/-- `mix(W, v, c)` of R83: the exact product of two n-bit words, high half XOR low half. -/
def mix {n : Nat} (v c : BitVec n) : BitVec n :=
  let p := v.toNat * c.toNat
  BitVec.ofNat n (p >>> n) ^^^ BitVec.ofNat n (p &&& (2 ^ n - 1))

/-- `reduce2` of R84. -/
def reduce2 {n : Nat} (a b : BitVec n) : BitVec n := a ^^^ b

/-- `reduce3` of R84. -/
def reduce3 {n : Nat} (a b c : BitVec n) : BitVec n := a ^^^ b ^^^ c

/-- `reduce4` of R84. -/
def reduce4 {n : Nat} (a b c d : BitVec n) : BitVec n := a ^^^ b ^^^ c ^^^ d

/-- `combine2` of R85: slots 1 and 2 (Magic2a, Magic2b). -/
def combine2 (cfg : Config) (W : Width) (a b : BitVec W.bits) : BitVec W.bits :=
  reduce2 (mix a (cfg.magicEntry W 1)) (mix b (cfg.magicEntry W 2))

/-- `combine3` of R85: slots 3, 4 and 5. -/
def combine3 (cfg : Config) (W : Width) (a b c : BitVec W.bits) : BitVec W.bits :=
  reduce3 (mix a (cfg.magicEntry W 3)) (mix b (cfg.magicEntry W 4)) (mix c (cfg.magicEntry W 5))

/-- `combine4` of R85: slots 6, 7, 8 and 9. -/
def combine4 (cfg : Config) (W : Width) (a b c d : BitVec W.bits) : BitVec W.bits :=
  reduce4 (mix a (cfg.magicEntry W 6)) (mix b (cfg.magicEntry W 7)) (mix c (cfg.magicEntry W 8))
    (mix d (cfg.magicEntry W 9))

/-- `scramble` of R86: slot 0 (Magic1). -/
def scramble (cfg : Config) (W : Width) (a : BitVec W.bits) : BitVec W.bits := mix a (cfg.magicEntry W 0)

end Sys2Proof.Machine
end

