-- ==== Sys2Proof/Machine/Drivers.lean ====
section
/-! DEFINITION. The three driver commands (spec/41_drivers.md R110 to R113, R119), loop by loop as the pseudocode
gives them. Addresses are exact numbers, so no address sum wraps (R46, R110). -/

namespace Sys2Proof.Machine

/-! ### The shared consumption function (R110) -/

/-- The long path's loop `while rem >= W`: k full words from address cur, each folded into the accumulator. -/
def foldWords (cfg : Config) (W : Width) (s : State) : Nat → Nat → BitVec W.bits → Run (BitVec W.bits)
  | 0, _, acc => Run.done acc
  | k + 1, cur, acc =>
    (memRead s cur W.bytes).andThen fun w => foldWords cfg W s k (cur + W.bytes) (combine2 cfg W acc w)

/-- One partial read of n bytes, zero-extended and masked to n valid bytes (R110, R82). -/
def readTail (W : Width) (s : State) (a n : Nat) : Run (BitVec W.bits) :=
  (memRead s a n).andThen fun t => Run.done (maskTo W (t.setWidth W.bits) n)

/-- The tail of the long path: folded in when some bytes remain, 1 <= rem <= W - 1 (R110). -/
def foldTail (cfg : Config) (W : Width) (s : State) (cur rem : Nat) (acc : BitVec W.bits) : Run (BitVec W.bits) :=
  if rem = 0 then Run.done acc
  else (readTail W s cur rem).andThen fun t => Run.done (combine2 cfg W acc t)

/-- `consume(W, acc, ptr, n)` of R110: the short path for n <= W (no byte is read for n = 0, R119), else n / W full
words and the tail of n mod W bytes. -/
def consume (cfg : Config) (W : Width) (s : State) (acc : BitVec W.bits) (ptr n : Nat) : Run (BitVec W.bits) :=
  if n = 0 then Run.done (combine2 cfg W acc 0)
  else if n ≤ W.bytes then
    (readTail W s ptr n).andThen fun t => Run.done (combine2 cfg W acc t)
  else
    (foldWords cfg W s (n / W.bytes) ptr acc).andThen fun acc' =>
      foldTail cfg W s (ptr + n / W.bytes * W.bytes) (n % W.bytes) acc'

/-! ### HASHBUF (R111) -/

/-- The digest of HASHBUF: the accumulator starts as the size (R111). -/
def bufferDigest (cfg : Config) (W : Width) (s : State) (ptr size : Nat) : Run (BitVec W.bits) :=
  if sizeTooLarge W size then Run.stop (.raise .rangeError 0)
  else consume cfg W s (BitVec.ofNat W.bits size) ptr size

/-- HASHBUF at one width (R111): `rd` is written only when no error is raised. -/
def hashbufCommand (cfg : Config) (W : Width) (cmd : Word) (rd rs1 rs2 : Reg) (s : State) :
    Host.Outcome State Fault Refusal :=
  conclude cmd s (bufferDigest cfg W s (addressOf rs1 s) (countOf rs2 s)) (writeResult W rd)

/-- HASHBUF.W4 (R111). -/
def execHashbufW4 (rd rs1 rs2 : Reg) (s : State) : Host.Outcome State Fault Refusal :=
  hashbufCommand Config.hw .w4 (cmdValue (.hashbufW4 rd rs1 rs2)) rd rs1 rs2 s

/-- HASHBUF.W8 (R111). -/
def execHashbufW8 (rd rs1 rs2 : Reg) (s : State) : Host.Outcome State Fault Refusal :=
  hashbufCommand Config.hw .w8 (cmdValue (.hashbufW8 rd rs1 rs2)) rd rs1 rs2 s

/-! ### HASHSTR (R112) -/

/-- `maskedWord(i)`: the i bytes before the terminator; the zero word for i = 0 (R112, R119). -/
def maskedWord (W : Width) (w : BitVec W.bits) (i : Nat) : BitVec W.bits := if i = 0 then 0 else maskTo W w i

/-- The detector, then the confirming scan (R112): the terminator's offset in a word, if it has one. -/
def terminatorIn (W : Width) (w : BitVec W.bits) : Option Nat := if mcz W w then firstZero W w else none

/-- The loop of R112 from the word at address a on. `fuel` bounds the number of words; an access at or past 2^64 fails
(R117), so from fuel 2^64 the first case is not reached, and it answers what that access would (log entry 24). -/
def stringLoop (cfg : Config) (W : Width) (s : State) : Nat → Nat → BitVec W.bits → Run (BitVec W.bits)
  | 0, a, _ => Run.stop (busError a)
  | fuel + 1, a, acc =>
    (memRead s a W.bytes).andThen fun w =>
      match terminatorIn W w with
      | some i => Run.done (combine2 cfg W acc (maskedWord W w i))
      | none => stringLoop cfg W s fuel (a + W.bytes) (combine2 cfg W acc w)

/-- The digest of HASHSTR (R112): a terminator in the first word scrambles it, otherwise the first word is the
accumulator, unmixed. -/
def stringDigest (cfg : Config) (W : Width) (s : State) (ptr : Nat) : Run (BitVec W.bits) :=
  (memRead s ptr W.bytes).andThen fun w =>
    match terminatorIn W w with
    | some i => Run.done (scramble cfg W (maskedWord W w i))
    | none => stringLoop cfg W s addressSpace (ptr + W.bytes) w

/-- HASHSTR at one width (R112). -/
def hashstrCommand (cfg : Config) (W : Width) (cmd : Word) (rd rs1 : Reg) (s : State) :
    Host.Outcome State Fault Refusal :=
  conclude cmd s (stringDigest cfg W s (addressOf rs1 s)) (writeResult W rd)

/-- HASHSTR.W4 (R112). -/
def execHashstrW4 (rd rs1 : Reg) (s : State) : Host.Outcome State Fault Refusal :=
  hashstrCommand Config.hw .w4 (cmdValue (.hashstrW4 rd rs1)) rd rs1 s

/-- HASHSTR.W8 (R112). -/
def execHashstrW8 (rd rs1 : Reg) (s : State) : Host.Outcome State Fault Refusal :=
  hashstrCommand Config.hw .w8 (cmdValue (.hashstrW8 rd rs1)) rd rs1 s

/-! ### HASHSEED (R113) -/

/-- The accumulator before the key is consumed: GOLDEN, then the length folded in, then the seed (R113). -/
def seedAccumulator (cfg : Config) (W : Width) (len : Nat) (seed : BitVec 32) : BitVec W.bits :=
  combine2 cfg W (combine2 cfg W (cfg.golden W) (BitVec.ofNat W.bits len)) (seed.setWidth W.bits)

/-- The value HASHSEED writes (R113): the seed itself for a length <= 0, else the seeded digest of the key; at W = 4 a
positive length of 2^32 or more is a RangeError. -/
def seededOutput (cfg : Config) (W : Width) (s : State) (key : Nat) (len : Int) (seed : BitVec 32) :
    Run (BitVec W.bits) :=
  if len ≤ 0 then Run.done (seed.setWidth W.bits)
  else if sizeTooLarge W len.toNat then Run.stop (.raise .rangeError 0)
  else consume cfg W s (seedAccumulator cfg W len.toNat seed) key len.toNat

/-- HASHSEED at one width (R113): the one write comes after every read (R50); no data register is written. -/
def hashseedCommand (cfg : Config) (W : Width) (cmd : Word) (rs1 rs2 rs3 rs4 : Reg) (s : State) :
    Host.Outcome State Fault Refusal :=
  conclude cmd s
    ((seededOutput cfg W s (addressOf rs1 s) (signedLengthOf rs2 s) (seedOf rs3 s)).andThen fun v =>
      memWrite s (addressOf rs4 s) W.bytes v)
    fun m t => { t with mem := m }

/-- HASHSEED.W4 (R113). -/
def execHashseedW4 (rs1 rs2 rs3 rs4 : Reg) (s : State) : Host.Outcome State Fault Refusal :=
  hashseedCommand Config.hw .w4 (cmdValue (.hashseedW4 rs1 rs2 rs3 rs4)) rs1 rs2 rs3 rs4 s

/-- HASHSEED.W8 (R113). -/
def execHashseedW8 (rs1 rs2 rs3 rs4 : Reg) (s : State) : Host.Outcome State Fault Refusal :=
  hashseedCommand Config.hw .w8 (cmdValue (.hashseedW8 rs1 rs2 rs3 rs4)) rs1 rs2 rs3 rs4 s

end Sys2Proof.Machine
end

