-- ==== Sys2Proof/Machine/Primitives.lean ====
section
/-! DEFINITION. The eleven primitive commands (spec/40_primitives.md R90 to R100), by the template of R102: read the
sources, check the operand range where the command has one, compute, write `zext_64(result)` to `x[rd]`. A primitive
command makes no memory access. Each command is one operation over its width (and the configuration where it looks
constants up); `exec<Command>W<n>` is its meaning at one width. -/

namespace Sys2Proof.Machine

/-! ### MAGIC (R90) -/

/-- `x[rd] <- zext_64(magic(W, idx))`; an index above 10 is illegal (R90; the decoder refuses it first, R65 (d)). -/
def magicCommand (cfg : Config) (W : Width) (cmd : Word) (rd : Reg) (idx : BitVec 4) (s : State) :
    Host.Outcome State Fault Refusal :=
  match magic cfg W idx.toNat with
  | some c => .next (writeResult W rd c s)
  | none => .next (s.takeError .illegalCommand cmd 0)

/-- MAGIC.W4 (R90). -/
def execMagicW4 (rd : Reg) (idx : BitVec 4) (s : State) : Host.Outcome State Fault Refusal :=
  magicCommand Config.hw .w4 (cmdValue (.magicW4 rd idx)) rd idx s

/-- MAGIC.W8 (R90). -/
def execMagicW8 (rd : Reg) (idx : BitVec 4) (s : State) : Host.Outcome State Fault Refusal :=
  magicCommand Config.hw .w8 (cmdValue (.magicW8 rd idx)) rd idx s

/-! ### MASK (R91) -/

/-- The count is read at 64 bits and range-checked before the word is masked (R91, R143 (a)). -/
def maskCommand (W : Width) (cmd : Word) (rd rs1 rs2 : Reg) (s : State) : Host.Outcome State Fault Refusal :=
  if countInRange W (countOf rs2 s) then
    .next (writeResult W rd (maskTo W (wideView W rs1 s) (countOf rs2 s)) s)
  else .next (s.takeError .rangeError cmd 0)

/-- MASK.W4 (R91). -/
def execMaskW4 (rd rs1 rs2 : Reg) (s : State) : Host.Outcome State Fault Refusal :=
  maskCommand .w4 (cmdValue (.maskW4 rd rs1 rs2)) rd rs1 rs2 s

/-- MASK.W8 (R91). -/
def execMaskW8 (rd rs1 rs2 : Reg) (s : State) : Host.Outcome State Fault Refusal :=
  maskCommand .w8 (cmdValue (.maskW8 rd rs1 rs2)) rd rs1 rs2 s

/-! ### MIX and SCRAMBLE (R92, R93) -/

/-- `x[rd] <- zext_64(mix(W, xw[rs1], xw[rs2]))` (R92). -/
def mixCommand (W : Width) (rd rs1 rs2 : Reg) (s : State) : Host.Outcome State Fault Refusal :=
  .next (writeResult W rd (mix (wideView W rs1 s) (wideView W rs2 s)) s)

/-- MIX.W4 (R92). -/
def execMixW4 (rd rs1 rs2 : Reg) (s : State) : Host.Outcome State Fault Refusal :=
  mixCommand .w4 rd rs1 rs2 s

/-- MIX.W8 (R92). -/
def execMixW8 (rd rs1 rs2 : Reg) (s : State) : Host.Outcome State Fault Refusal :=
  mixCommand .w8 rd rs1 rs2 s

/-- `x[rd] <- zext_64(scramble(W, xw[rs1]))` (R93). -/
def scrambleCommand (cfg : Config) (W : Width) (rd rs1 : Reg) (s : State) : Host.Outcome State Fault Refusal :=
  .next (writeResult W rd (scramble cfg W (wideView W rs1 s)) s)

/-- SCRAMBLE.W4 (R93). -/
def execScrambleW4 (rd rs1 : Reg) (s : State) : Host.Outcome State Fault Refusal :=
  scrambleCommand Config.hw .w4 rd rs1 s

/-- SCRAMBLE.W8 (R93). -/
def execScrambleW8 (rd rs1 : Reg) (s : State) : Host.Outcome State Fault Refusal :=
  scrambleCommand Config.hw .w8 rd rs1 s

/-! ### RED2, RED3, RED4 (R94, R95, R96) -/

/-- The XOR of 2 W-wide views (R94). -/
def red2Command (W : Width) (rd rs1 rs2 : Reg) (s : State) : Host.Outcome State Fault Refusal :=
  .next (writeResult W rd (reduce2 (wideView W rs1 s) (wideView W rs2 s)) s)

/-- RED2.W4 (R94). -/
def execRed2W4 (rd rs1 rs2 : Reg) (s : State) : Host.Outcome State Fault Refusal :=
  red2Command .w4 rd rs1 rs2 s

/-- RED2.W8 (R94). -/
def execRed2W8 (rd rs1 rs2 : Reg) (s : State) : Host.Outcome State Fault Refusal :=
  red2Command .w8 rd rs1 rs2 s

/-- The XOR of 3 W-wide views (R95). -/
def red3Command (W : Width) (rd rs1 rs2 rs3 : Reg) (s : State) : Host.Outcome State Fault Refusal :=
  .next (writeResult W rd (reduce3 (wideView W rs1 s) (wideView W rs2 s) (wideView W rs3 s)) s)

/-- RED3.W4 (R95). -/
def execRed3W4 (rd rs1 rs2 rs3 : Reg) (s : State) : Host.Outcome State Fault Refusal :=
  red3Command .w4 rd rs1 rs2 rs3 s

/-- RED3.W8 (R95). -/
def execRed3W8 (rd rs1 rs2 rs3 : Reg) (s : State) : Host.Outcome State Fault Refusal :=
  red3Command .w8 rd rs1 rs2 rs3 s

/-- The XOR of 4 W-wide views (R96). -/
def red4Command (W : Width) (rd rs1 rs2 rs3 rs4 : Reg) (s : State) : Host.Outcome State Fault Refusal :=
  .next (writeResult W rd (reduce4 (wideView W rs1 s) (wideView W rs2 s) (wideView W rs3 s) (wideView W rs4 s)) s)

/-- RED4.W4 (R96). -/
def execRed4W4 (rd rs1 rs2 rs3 rs4 : Reg) (s : State) : Host.Outcome State Fault Refusal :=
  red4Command .w4 rd rs1 rs2 rs3 rs4 s

/-- RED4.W8 (R96). -/
def execRed4W8 (rd rs1 rs2 rs3 rs4 : Reg) (s : State) : Host.Outcome State Fault Refusal :=
  red4Command .w8 rd rs1 rs2 rs3 rs4 s

/-! ### COMB2, COMB3, COMB4 (R97, R98, R99) -/

/-- The 2-ary combine of W-wide views (R97). -/
def comb2Command (cfg : Config) (W : Width) (rd rs1 rs2 : Reg) (s : State) :
    Host.Outcome State Fault Refusal :=
  .next (writeResult W rd (combine2 cfg W (wideView W rs1 s) (wideView W rs2 s)) s)

/-- COMB2.W4 (R97). -/
def execComb2W4 (rd rs1 rs2 : Reg) (s : State) : Host.Outcome State Fault Refusal :=
  comb2Command Config.hw .w4 rd rs1 rs2 s

/-- COMB2.W8 (R97). -/
def execComb2W8 (rd rs1 rs2 : Reg) (s : State) : Host.Outcome State Fault Refusal :=
  comb2Command Config.hw .w8 rd rs1 rs2 s

/-- The 3-ary combine of W-wide views (R98). -/
def comb3Command (cfg : Config) (W : Width) (rd rs1 rs2 rs3 : Reg) (s : State) :
    Host.Outcome State Fault Refusal :=
  .next (writeResult W rd (combine3 cfg W (wideView W rs1 s) (wideView W rs2 s) (wideView W rs3 s)) s)

/-- COMB3.W4 (R98). -/
def execComb3W4 (rd rs1 rs2 rs3 : Reg) (s : State) : Host.Outcome State Fault Refusal :=
  comb3Command Config.hw .w4 rd rs1 rs2 rs3 s

/-- COMB3.W8 (R98). -/
def execComb3W8 (rd rs1 rs2 rs3 : Reg) (s : State) : Host.Outcome State Fault Refusal :=
  comb3Command Config.hw .w8 rd rs1 rs2 rs3 s

/-- The 4-ary combine of W-wide views (R99). -/
def comb4Command (cfg : Config) (W : Width) (rd rs1 rs2 rs3 rs4 : Reg) (s : State) :
    Host.Outcome State Fault Refusal :=
  .next (writeResult W rd (combine4 cfg W (wideView W rs1 s) (wideView W rs2 s) (wideView W rs3 s) (wideView W rs4 s)) s)

/-- COMB4.W4 (R99). -/
def execComb4W4 (rd rs1 rs2 rs3 rs4 : Reg) (s : State) : Host.Outcome State Fault Refusal :=
  comb4Command Config.hw .w4 rd rs1 rs2 rs3 rs4 s

/-- COMB4.W8 (R99). -/
def execComb4W8 (rd rs1 rs2 rs3 rs4 : Reg) (s : State) : Host.Outcome State Fault Refusal :=
  comb4Command Config.hw .w8 rd rs1 rs2 rs3 rs4 s

/-! ### MCZ (R100) -/

/-- The detector's answer as a 64-bit 0 or 1 (R100, R23). -/
def mczCommand (W : Width) (rd rs1 : Reg) (s : State) : Host.Outcome State Fault Refusal :=
  .next (s.setX rd (if mcz W (wideView W rs1 s) then 1 else 0))

/-- MCZ.W4 (R100). -/
def execMczW4 (rd rs1 : Reg) (s : State) : Host.Outcome State Fault Refusal :=
  mczCommand .w4 rd rs1 s

/-- MCZ.W8 (R100). -/
def execMczW8 (rd rs1 : Reg) (s : State) : Host.Outcome State Fault Refusal :=
  mczCommand .w8 rd rs1 s

end Sys2Proof.Machine
end

