-- ==== Sys2Proof/Machine/Dispatch.lean ====
section
/-! DEFINITION. One arm per command: what the engine does with a command it has accepted, that is with the error latch
clear (spec/10_state.md R25). -/

namespace Sys2Proof.Machine

def exec (i : Instr) (s : State) : Host.Outcome State Fault Refusal :=
  match i with
  | .magicW4 rd idx => Sys2Proof.Machine.execMagicW4 rd idx s
  | .magicW8 rd idx => Sys2Proof.Machine.execMagicW8 rd idx s
  | .maskW4 rd rs1 rs2 => Sys2Proof.Machine.execMaskW4 rd rs1 rs2 s
  | .maskW8 rd rs1 rs2 => Sys2Proof.Machine.execMaskW8 rd rs1 rs2 s
  | .mixW4 rd rs1 rs2 => Sys2Proof.Machine.execMixW4 rd rs1 rs2 s
  | .mixW8 rd rs1 rs2 => Sys2Proof.Machine.execMixW8 rd rs1 rs2 s
  | .scrambleW4 rd rs1 => Sys2Proof.Machine.execScrambleW4 rd rs1 s
  | .scrambleW8 rd rs1 => Sys2Proof.Machine.execScrambleW8 rd rs1 s
  | .red2W4 rd rs1 rs2 => Sys2Proof.Machine.execRed2W4 rd rs1 rs2 s
  | .red2W8 rd rs1 rs2 => Sys2Proof.Machine.execRed2W8 rd rs1 rs2 s
  | .red3W4 rd rs1 rs2 rs3 => Sys2Proof.Machine.execRed3W4 rd rs1 rs2 rs3 s
  | .red3W8 rd rs1 rs2 rs3 => Sys2Proof.Machine.execRed3W8 rd rs1 rs2 rs3 s
  | .red4W4 rd rs1 rs2 rs3 rs4 => Sys2Proof.Machine.execRed4W4 rd rs1 rs2 rs3 rs4 s
  | .red4W8 rd rs1 rs2 rs3 rs4 => Sys2Proof.Machine.execRed4W8 rd rs1 rs2 rs3 rs4 s
  | .comb2W4 rd rs1 rs2 => Sys2Proof.Machine.execComb2W4 rd rs1 rs2 s
  | .comb2W8 rd rs1 rs2 => Sys2Proof.Machine.execComb2W8 rd rs1 rs2 s
  | .comb3W4 rd rs1 rs2 rs3 => Sys2Proof.Machine.execComb3W4 rd rs1 rs2 rs3 s
  | .comb3W8 rd rs1 rs2 rs3 => Sys2Proof.Machine.execComb3W8 rd rs1 rs2 rs3 s
  | .comb4W4 rd rs1 rs2 rs3 rs4 => Sys2Proof.Machine.execComb4W4 rd rs1 rs2 rs3 rs4 s
  | .comb4W8 rd rs1 rs2 rs3 rs4 => Sys2Proof.Machine.execComb4W8 rd rs1 rs2 rs3 rs4 s
  | .mczW4 rd rs1 => Sys2Proof.Machine.execMczW4 rd rs1 s
  | .mczW8 rd rs1 => Sys2Proof.Machine.execMczW8 rd rs1 s
  | .hashbufW4 rd rs1 rs2 => Sys2Proof.Machine.execHashbufW4 rd rs1 rs2 s
  | .hashbufW8 rd rs1 rs2 => Sys2Proof.Machine.execHashbufW8 rd rs1 rs2 s
  | .hashstrW4 rd rs1 => Sys2Proof.Machine.execHashstrW4 rd rs1 s
  | .hashstrW8 rd rs1 => Sys2Proof.Machine.execHashstrW8 rd rs1 s
  | .hashseedW4 rs1 rs2 rs3 rs4 => Sys2Proof.Machine.execHashseedW4 rs1 rs2 rs3 rs4 s
  | .hashseedW8 rs1 rs2 rs3 rs4 => Sys2Proof.Machine.execHashseedW8 rs1 rs2 rs3 rs4 s

end Sys2Proof.Machine
end

