-- ==== Sys2Proof/Machine/Port.lean ====
section
/-! DEFINITION. The register port (spec/10_state.md R24 to R29, R33), the other events of the outside world (reset,
stores of other agents), and one step of the machine over the meaning `run` of an accepted command. -/

namespace Sys2Proof.Machine

/-! ### The register map (R24) -/

/-- What a slot of the register port holds (R24). -/
inductive Slot where
  | data (r : Reg)
  | cmd
  | status
  | faddr
  | fcmd
  | reserved
deriving DecidableEq, Repr

/-- The map of R24: a multiple of 8 in the range 0x00 to 0x78; any other offset is outside the engine (R29). -/
def slotAt (offset : Nat) : Option Slot :=
  if offset % 8 ≠ 0 then none
  else if h : offset < 0x40 then some (.data ⟨offset / 8, by omega⟩)
  else match offset with
    | 0x40 => some .cmd
    | 0x48 => some .status
    | 0x50 => some .faddr
    | 0x58 => some .fcmd
    | 0x60 => some .reserved
    | 0x68 => some .reserved
    | 0x70 => some .reserved
    | 0x78 => some .reserved
    | _ => none

/-- What a read of a slot returns (R24): CMD and the reserved slots return 0 (R25, R29), STATUS[63:4] reads as
zero (R26). -/
def readSlot (s : State) : Slot → Word
  | .data r => s.getX r
  | .cmd => 0
  | .status => s.err.setWidth 64
  | .faddr => s.faddr
  | .fcmd => s.fcmd
  | .reserved => 0

/-- `RegRead(offset)` (R24, R33): answers the value and changes nothing. -/
def regRead (offset : Nat) (s : State) : Host.Outcome State Fault Refusal :=
  match slotAt offset with
  | some p => .next { s with reply := some (readSlot s p) }
  | none => .refused .outsideRegisterPort

/-- A value written to CMD (R25): discarded while the latch is set (R147), else decoded (R70) and run; an illegal
value raises IllegalCommand (R142). -/
def commandWrite (run : Instr → State → Host.Outcome State Fault Refusal) (v : Word) (s : State) :
    Host.Outcome State Fault Refusal :=
  if s.err ≠ 0 then .next s
  else match decode v with
    | .legal i => run i s
    | .illegal _ => .next (s.takeError .illegalCommand v 0)

/-- `RegWrite(offset, v)` (R24): writes to FADDR, FCMD and the reserved slots are ignored (R27, R28, R29). -/
def regWrite (run : Instr → State → Host.Outcome State Fault Refusal) (offset : Nat) (v : Word) (s : State) :
    Host.Outcome State Fault Refusal :=
  match slotAt offset with
  | some (.data r) => .next (s.setX r v)
  | some .cmd => commandWrite run v s
  | some .status => .next s.clearLatch
  | some .faddr => .next s
  | some .fcmd => .next s
  | some .reserved => .next s
  | none => .refused .outsideRegisterPort

/-! ### Host directives (R69) -/

/-- `SET xN, value`. -/
def Event.set (r : Reg) (v : Word) : Event := .regWrite (8 * r.val) v
/-- `GET xN`. -/
def Event.get (r : Reg) : Event := .regRead (8 * r.val)
/-- `GETSTATUS`. -/
def Event.getStatus : Event := .regRead 0x48
/-- `GETFADDR`. -/
def Event.getFaddr : Event := .regRead 0x50
/-- `GETFCMD`. -/
def Event.getFcmd : Event := .regRead 0x58
/-- `CLRERR`. -/
def Event.clrErr : Event := .regWrite 0x48 0
/-- A command line of a program: `RegWrite(0x40, word)`. -/
def Event.command (i : Instr) : Event := .regWrite 0x40 (cmdValue i)

/-! ### What a command does at the memory port (R116) -/

/-- The accesses a command makes at the memory port, and the bytes it writes there if it completes. -/
structure MemoryUse where
  accesses : List Access
  stores   : List (Nat × Byte)
deriving DecidableEq, Repr

/-- A primitive command makes no memory access (R102). -/
def MemoryUse.none : MemoryUse := ⟨[], []⟩

/-- A driver that only reads: HASHBUF, HASHSTR (R116: its write set is empty). -/
def readsOnly {W : Width} (r : Run (BitVec W.bits)) : MemoryUse := ⟨r.trace, []⟩

/-- HASHSEED: the reads, then the write of W bytes when every read succeeds (R113, R116). -/
def seededUse (W : Width) (out : Nat) (r : Run (BitVec W.bits)) : MemoryUse where
  accesses := r.trace ++ (match r.result with
    | .ok _ => if out + W.bytes > addressSpace then [] else [⟨.write, out, W.bytes⟩]
    | .error _ => [])
  stores := match r.result with
    | .ok v => (List.range W.bytes).map fun j => (out + j, v.extractLsb' (8 * j) 8)
    | .error _ => []

/-- What each command does at the memory port in a state. -/
def memoryUse (cfg : Config) (i : Instr) (s : State) : MemoryUse :=
  match i with
  | .magicW4 _ _ => .none
  | .magicW8 _ _ => .none
  | .maskW4 _ _ _ => .none
  | .maskW8 _ _ _ => .none
  | .mixW4 _ _ _ => .none
  | .mixW8 _ _ _ => .none
  | .scrambleW4 _ _ => .none
  | .scrambleW8 _ _ => .none
  | .red2W4 _ _ _ => .none
  | .red2W8 _ _ _ => .none
  | .red3W4 _ _ _ _ => .none
  | .red3W8 _ _ _ _ => .none
  | .red4W4 _ _ _ _ _ => .none
  | .red4W8 _ _ _ _ _ => .none
  | .comb2W4 _ _ _ => .none
  | .comb2W8 _ _ _ => .none
  | .comb3W4 _ _ _ _ => .none
  | .comb3W8 _ _ _ _ => .none
  | .comb4W4 _ _ _ _ _ => .none
  | .comb4W8 _ _ _ _ _ => .none
  | .mczW4 _ _ => .none
  | .mczW8 _ _ => .none
  | .hashbufW4 _ rs1 rs2 => readsOnly (bufferDigest cfg .w4 s (addressOf rs1 s) (countOf rs2 s))
  | .hashbufW8 _ rs1 rs2 => readsOnly (bufferDigest cfg .w8 s (addressOf rs1 s) (countOf rs2 s))
  | .hashstrW4 _ rs1 => readsOnly (stringDigest cfg .w4 s (addressOf rs1 s))
  | .hashstrW8 _ rs1 => readsOnly (stringDigest cfg .w8 s (addressOf rs1 s))
  | .hashseedW4 rs1 rs2 rs3 rs4 => seededUse .w4 (addressOf rs4 s)
      (seededOutput cfg .w4 s (addressOf rs1 s) (signedLengthOf rs2 s) (seedOf rs3 s))
  | .hashseedW8 rs1 rs2 rs3 rs4 => seededUse .w8 (addressOf rs4 s)
      (seededOutput cfg .w8 s (addressOf rs1 s) (signedLengthOf rs2 s) (seedOf rs3 s))

/-! ### Other agents writing during a command (R51) -/

/-- What a command sees of memory while other agents write: each store is seen or not, by a free choice per store.
Each byte of a read set is read once (R47), so fixing the choices at the start admits exactly "its old or its new
value" per byte (R45, R51). -/
def racedView (draw : Nat) : List (Word × Byte) → Memory → Memory
  | [], m => m
  | (a, b) :: rest, m => racedView (draw + 1) rest (if Config.freeBit draw then m.set a.toNat b else m)

/-- Memory once the command has ended: every store of the other agents stands, but where the command wrote the same
byte either value may be the later one (log entry 13). -/
def settleStores (draw : Nat) (written : List Nat) : List (Word × Byte) → Memory → Memory
  | [], m => m
  | (a, b) :: rest, m =>
    settleStores (draw + 1) written rest
      (if written.contains a.toNat && !Config.freeBit draw then m else m.set a.toNat b)

/-- The addresses the command of a CMD write writes when it completes in this state (R116). -/
def writtenBy (cfg : Config) (v : Word) (s t : State) : List Nat :=
  match decode v with
  | .legal i => if s.err = 0 ∧ t.err = 0 then (memoryUse cfg i s).stores.map Prod.fst else []
  | .illegal _ => []

/-- The state a command runs in while other agents write: memory as it sees it, and the choices drawn, two for each
store (log entry 15). -/
def State.raced (s : State) (stores : List (Word × Byte)) : State :=
  { s with mem := racedView s.draws stores s.mem, draws := s.draws + 2 * stores.length }

/-- A CMD write during whose command other agents write memory (R51): a race, every per-byte choice admitted. -/
def commandWithStores (cfg : Config) (run : Instr → State → Host.Outcome State Fault Refusal) (v : Word)
    (stores : List (Word × Byte)) (s : State) : Host.Outcome State Fault Refusal :=
  match commandWrite run v (s.raced stores) with
  | .next t => .next { t with
      mem := settleStores (s.draws + stores.length) (writtenBy cfg v (s.raced stores) t) stores t.mem }
  | .fault f => .fault f
  | .refused r => .refused r

/-! ### Reset (R170, R171) -/

/-- Each byte of an abandoned write holds its old value or the one the completed command would have written (R171). -/
def abandonedStores (draw : Nat) : List (Nat × Byte) → Memory → Memory
  | [], m => m
  | (a, b) :: rest, m => abandonedStores (draw + 1) rest (if Config.freeBit draw then m.set a b else m)

/-- The engine after reset during a command that may have written `stores` and has made some of `accesses`, the first
ones in order (R50). -/
def abandon (stores : List (Nat × Byte)) (accesses : List Access) (s : State) : State :=
  State.resetEngine
    { s with mem := abandonedStores s.draws stores s.mem, draws := s.draws + stores.length + 1,
             bus := s.bus ++ accesses.take (Config.freeCount (s.draws + stores.length)) }

/-- Reset during the command of a CMD write (R171): the command is abandoned and no error is recorded. A discarded or
illegal value starts no command, so reset is all that happens; a command the model refuses stays refused; a command
that would have ended in an error writes nothing; only reset recovers from an access that is never answered (R178). -/
def commandThenReset (cfg : Config) (run : Instr → State → Host.Outcome State Fault Refusal) (v : Word) (s : State) :
    Host.Outcome State Fault Refusal :=
  if s.err ≠ 0 then .next s.resetEngine
  else match decode v with
    | .illegal _ => .next s.resetEngine
    | .legal i =>
      let use := memoryUse cfg i s
      match run i s with
      | .refused r => .refused r
      | .next t => .next (abandon (if t.err = 0 then use.stores else []) use.accesses s)
      | .fault .memoryNeverAnswers => .next (abandon use.stores use.accesses s)

/-! ### One step -/

/-- What one event does. -/
def handleEvent (cfg : Config) (run : Instr → State → Host.Outcome State Fault Refusal) (e : Event) (s : State) :
    Host.Outcome State Fault Refusal :=
  match e with
  | .regWrite offset v => regWrite run offset v s
  | .regRead offset => regRead offset s
  | .reset => .next s.resetEngine
  | .cmdThenReset v => commandThenReset cfg run v s
  | .store a b => .next { s with mem := s.mem.set a.toNat b }
  | .cmdWithStores v stores => commandWithStores cfg run v stores s

/-- The state in which an event is handled: it has been taken from the list, and the port's answer and the record of
accesses start afresh (log entries 8, 11, 12). -/
def State.accepting (s : State) (rest : List Event) : State := { s with events := rest, reply := none, bus := [] }

/-- One step: the next event, or nothing when the engine is idle (log entry 8). -/
def stepWith (cfg : Config) (run : Instr → State → Host.Outcome State Fault Refusal) (s : State) :
    Host.Outcome State Fault Refusal :=
  match s.events with
  | [] => .next s
  | e :: rest => handleEvent cfg run e (s.accepting rest)

/-- The host's next transaction is the CMD write of v, with the latch clear so that it is not discarded (R147;
log entry 9). -/
def State.withCommand (s : State) (v : Word) : State :=
  { s.clearLatch with events := .regWrite 0x40 v :: s.events }

end Sys2Proof.Machine
end

