-- ==== Sys2Proof/Machine/Step.lean ====
section
/-! DEFINITION. The step of the machine, and how one command is placed so that the next step runs it. -/

namespace Sys2Proof.Machine

/-- One step of the engine at hand: the next event of the outside world (Port.lean), a command run by `exec`. -/
def step (s : State) : Host.Outcome State Fault Refusal := stepWith Config.hw exec s

/-- The engine fetches nothing (R22): the command comes with the host's next CMD write. The word is the low nbits of
w, every bit above zero; the latch is clear, or the write would be discarded (R147; log entry 9). -/
def State.withFetchWord (s : State) (nbits w : Nat) : State := s.withCommand (BitVec.ofNat 64 (w % 2 ^ nbits))

end Sys2Proof.Machine
end

