-- ==== Sys2Proof/Safety.lean ====
section
/-! DEFINITION. The terms claims use: what a state must satisfy (the invariant), which accesses memory grants, and the
spec's own closed descriptions of words, digests and access lists, written without the machine's loops. -/

namespace Sys2Proof.Machine

/-! ### The opcode table (spec/opcode_table.json, spec/30_encoding.md R63) -/

/-- One row of opcode_table.json. -/
structure TableRow where
  mnemonic : String
  mask     : BitVec 32
  pattern  : BitVec 32
deriving DecidableEq, Repr

/-- The rows of the primitive commands. -/
def primitiveRows : List TableRow := [
  ⟨"MAGIC.W4", 0xFC3FFC7F#32, 0x00000001#32⟩,
  ⟨"MAGIC.W8", 0xFC3FFC7F#32, 0x00000041#32⟩,
  ⟨"MASK.W4", 0xFFFF007F#32, 0x00000002#32⟩,
  ⟨"MASK.W8", 0xFFFF007F#32, 0x00000042#32⟩,
  ⟨"MIX.W4", 0xFFFF007F#32, 0x00000003#32⟩,
  ⟨"MIX.W8", 0xFFFF007F#32, 0x00000043#32⟩,
  ⟨"SCRAMBLE.W4", 0xFFFFE07F#32, 0x00000004#32⟩,
  ⟨"SCRAMBLE.W8", 0xFFFFE07F#32, 0x00000044#32⟩,
  ⟨"RED2.W4", 0xFFFF007F#32, 0x00000005#32⟩,
  ⟨"RED2.W8", 0xFFFF007F#32, 0x00000045#32⟩,
  ⟨"RED3.W4", 0xFFF8007F#32, 0x00000006#32⟩,
  ⟨"RED3.W8", 0xFFF8007F#32, 0x00000046#32⟩,
  ⟨"RED4.W4", 0xFFC0007F#32, 0x00000007#32⟩,
  ⟨"RED4.W8", 0xFFC0007F#32, 0x00000047#32⟩,
  ⟨"COMB2.W4", 0xFFFF007F#32, 0x00000008#32⟩,
  ⟨"COMB2.W8", 0xFFFF007F#32, 0x00000048#32⟩,
  ⟨"COMB3.W4", 0xFFF8007F#32, 0x00000009#32⟩,
  ⟨"COMB3.W8", 0xFFF8007F#32, 0x00000049#32⟩,
  ⟨"COMB4.W4", 0xFFC0007F#32, 0x0000000A#32⟩,
  ⟨"COMB4.W8", 0xFFC0007F#32, 0x0000004A#32⟩,
  ⟨"MCZ.W4", 0xFFFFE07F#32, 0x0000000B#32⟩,
  ⟨"MCZ.W8", 0xFFFFE07F#32, 0x0000004B#32⟩]

/-- The rows of the driver commands. -/
def driverRows : List TableRow := [
  ⟨"HASHBUF.W4", 0xFFFF007F#32, 0x00000010#32⟩,
  ⟨"HASHBUF.W8", 0xFFFF007F#32, 0x00000050#32⟩,
  ⟨"HASHSTR.W4", 0xFFFFE07F#32, 0x00000011#32⟩,
  ⟨"HASHSTR.W8", 0xFFFFE07F#32, 0x00000051#32⟩,
  ⟨"HASHSEED.W4", 0xFFC003FF#32, 0x00000012#32⟩,
  ⟨"HASHSEED.W8", 0xFFC003FF#32, 0x00000052#32⟩]

/-- The 28 rows of opcode_table.json. -/
def opcodeTable : List TableRow := primitiveRows ++ driverRows

/-- "a word w32 selects the row when `(w32 & mask) == match`" (R63). -/
def TableRow.selectedBy (r : TableRow) (c : BitVec 32) : Bool := c &&& r.mask == r.pattern

/-! ### A command at either width (R61: every command exists at both widths) -/

/-- MAGIC at width W. -/
abbrev magicAt : Width → Reg → BitVec 4 → Instr
  | .w4 => .magicW4
  | .w8 => .magicW8

/-- MASK at width W. -/
abbrev maskAt : Width → Reg → Reg → Reg → Instr
  | .w4 => .maskW4
  | .w8 => .maskW8

/-- MIX at width W. -/
abbrev mixAt : Width → Reg → Reg → Reg → Instr
  | .w4 => .mixW4
  | .w8 => .mixW8

/-- SCRAMBLE at width W. -/
abbrev scrambleAt : Width → Reg → Reg → Instr
  | .w4 => .scrambleW4
  | .w8 => .scrambleW8

/-- RED2 at width W. -/
abbrev red2At : Width → Reg → Reg → Reg → Instr
  | .w4 => .red2W4
  | .w8 => .red2W8

/-- RED3 at width W. -/
abbrev red3At : Width → Reg → Reg → Reg → Reg → Instr
  | .w4 => .red3W4
  | .w8 => .red3W8

/-- RED4 at width W. -/
abbrev red4At : Width → Reg → Reg → Reg → Reg → Reg → Instr
  | .w4 => .red4W4
  | .w8 => .red4W8

/-- COMB2 at width W. -/
abbrev comb2At : Width → Reg → Reg → Reg → Instr
  | .w4 => .comb2W4
  | .w8 => .comb2W8

/-- COMB3 at width W. -/
abbrev comb3At : Width → Reg → Reg → Reg → Reg → Instr
  | .w4 => .comb3W4
  | .w8 => .comb3W8

/-- COMB4 at width W. -/
abbrev comb4At : Width → Reg → Reg → Reg → Reg → Reg → Instr
  | .w4 => .comb4W4
  | .w8 => .comb4W8

/-- MCZ at width W. -/
abbrev mczAt : Width → Reg → Reg → Instr
  | .w4 => .mczW4
  | .w8 => .mczW8

/-- HASHBUF at width W. -/
abbrev hashbufAt : Width → Reg → Reg → Reg → Instr
  | .w4 => .hashbufW4
  | .w8 => .hashbufW8

/-- HASHSTR at width W. -/
abbrev hashstrAt : Width → Reg → Reg → Instr
  | .w4 => .hashstrW4
  | .w8 => .hashstrW8

/-- HASHSEED at width W. -/
abbrev hashseedAt : Width → Reg → Reg → Reg → Reg → Instr
  | .w4 => .hashseedW4
  | .w8 => .hashseedW8

/-! ### What a command may touch (R63, R116) -/

/-- The data register a command writes when it completes: `rd`, and none for HASHSEED (R63). -/
def destination : Instr → Option Reg
  | .magicW4 rd _ => some rd
  | .magicW8 rd _ => some rd
  | .maskW4 rd _ _ => some rd
  | .maskW8 rd _ _ => some rd
  | .mixW4 rd _ _ => some rd
  | .mixW8 rd _ _ => some rd
  | .scrambleW4 rd _ => some rd
  | .scrambleW8 rd _ => some rd
  | .red2W4 rd _ _ => some rd
  | .red2W8 rd _ _ => some rd
  | .red3W4 rd _ _ _ => some rd
  | .red3W8 rd _ _ _ => some rd
  | .red4W4 rd _ _ _ _ => some rd
  | .red4W8 rd _ _ _ _ => some rd
  | .comb2W4 rd _ _ => some rd
  | .comb2W8 rd _ _ => some rd
  | .comb3W4 rd _ _ _ => some rd
  | .comb3W8 rd _ _ _ => some rd
  | .comb4W4 rd _ _ _ _ => some rd
  | .comb4W8 rd _ _ _ _ => some rd
  | .mczW4 rd _ => some rd
  | .mczW8 rd _ => some rd
  | .hashbufW4 rd _ _ => some rd
  | .hashbufW8 rd _ _ => some rd
  | .hashstrW4 rd _ => some rd
  | .hashstrW8 rd _ => some rd
  | .hashseedW4 _ _ _ _ => none
  | .hashseedW8 _ _ _ _ => none

/-- The three driver commands (R62). -/
def isDriver : Instr → Bool
  | .magicW4 _ _ => false
  | .magicW8 _ _ => false
  | .maskW4 _ _ _ => false
  | .maskW8 _ _ _ => false
  | .mixW4 _ _ _ => false
  | .mixW8 _ _ _ => false
  | .scrambleW4 _ _ => false
  | .scrambleW8 _ _ => false
  | .red2W4 _ _ _ => false
  | .red2W8 _ _ _ => false
  | .red3W4 _ _ _ _ => false
  | .red3W8 _ _ _ _ => false
  | .red4W4 _ _ _ _ _ => false
  | .red4W8 _ _ _ _ _ => false
  | .comb2W4 _ _ _ => false
  | .comb2W8 _ _ _ => false
  | .comb3W4 _ _ _ _ => false
  | .comb3W8 _ _ _ _ => false
  | .comb4W4 _ _ _ _ _ => false
  | .comb4W8 _ _ _ _ _ => false
  | .mczW4 _ _ => false
  | .mczW8 _ _ => false
  | .hashbufW4 _ _ _ => true
  | .hashbufW8 _ _ _ => true
  | .hashstrW4 _ _ => true
  | .hashstrW8 _ _ => true
  | .hashseedW4 _ _ _ _ => true
  | .hashseedW8 _ _ _ _ => true

/-- The commands that can raise RangeError (R143). -/
def canRaiseRange : Instr → Bool
  | .magicW4 _ _ => false
  | .magicW8 _ _ => false
  | .maskW4 _ _ _ => true
  | .maskW8 _ _ _ => true
  | .mixW4 _ _ _ => false
  | .mixW8 _ _ _ => false
  | .scrambleW4 _ _ => false
  | .scrambleW8 _ _ => false
  | .red2W4 _ _ _ => false
  | .red2W8 _ _ _ => false
  | .red3W4 _ _ _ _ => false
  | .red3W8 _ _ _ _ => false
  | .red4W4 _ _ _ _ _ => false
  | .red4W8 _ _ _ _ _ => false
  | .comb2W4 _ _ _ => false
  | .comb2W8 _ _ _ => false
  | .comb3W4 _ _ _ _ => false
  | .comb3W8 _ _ _ _ => false
  | .comb4W4 _ _ _ _ _ => false
  | .comb4W8 _ _ _ _ _ => false
  | .mczW4 _ _ => false
  | .mczW8 _ _ => false
  | .hashbufW4 _ _ _ => true
  | .hashbufW8 _ _ _ => false
  | .hashstrW4 _ _ => false
  | .hashstrW8 _ _ => false
  | .hashseedW4 _ _ _ _ => true
  | .hashseedW8 _ _ _ _ => false

/-- The three cases of RangeError (R143), over the operands as the meaning reads them. -/
def outOfRange (i : Instr) (s : State) : Prop :=
  match i with
  | .maskW4 _ _ rs2 => (s.x[rs2]).toNat = 0 ∨ 4 < (s.x[rs2]).toNat
  | .maskW8 _ _ rs2 => (s.x[rs2]).toNat = 0 ∨ 8 < (s.x[rs2]).toNat
  | .hashbufW4 _ _ rs2 => 2 ^ 32 ≤ (s.x[rs2]).toNat
  | .hashseedW4 _ rs2 _ _ => 2 ^ 32 ≤ (s.x[rs2]).toInt
  | .magicW4 _ _ => False
  | .magicW8 _ _ => False
  | .mixW4 _ _ _ => False
  | .mixW8 _ _ _ => False
  | .scrambleW4 _ _ => False
  | .scrambleW8 _ _ => False
  | .red2W4 _ _ _ => False
  | .red2W8 _ _ _ => False
  | .red3W4 _ _ _ _ => False
  | .red3W8 _ _ _ _ => False
  | .red4W4 _ _ _ _ _ => False
  | .red4W8 _ _ _ _ _ => False
  | .comb2W4 _ _ _ => False
  | .comb2W8 _ _ _ => False
  | .comb3W4 _ _ _ _ => False
  | .comb3W8 _ _ _ _ => False
  | .comb4W4 _ _ _ _ _ => False
  | .comb4W8 _ _ _ _ _ => False
  | .mczW4 _ _ => False
  | .mczW8 _ _ => False
  | .hashbufW8 _ _ _ => False
  | .hashstrW4 _ _ => False
  | .hashstrW8 _ _ => False
  | .hashseedW8 _ _ _ _ => False

/-- The addresses HASHSEED stores to, by the operand its meaning uses; no other command stores (R116). -/
def storesTo (i : Instr) (s : State) (a : Nat) : Prop :=
  match i with
  | .hashseedW4 _ _ _ rs4 => addressOf rs4 s ≤ a ∧ a < addressOf rs4 s + 4
  | .hashseedW8 _ _ _ rs4 => addressOf rs4 s ≤ a ∧ a < addressOf rs4 s + 8
  | .magicW4 _ _ => False
  | .magicW8 _ _ => False
  | .maskW4 _ _ _ => False
  | .maskW8 _ _ _ => False
  | .mixW4 _ _ _ => False
  | .mixW8 _ _ _ => False
  | .scrambleW4 _ _ => False
  | .scrambleW8 _ _ => False
  | .red2W4 _ _ _ => False
  | .red2W8 _ _ _ => False
  | .red3W4 _ _ _ _ => False
  | .red3W8 _ _ _ _ => False
  | .red4W4 _ _ _ _ _ => False
  | .red4W8 _ _ _ _ _ => False
  | .comb2W4 _ _ _ => False
  | .comb2W8 _ _ _ => False
  | .comb3W4 _ _ _ _ => False
  | .comb3W8 _ _ _ _ => False
  | .comb4W4 _ _ _ _ _ => False
  | .comb4W8 _ _ _ _ _ => False
  | .mczW4 _ _ => False
  | .mczW8 _ _ => False
  | .hashbufW4 _ _ _ => False
  | .hashbufW8 _ _ _ => False
  | .hashstrW4 _ _ => False
  | .hashstrW8 _ _ => False

/-! ### What memory grants (R46) -/

/-- The byte at an address is ordinary memory in the readable set. -/
def readableAt (map : List Region) (a : Nat) : Bool :=
  match regionAt map a with
  | some (.ram r _) => r
  | some .device => false
  | some .enginePort => false
  | some .silent => false
  | none => false

/-- The byte at an address is ordinary memory in the writable set. -/
def writableAt (map : List Region) (a : Nat) : Bool :=
  match regionAt map a with
  | some (.ram _ w) => w
  | some .device => false
  | some .enginePort => false
  | some .silent => false
  | none => false

/-- The byte at an address is ordinary memory or nothing at all: memory answers, with the byte or an error. -/
def answersAt (map : List Region) (a : Nat) : Bool :=
  match regionAt map a with
  | some (.ram _ _) => true
  | some .device => false
  | some .enginePort => false
  | some .silent => false
  | none => true

/-- All n bytes from address a exist below 2^64 and are readable. -/
def Readable (s : State) (a n : Nat) : Prop := a + n ≤ addressSpace ∧ ∀ j < n, readableAt s.map (a + j) = true

/-- All n bytes from address a exist below 2^64 and are writable. -/
def Writable (s : State) (a n : Nat) : Prop := a + n ≤ addressSpace ∧ ∀ j < n, writableAt s.map (a + j) = true

/-- A read of n bytes at a raises BusError (R46): (a) it passes 2^64, or (b) memory answers some part with an error. -/
def ReadFails (s : State) (a n : Nat) : Prop :=
  a + n > addressSpace ∨
    ((∀ j < n, answersAt s.map (a + j) = true) ∧ ∃ j < n, readableAt s.map (a + j) = false)

/-- A write of n bytes at a raises BusError (R46). -/
def WriteFails (s : State) (a n : Nat) : Prop :=
  a + n > addressSpace ∨
    ((∀ j < n, answersAt s.map (a + j) = true) ∧ ∃ j < n, writableAt s.map (a + j) = false)

/-- Some byte of an access lies in a window of this kind. -/
def Touches (s : State) (kind : RegionKind) (a n : Nat) : Prop := ∃ j < n, regionAt s.map (a + j) = some kind

/-- An access inside the address space that touches a window that is no memory, and how it stops the command: a device
and the engine's own registers are refused (R40, R45), an access that is never answered leaves the machine stuck (R178).
The order among several windows is the model's own (log entry 6). -/
def StopsWith (s : State) (a n : Nat) (o : Host.Outcome State Fault Refusal) : Prop :=
  a + n ≤ addressSpace ∧
    ((Touches s .device a n ∧ o = .refused .deviceAccess) ∨
      (¬ Touches s .device a n ∧ Touches s .enginePort a n ∧ o = .refused .enginePortAccess) ∨
      (¬ Touches s .device a n ∧ ¬ Touches s .enginePort a n ∧ Touches s .silent a n ∧
        o = .fault .memoryNeverAnswers))

/-- The accesses presented to memory when one at a fails: an access that passes 2^64 makes no transfer (R46 (a)). -/
def presented (k : AccessKind) (a n : Nat) : List Access := if a + n > addressSpace then [] else [⟨k, a, n⟩]

/-! ### Words and digests, in closed form -/

/-- The number whose byte j is the j-th byte of the list (R41). -/
def leNumber : List Byte → Nat
  | [] => 0
  | b :: bs => b.toNat + 256 * leNumber bs

/-- The n bytes at a as a W-word, zero-extended (R41). -/
def wordAt (W : Width) (s : State) (a n : Nat) : BitVec W.bits := BitVec.ofNat W.bits (leNumber (s.mem.bytesAt a n))

/-- The folded product of two numbers below 2^n: the exact product's high half XOR its low half (R83). -/
def foldedProduct (n a b : Nat) : Nat := (a * b / 2 ^ n) ^^^ (a * b % 2 ^ n)

/-- The number of accesses for n bytes, ceil(n / W) (R117). -/
def accessCount (W : Width) (n : Nat) : Nat := (n + W.bytes - 1) / W.bytes

/-- Where the j-th access of a buffer starts, and how many bytes it reads: W, and the rest for the last one. -/
def chunkAddr (W : Width) (ptr j : Nat) : Nat := ptr + j * W.bytes
/-- The size of the j-th access of a buffer of n bytes. -/
def chunkSize (W : Width) (n j : Nat) : Nat := min W.bytes (n - j * W.bytes)

/-- The accesses of a buffer of n bytes: ascending, each byte once (R111, R116). -/
def bufferAccesses (W : Width) (ptr n : Nat) : List Access :=
  (List.range (accessCount W n)).map fun j => ⟨.read, chunkAddr W ptr j, chunkSize W n j⟩

/-- The fold of a buffer's words into an accumulator, one combine per word or tail (R110). -/
def bufferFold (cfg : Config) (W : Width) (s : State) (ptr n : Nat) (acc : BitVec W.bits) : BitVec W.bits :=
  (List.range (accessCount W n)).foldl
    (fun acc j => combine2 cfg W acc (wordAt W s (chunkAddr W ptr j) (chunkSize W n j))) acc

/-- A string of L non-zero bytes and its terminator stand at ptr (R112). -/
def StringAt (s : State) (ptr L : Nat) : Prop :=
  (∀ j < L, s.mem.byteAt (ptr + j) ≠ 0) ∧ s.mem.byteAt (ptr + L) = 0

/-- The digest of a string of L bytes (R112): scrambled when it fits in fewer than W bytes, else the first word and
then one combine for each later word, the last one holding only the bytes before the terminator. -/
def stringFold (cfg : Config) (W : Width) (s : State) (ptr L : Nat) : BitVec W.bits :=
  if L < W.bytes then scramble cfg W (wordAt W s ptr L)
  else (List.range (L / W.bytes)).foldl
    (fun acc j => combine2 cfg W acc (wordAt W s (chunkAddr W ptr (j + 1)) (chunkSize W L (j + 1))))
    (wordAt W s ptr W.bytes)

/-- The accesses of a string of L bytes: whole words up to the one that holds the terminator (R112, R116). -/
def stringAccesses (W : Width) (ptr L : Nat) : List Access :=
  (List.range (L / W.bytes + 1)).map fun j => ⟨.read, chunkAddr W ptr j, W.bytes⟩

/-- The same outcome with another next state. -/
def mapNext (f : State → State) : Host.Outcome State Fault Refusal → Host.Outcome State Fault Refusal
  | .next t => .next (f t)
  | .fault r => .fault r
  | .refused r => .refused r

/-- The state with another memory and another map behind the memory port. -/
def onMemory (m : Memory) (map : List Region) (s : State) : State := { s with mem := m, map := map }

/-- Two memories agree at an address, in the byte and in what answers there. -/
def AgreeAt (s : State) (m : Memory) (map : List Region) (a : Nat) : Prop :=
  m.byteAt a = s.mem.byteAt a ∧ regionAt map a = regionAt s.map a

/-! ### The invariant -/

/-- The error latch and its two records agree (R26, R27, R28, R141, R143, R144): only the codes 0 to 3 appear; a clear
latch has both records 0; FADDR is 0 unless the error is BusError; FCMD is an illegal value for IllegalCommand, a
command that can raise RangeError for RangeError, a driver command for BusError. -/
def latchConsistent (s : State) : Bool :=
  if s.err = 0 then s.faddr == 0 && s.fcmd == 0
  else if s.err = 1 then
    s.faddr == 0 && (match decode s.fcmd with | .legal _ => false | .illegal _ => true)
  else if s.err = 2 then
    s.faddr == 0 && (match decode s.fcmd with | .legal i => canRaiseRange i | .illegal _ => false)
  else if s.err = 3 then
    (match decode s.fcmd with | .legal i => isDriver i | .illegal _ => false)
  else false

/-- What every step keeps: memory in canonical form and a consistent error latch. -/
def State.Inv (s : State) : Prop := s.mem.wf = true ∧ latchConsistent s = true

end Sys2Proof.Machine
end

