-- ==== Sys2Proof/Certificates/Slice0/Obligations.lean ====
section
/-! DEFINITION. The statements for the provers, each from the numbered rules of spec/ it cites in OBLIGATIONS.json.
An event is taken from the front of `events`; `{ s with events := rest, reply := none, bus := [] }` is the state in
which it is handled (log entries 8, 11, 12). `exec` is what the engine does with a command it has accepted. -/

open Sys2Proof Sys2Proof.Machine

/-! ### Encoding -/

/-- R60, R63, R70: no bit of an encoding is dropped. -/
def Obligations.DecodeOfEncodedInstruction : Prop :=
  ∀ i : Instr, i.wellFormed = true → decode (cmdValue i) = .legal i

/-- R65, R70: a value has one reading, and it is the value written for that reading; so FCMD of a command is the value
that was written (R28). -/
def Obligations.EncodeOfDecodedValue : Prop :=
  ∀ (v : Word) (i : Instr), decode v = .legal i → cmdValue i = v ∧ i.wellFormed = true

/-- R65: the illegal values, in exactly the cases (a) to (e), over the value as a number. -/
def Obligations.IllegalValuesExactly : Prop :=
  ∀ v : Word,
    let field := fun lo len => v.toNat / 2 ^ lo % 2 ^ len
    let op := field 0 6
    (∃ why, decode v = .illegal why) ↔
      v.toNat / 2 ^ 32 ≠ 0 ∨
      field 26 6 ≠ 0 ∨
      op ∉ [0x01, 0x02, 0x03, 0x04, 0x05, 0x06, 0x07, 0x08, 0x09, 0x0A, 0x0B, 0x10, 0x11, 0x12] ∨
      (op = 0x01 ∧ 10 < field 22 4) ∨
      (field 7 3 ≠ 0 ∧ op = 0x12) ∨
      (field 10 3 ≠ 0 ∧ op = 0x01) ∨
      (field 13 3 ≠ 0 ∧ op ∈ [0x01, 0x04, 0x0B, 0x11]) ∨
      (field 16 3 ≠ 0 ∧ op ∈ [0x01, 0x02, 0x03, 0x04, 0x05, 0x08, 0x0B, 0x10, 0x11]) ∨
      (field 19 3 ≠ 0 ∧ op ∈ [0x01, 0x02, 0x03, 0x04, 0x05, 0x06, 0x08, 0x09, 0x0B, 0x10, 0x11]) ∨
      (field 22 4 ≠ 0 ∧ op ≠ 0x01)

/-- R63: a word selects a row of opcode_table.json exactly when the decoder reads that row's command from it, but for
MAGIC's indices 11 to 15, which the mask does not cover. -/
def Obligations.TableRowsSelectTheirCommands : Prop :=
  (∀ (c : BitVec 32) (r : TableRow), r ∈ opcodeTable → r.selectedBy c = true →
    (∃ i, decode (c.setWidth 64) = .legal i ∧ i.mnemonic = r.mnemonic) ∨
    (r.mnemonic ∈ ["MAGIC.W4", "MAGIC.W8"] ∧ 10 < (c.extractLsb' 22 4).toNat ∧
      decode (c.setWidth 64) = .illegal .magicIndex)) ∧
  (∀ (v : Word) (i : Instr), decode v = .legal i →
    ∃ r ∈ opcodeTable, r.mnemonic = i.mnemonic ∧ r.selectedBy (v.setWidth 32) = true)

/-- R60, R68: one word of every opcode, written out from the encoding. -/
def Obligations.WrittenOutWordsDecode : Prop :=
  decode 0x00000001 = .legal (.magicW4 0 0) ∧
  decode 0x028003C1 = .legal (.magicW8 7 10) ∧
  decode 0x00006882 = .legal (.maskW4 1 2 3) ∧
  decode 0x000066C3 = .legal (.mixW8 5 1 3) ∧
  decode 0x00000904 = .legal (.scrambleW4 2 2) ∧
  decode 0x00004405 = .legal (.red2W4 0 1 2) ∧
  decode 0x00034446 = .legal (.red3W8 0 1 2 3) ∧
  decode 0x001CBB87 = .legal (.red4W4 7 6 5 4 3) ∧
  decode 0x00004448 = .legal (.comb2W8 0 1 2) ∧
  decode 0x00034409 = .legal (.comb3W4 0 1 2 3) ∧
  decode 0x0023444A = .legal (.comb4W8 0 1 2 3 4) ∧
  decode 0x0000170B = .legal (.mczW4 6 5) ∧
  decode 0x00004410 = .legal (.hashbufW4 0 1 2) ∧
  decode 0x00000551 = .legal (.hashstrW8 2 1) ∧
  decode 0x00234412 = .legal (Instr.hash32 1 2 3 4) ∧
  decode 0x00234452 = .legal (Instr.hash64 1 2 3 4)

/-! ### The register port, and a command accepted at it -/

/-- R25, R70: a CMD write with the latch clear runs the decoded command; and so does the step after withFetchWord. -/
def Obligations.StepRunsTheDecodedCommand : Prop :=
  (∀ (s : State) (rest : List Event) (v : Word) (i : Instr),
    s.events = .regWrite 0x40 v :: rest → s.err = 0 → decode v = .legal i →
      step s = exec i { s with events := rest, reply := none, bus := [] }) ∧
  (∀ (s : State) (nbits w : Nat) (i : Instr), decodeTableWord nbits w = some i →
      step (s.withFetchWord nbits w) = exec i { s with err := 0, faddr := 0, fcmd := 0, reply := none, bus := [] })

/-- R142, R146: an illegal value raises IllegalCommand before any register or memory is read, and nothing else
changes. -/
def Obligations.IllegalValueRaisesIllegalCommand : Prop :=
  ∀ (s : State) (rest : List Event) (v : Word) (why : IllegalReason),
    s.events = .regWrite 0x40 v :: rest → s.err = 0 → decode v = .illegal why →
      step s = .next { s with events := rest, reply := none, bus := [], err := 1, fcmd := v, faddr := 0 }

/-- R147: while the latch is set a CMD write is discarded undecoded; reads of every register and writes to data
registers work as usual; a write to STATUS clears the latch. -/
def Obligations.LatchedEngineDiscardsCommands : Prop :=
  ∀ (s : State) (rest : List Event), s.err ≠ 0 →
    (∀ v, s.events = .regWrite 0x40 v :: rest →
      step s = .next { s with events := rest, reply := none, bus := [] }) ∧
    (∀ (r : Reg) v, s.events = .regWrite (8 * r.val) v :: rest →
      step s = .next { s with events := rest, reply := none, bus := [], x := s.x.set r v }) ∧
    (∀ r : Reg, s.events = .regRead (8 * r.val) :: rest →
      step s = .next { s with events := rest, bus := [], reply := some s.x[r] }) ∧
    (s.events = .regRead 0x40 :: rest → step s = .next { s with events := rest, bus := [], reply := some 0 }) ∧
    (s.events = .regRead 0x48 :: rest →
      step s = .next { s with events := rest, bus := [], reply := some (s.err.setWidth 64) }) ∧
    (s.events = .regRead 0x50 :: rest →
      step s = .next { s with events := rest, bus := [], reply := some s.faddr }) ∧
    (s.events = .regRead 0x58 :: rest →
      step s = .next { s with events := rest, bus := [], reply := some s.fcmd }) ∧
    (∀ v, s.events = .regWrite 0x48 v :: rest →
      step s = .next { s with events := rest, reply := none, bus := [], err := 0, faddr := 0, fcmd := 0 })

/-- R148: any write to STATUS sets ERR, FADDR and FCMD to 0, whatever the value and whether or not the latch was set,
and changes nothing else; the next write to CMD is decoded and executed. -/
def Obligations.StatusWriteClearsTheLatch : Prop :=
  ∀ (s : State) (rest : List Event) (v : Word), s.events = .regWrite 0x48 v :: rest →
    let t := { s with events := rest, reply := none, bus := [], err := 0, faddr := 0, fcmd := 0 }
    step s = .next t ∧
    ∀ (rest' : List Event) (u : Word), rest = .regWrite 0x40 u :: rest' →
      (∀ i, decode u = .legal i → step t = exec i { t with events := rest' }) ∧
      (∀ why, decode u = .illegal why → step t = .next { t with events := rest', err := 1, fcmd := u, faddr := 0 })

/-- R24: what a read of each slot answers; a read changes no register (R33). -/
def Obligations.PortReadsFollowTheMap : Prop :=
  ∀ (s : State) (rest : List Event) (offset : Nat), s.events = .regRead offset :: rest →
    (∀ r : Reg, offset = 8 * r.val → step s = .next { s with events := rest, bus := [], reply := some s.x[r] }) ∧
    (offset = 0x40 → step s = .next { s with events := rest, bus := [], reply := some 0 }) ∧
    (offset = 0x48 →
      step s = .next { s with events := rest, bus := [], reply := some (BitVec.ofNat 64 s.err.toNat) }) ∧
    (offset = 0x50 → step s = .next { s with events := rest, bus := [], reply := some s.faddr }) ∧
    (offset = 0x58 → step s = .next { s with events := rest, bus := [], reply := some s.fcmd })

/-- R24, R27, R28: what a write to each slot but CMD, STATUS and the reserved ones does. -/
def Obligations.PortWritesFollowTheMap : Prop :=
  ∀ (s : State) (rest : List Event) (offset : Nat) (v : Word), s.events = .regWrite offset v :: rest →
    (∀ r : Reg, offset = 8 * r.val →
      step s = .next { s with events := rest, reply := none, bus := [], x := s.x.set r v }) ∧
    (offset = 0x50 ∨ offset = 0x58 → step s = .next { s with events := rest, reply := none, bus := [] })

/-- R29: the reserved slots read 0 and ignore writes; an offset that is no slot is refused. -/
def Obligations.ReservedAndOutsideSlots : Prop :=
  ∀ (s : State) (rest : List Event) (offset : Nat) (v : Word),
    (offset ∈ [0x60, 0x68, 0x70, 0x78] →
      (s.events = .regRead offset :: rest →
        step s = .next { s with events := rest, bus := [], reply := some 0 }) ∧
      (s.events = .regWrite offset v :: rest →
        step s = .next { s with events := rest, reply := none, bus := [] })) ∧
    (offset % 8 ≠ 0 ∨ 0x78 < offset →
      s.events = .regRead offset :: rest ∨ s.events = .regWrite offset v :: rest →
        step s = .refused .outsideRegisterPort)

/-! ### Reset, and the other agents -/

/-- R32: the architected state after reset; STATUS as the port reads it is 0 in all its bits. -/
def Obligations.ResetValues : Prop :=
  (∀ r : Reg, State.reset.x[r] = 0) ∧ State.reset.err = 0 ∧ State.reset.faddr = 0 ∧ State.reset.fcmd = 0 ∧
    step { State.reset with events := [.regRead 0x48] } = .next { State.reset with reply := some 0 }

/-- R170, R32: reset brings every architected register to 0 and the latch to clear; that memory and its map keep
their contents is the model's reading (log entry 16). -/
def Obligations.ResetClearsTheEngine : Prop :=
  ∀ (s : State) (rest : List Event), s.events = .reset :: rest →
    ∃ t, step s = .next t ∧ (∀ r : Reg, t.x[r] = 0) ∧ t.err = 0 ∧ t.faddr = 0 ∧ t.fcmd = 0 ∧
      t.mem = s.mem ∧ t.map = s.map ∧ t.events = rest

/-- The model's choice (log entries 8, 21): an idle engine does nothing, and another agent's store between commands
sets that byte and nothing else. -/
def Obligations.IdleAndForeignStore : Prop :=
  (∀ s : State, s.events = [] → step s = .next s) ∧
  (∀ (s : State) (rest : List Event) (a : Word) (b : Byte),
    s.events = .store a b :: rest → s.mem.wf = true →
      ∃ t, step s = .next t ∧ t = { s with events := rest, reply := none, bus := [], mem := t.mem } ∧
        ∀ a', t.mem.byteAt a' = if a' = a.toNat then b else s.mem.byteAt a')

/-- R171: reset during a command. The registers take their reset values, no error is recorded, and each memory byte
holds its old value or the one the completed command would have written. -/
def Obligations.ResetDuringCommand : Prop :=
  ∀ (s : State) (rest : List Event) (v : Word) (i : Instr) (t : State),
    s.events = .cmdThenReset v :: rest → s.err = 0 → decode v = .legal i → s.mem.wf = true →
    exec i { s with events := rest, reply := none, bus := [] } = .next t →
      ∃ u, step s = .next u ∧ (∀ r : Reg, u.x[r] = 0) ∧ u.err = 0 ∧ u.faddr = 0 ∧ u.fcmd = 0 ∧
        u.map = s.map ∧ u.events = rest ∧
        (∀ a, u.mem.byteAt a = s.mem.byteAt a ∨ u.mem.byteAt a = t.mem.byteAt a)

/-- R178, R171: an access that is never answered leaves the command stuck, and reset recovers: the registers take their
reset values. That no byte changes but those the command's write could reach, and that the map and the pending events
stay, is the model's reading of reset (log entry 16), and the event's form is its own (log entries 8, 14). -/
def Obligations.ResetRecoversFromAnUnansweredAccess : Prop :=
  ∀ (s : State) (rest : List Event) (v : Word) (i : Instr),
    s.events = .cmdThenReset v :: rest → s.err = 0 → decode v = .legal i → s.mem.wf = true →
    exec i { s with events := rest, reply := none, bus := [] } = .fault .memoryNeverAnswers →
      ∃ u, step s = .next u ∧ (∀ r : Reg, u.x[r] = 0) ∧ u.err = 0 ∧ u.faddr = 0 ∧ u.fcmd = 0 ∧
        u.map = s.map ∧ u.events = rest ∧ ∀ a, ¬ storesTo i s a → u.mem.byteAt a = s.mem.byteAt a

/-- R51, R45: while other agents write, the command sees each byte at its old value or at one that was written to it;
afterwards every byte the command does not write holds what the agents' stores leave there (log entry 13). -/
def Obligations.RacedCommandSeesOldOrNewBytes : Prop :=
  ∀ (s : State) (rest : List Event) (v : Word) (i : Instr) (stores : List (Word × Byte)),
    s.events = .cmdWithStores v stores :: rest → s.err = 0 → decode v = .legal i → s.mem.wf = true →
      ∃ seen : Memory,
        (∀ a, seen.byteAt a = s.mem.byteAt a ∨ ∃ w b, (w, b) ∈ stores ∧ w.toNat = a ∧ seen.byteAt a = b) ∧
        ∀ t, exec i { s with events := rest, reply := none, bus := [], mem := seen,
                             draws := s.draws + 2 * stores.length } = .next t →
          ∃ u, step s = .next u ∧ u = { t with mem := u.mem } ∧
            (∀ a, ¬ storesTo i s a →
              u.mem.byteAt a = (stores.foldl (fun m c => m.set c.1.toNat c.2) s.mem).byteAt a) ∧
            (∀ a, (∀ w b, (w, b) ∈ stores → w.toNat ≠ a) → u.mem.byteAt a = t.mem.byteAt a)

/-! ### The datapath -/

/-- R82: masking keeps the low k bytes, for every count in [1, W]. -/
def Obligations.MaskingKeepsTheLowBytes : Prop :=
  ∀ (W : Width) (v : BitVec W.bits) (k : Nat), 1 ≤ k → k ≤ W.bytes →
    (k = W.bytes → maskTo W v k = v) ∧ (maskTo W v k).toNat = v.toNat % 2 ^ (8 * k)

/-- R83: the exact product, high half XOR low half; symmetric, and 0 and 1 act as R92's corner cases say. -/
def Obligations.MixFoldsTheExactProduct : Prop :=
  ∀ (W : Width) (v c : BitVec W.bits),
    (mix v c).toNat = (v.toNat * c.toNat / 2 ^ W.bits) ^^^ (v.toNat * c.toNat % 2 ^ W.bits) ∧
    mix v c = mix c v ∧ mix v 0 = 0 ∧ mix v 1 = v

/-- R89: the detector's answer is exact at word level: neither false negatives nor false positives. -/
def Obligations.DetectorIsExact : Prop :=
  ∀ (W : Width) (w : BitVec W.bits), mcz W w = true ↔ firstZero W w ≠ none

/-- R88: the scan reports the least offset whose byte is zero, and none exactly when no byte is. -/
def Obligations.FirstZeroIsTheLeast : Prop :=
  ∀ (W : Width) (w : BitVec W.bits),
    (∀ i, firstZero W w = some i ↔
      i < W.bytes ∧ w.toNat / 2 ^ (8 * i) % 256 = 0 ∧ ∀ j < i, w.toNat / 2 ^ (8 * j) % 256 ≠ 0) ∧
    (firstZero W w = none ↔ ∀ i < W.bytes, w.toNat / 2 ^ (8 * i) % 256 ≠ 0)

/-- R114: the long path alone gives what `consume` gives, accesses included, for n >= 1; for n = 0 they agree when
the accumulator is 0. -/
def Obligations.ConsumePathsAgree : Prop :=
  ∀ (cfg : Config) (W : Width) (s : State) (acc : BitVec W.bits) (ptr n : Nat), (n = 0 → acc = 0) →
    consume cfg W s acc ptr n =
      (foldWords cfg W s (n / W.bytes) ptr acc).andThen fun acc' =>
        foldTail cfg W s (ptr + n / W.bytes * W.bytes) (n % W.bytes) acc'

/-! ### Memory -/

/-- R42, R41: a granted read returns the bytes at addr, addr + 1, ... as a little-endian number, by one access of
exactly those bytes; a failing one raises BusError at the start address and returns nothing. -/
def Obligations.MemReadIsLittleEndian : Prop :=
  ∀ (s : State) (a n : Nat), 1 ≤ n → n ≤ 8 →
    (Readable s a n → ∃ v, memRead s a n = ⟨[⟨.read, a, n⟩], .ok v⟩ ∧
      ∀ j < n, v.extractLsb' (8 * j) 8 = s.mem.byteAt (a + j)) ∧
    (ReadFails s a n → memRead s a n = ⟨presented .read a n, .error (.raise .busError (BitVec.ofNat 64 a))⟩)

/-- R43: a granted write sets the n bytes to the value's bytes, least significant first, and no other byte; a failing
one raises BusError at the start address and answers no memory. -/
def Obligations.MemWriteSetsExactlyItsBytes : Prop :=
  ∀ (s : State) (a n : Nat) (v : BitVec (8 * n)), n = 4 ∨ n = 8 → s.mem.wf = true →
    (Writable s a n → ∃ m, memWrite s a n v = ⟨[⟨.write, a, n⟩], .ok m⟩ ∧ m.wf = true ∧
      (∀ j < n, m.byteAt (a + j) = v.extractLsb' (8 * j) 8) ∧
      ∀ a', a' < a ∨ a + n ≤ a' → m.byteAt a' = s.mem.byteAt a') ∧
    (WriteFails s a n → memWrite s a n v =
      ⟨presented .write a n, .error (.raise .busError (BitVec.ofNat 64 a))⟩)

/-! ### The primitive commands -/

/-- R90, R81: MAGIC writes the entry of its index, zero-extended; an index above 10 is illegal. -/
def Obligations.MagicWritesItsConstant : Prop :=
  ∀ (s : State) (rd : Reg),
    (∀ k : Fin 10, exec (.magicW4 rd (BitVec.ofNat 4 k)) s =
      .next { s with x := s.x.set rd (BitVec.ofNat 64 Config.hw.magic4[k].toNat) }) ∧
    (∀ k : Fin 10, exec (.magicW8 rd (BitVec.ofNat 4 k)) s = .next { s with x := s.x.set rd Config.hw.magic8[k] }) ∧
    exec (.magicW4 rd 10) s = .next { s with x := s.x.set rd (BitVec.ofNat 64 Config.hw.golden4.toNat) } ∧
    exec (.magicW8 rd 10) s = .next { s with x := s.x.set rd Config.hw.golden8 } ∧
    ∀ (W : Width) (idx : BitVec 4), 10 < idx.toNat → s.err = 0 → exec (magicAt W rd idx) s =
      .next { s with err := 1, fcmd := cmdValue (magicAt W rd idx), faddr := 0 }

/-- R91: MASK keeps the low k bytes of the W-wide view for a count in [1, W], and raises RangeError otherwise; the
count is all 64 bits of its register. -/
def Obligations.MaskWritesOrRaises : Prop :=
  ∀ (W : Width) (s : State) (rd rs1 rs2 : Reg),
    let k := (s.x[rs2]).toNat
    (1 ≤ k ∧ k ≤ W.bytes → exec (maskAt W rd rs1 rs2) s =
      .next { s with x := s.x.set rd (BitVec.ofNat 64 ((s.x[rs1]).toNat % 2 ^ (8 * k))) }) ∧
    (k = 0 ∨ W.bytes < k → s.err = 0 → exec (maskAt W rd rs1 rs2) s =
      .next { s with err := 2, fcmd := cmdValue (maskAt W rd rs1 rs2), faddr := 0 })

/-- R92, R34: MIX writes the folded exact product of the two W-wide views, in every state. -/
def Obligations.MixWritesTheFoldedProduct : Prop :=
  ∀ (W : Width) (s : State) (rd rs1 rs2 : Reg),
    exec (mixAt W rd rs1 rs2) s = .next { s with x := s.x.set rd (BitVec.ofNat 64
      (foldedProduct W.bits ((s.x[rs1]).toNat % 2 ^ W.bits) ((s.x[rs2]).toNat % 2 ^ W.bits))) }

/-- R93: SCRAMBLE is the folded product with Magic1. -/
def Obligations.ScrambleWritesTheMixWithMagic1 : Prop :=
  ∀ (W : Width) (s : State) (rd rs1 : Reg),
    exec (scrambleAt W rd rs1) s = .next { s with x := s.x.set rd (BitVec.ofNat 64
      (foldedProduct W.bits ((s.x[rs1]).toNat % 2 ^ W.bits) (Config.hw.magicEntry W 0).toNat)) }

/-- R94, R95, R96: the XOR of two, three or four W-wide views, zero-extended. -/
def Obligations.ReduceWritesTheXor : Prop :=
  ∀ (W : Width) (s : State) (rd a b c d : Reg),
    exec (red2At W rd a b) s = .next { s with x := s.x.set rd (BitVec.ofNat 64
      (((s.x[a]).toNat ^^^ (s.x[b]).toNat) % 2 ^ W.bits)) } ∧
    exec (red3At W rd a b c) s = .next { s with x := s.x.set rd (BitVec.ofNat 64
      (((s.x[a]).toNat ^^^ (s.x[b]).toNat ^^^ (s.x[c]).toNat) % 2 ^ W.bits)) } ∧
    exec (red4At W rd a b c d) s = .next { s with x := s.x.set rd (BitVec.ofNat 64
      (((s.x[a]).toNat ^^^ (s.x[b]).toNat ^^^ (s.x[c]).toNat ^^^ (s.x[d]).toNat) % 2 ^ W.bits)) }

/-- R97, R98, R99, R85: the combines: each operand's folded product with its own slot's constant, XORed; the operands
go with the slots in order. -/
def Obligations.CombineWritesTheXorOfMixes : Prop :=
  ∀ (W : Width) (s : State) (rd a b c d : Reg),
    let part := fun (r : Reg) (slot : Fin 10) =>
      foldedProduct W.bits ((s.x[r]).toNat % 2 ^ W.bits) (Config.hw.magicEntry W slot).toNat
    exec (comb2At W rd a b) s = .next { s with x := s.x.set rd (BitVec.ofNat 64 (part a 1 ^^^ part b 2)) } ∧
    exec (comb3At W rd a b c) s =
      .next { s with x := s.x.set rd (BitVec.ofNat 64 (part a 3 ^^^ part b 4 ^^^ part c 5)) } ∧
    exec (comb4At W rd a b c d) s =
      .next { s with x := s.x.set rd (BitVec.ofNat 64 (part a 6 ^^^ part b 7 ^^^ part c 8 ^^^ part d 9)) }

/-- R100, R89: MCZ writes 1 when some byte of the W-wide view is zero and 0 otherwise. -/
def Obligations.MczWritesWhetherAByteIsZero : Prop :=
  ∀ (W : Width) (s : State) (rd rs1 : Reg),
    ((∃ j < W.bytes, (s.x[rs1]).toNat / 2 ^ (8 * j) % 256 = 0) →
      exec (mczAt W rd rs1) s = .next { s with x := s.x.set rd 1 }) ∧
    ((∀ j < W.bytes, (s.x[rs1]).toNat / 2 ^ (8 * j) % 256 ≠ 0) →
      exec (mczAt W rd rs1) s = .next { s with x := s.x.set rd 0 })

/-- R102: every primitive command ends in a next state, makes no memory access, and writes no state but its
destination register, or, on an error, the latch and its records alone; RangeError is raised by MASK alone, and
IllegalCommand only for a term that has no encoding. -/
def Obligations.PrimitiveFrame : Prop :=
  ∀ (i : Instr) (s : State), isDriver i = false → s.err = 0 →
    ∃ t, exec i s = .next t ∧
      t.mem = s.mem ∧ t.map = s.map ∧ t.events = s.events ∧ t.reply = s.reply ∧ t.bus = s.bus ∧ t.draws = s.draws ∧
      ((t.err = 0 ∧ t.faddr = s.faddr ∧ t.fcmd = s.fcmd ∧
          ∀ r : Reg, destination i ≠ some r → t.x[r] = s.x[r]) ∨
        (((t.err = 1 ∧ i.wellFormed = false) ∨ (t.err = 2 ∧ ∃ W rd rs1 rs2, i = maskAt W rd rs1 rs2)) ∧
          t.faddr = 0 ∧ t.fcmd = cmdValue i ∧ t.x = s.x))

/-! ### The driver commands -/

/-- R111, R110, R116: HASHBUF of a readable buffer writes the fold of its words, from the size as accumulator, by
exactly the accesses of the buffer; nothing else changes. -/
def Obligations.HashbufWritesTheFoldOfItsBuffer : Prop :=
  ∀ (W : Width) (s : State) (rd rs1 rs2 : Reg),
    let ptr := (s.x[rs1]).toNat
    let size := (s.x[rs2]).toNat
    (W = .w4 → size < 2 ^ 32) → Readable s ptr size →
      exec (hashbufAt W rd rs1 rs2) s = .next { s with
        x := s.x.set rd ((bufferFold Config.hw W s ptr size (BitVec.ofNat W.bits size)).setWidth 64),
        bus := s.bus ++ bufferAccesses W ptr size }

/-- R112, R116: HASHSTR of a terminated string whose words are readable writes the string's digest, which no byte
after the terminator reaches, by exactly the accesses of the words up to the terminator's. -/
def Obligations.HashstrWritesTheDigestOfItsString : Prop :=
  ∀ (W : Width) (s : State) (rd rs1 : Reg) (L : Nat),
    let ptr := (s.x[rs1]).toNat
    StringAt s ptr L → Readable s ptr (W.bytes * (L / W.bytes + 1)) →
      exec (hashstrAt W rd rs1) s = .next { s with
        x := s.x.set rd ((stringFold Config.hw W s ptr L).setWidth 64),
        bus := s.bus ++ stringAccesses W ptr L }

/-- R113: a length <= 0 writes the zero-extended seed, W bytes, reads nothing, and changes nothing else. -/
def Obligations.HashseedWritesTheSeed : Prop :=
  ∀ (W : Width) (s : State) (rs1 rs2 rs3 rs4 : Reg),
    let out := (s.x[rs4]).toNat
    (s.x[rs2]).toInt ≤ 0 → Writable s out W.bytes → s.mem.wf = true →
      ∃ t, exec (hashseedAt W rs1 rs2 rs3 rs4) s = .next t ∧
        t = { s with mem := t.mem, bus := s.bus ++ [⟨.write, out, W.bytes⟩] } ∧
        (∀ j < W.bytes, (t.mem.byteAt (out + j)).toNat = (s.x[rs3]).toNat % 2 ^ 32 / 2 ^ (8 * j) % 256) ∧
        ∀ a, a < out ∨ out + W.bytes ≤ a → t.mem.byteAt a = s.mem.byteAt a

/-- R113: a positive length writes the digest of the key, from GOLDEN with the length and then the seed folded in, by
the accesses of the key and then one write; no register and no other byte changes. -/
def Obligations.HashseedWritesTheSeededDigest : Prop :=
  ∀ (W : Width) (s : State) (rs1 rs2 rs3 rs4 : Reg) (len : Nat),
    let key := (s.x[rs1]).toNat
    let out := (s.x[rs4]).toNat
    let acc := combine2 Config.hw W (combine2 Config.hw W (Config.hw.golden W) (BitVec.ofNat W.bits len))
      (BitVec.ofNat W.bits ((s.x[rs3]).toNat % 2 ^ 32))
    let digest := bufferFold Config.hw W s key len acc
    (s.x[rs2]).toInt = len → 0 < len → (W = .w4 → len < 2 ^ 32) →
    Readable s key len → Writable s out W.bytes → s.mem.wf = true →
      ∃ t, exec (hashseedAt W rs1 rs2 rs3 rs4) s = .next t ∧
        t = { s with mem := t.mem, bus := s.bus ++ bufferAccesses W key len ++ [⟨.write, out, W.bytes⟩] } ∧
        (∀ j < W.bytes, t.mem.byteAt (out + j) = digest.extractLsb' (8 * j) 8) ∧
        ∀ a, a < out ∨ out + W.bytes ≤ a → t.mem.byteAt a = s.mem.byteAt a

/-- R115: two digests are 0 in every configuration, whatever memory holds besides: HASHBUF of size 0, which touches no
memory at all, and HASHSTR of the empty string. -/
def Obligations.EmptyDigestsAreZero : Prop :=
  ∀ (W : Width) (s : State) (rd rs1 rs2 : Reg),
    ((s.x[rs2]).toNat = 0 → exec (hashbufAt W rd rs1 rs2) s = .next { s with x := s.x.set rd 0 }) ∧
    (s.mem.byteAt (s.x[rs1]).toNat = 0 → Readable s (s.x[rs1]).toNat W.bytes →
      exec (hashstrAt W rd rs1) s = .next { s with
        x := s.x.set rd 0, bus := s.bus ++ [⟨.read, (s.x[rs1]).toNat, W.bytes⟩] })

/-- The driver commands' frame (R111, R112, R113, R116): HASHBUF and HASHSTR write no register but `rd` and no memory
byte; HASHSEED writes no register, and no byte outside the W bytes at its output address. -/
def Obligations.DriverFrame : Prop :=
  ∀ (i : Instr) (s t : State), isDriver i = true → s.err = 0 → s.mem.wf = true → exec i s = .next t →
    (∀ r : Reg, destination i ≠ some r → t.x[r] = s.x[r]) ∧
    (∀ a, ¬ storesTo i s a → t.mem.byteAt a = s.mem.byteAt a) ∧
    t.map = s.map ∧ t.events = s.events ∧ t.reply = s.reply ∧ t.draws = s.draws ∧
    (t.err = 0 → t.faddr = s.faddr ∧ t.fcmd = s.fcmd)

/-- R116, R47: HASHBUF's outcome depends on no byte of memory, and on no part of the map, outside its buffer. -/
def Obligations.HashbufReadsOnlyItsBuffer : Prop :=
  ∀ (W : Width) (s : State) (rd rs1 rs2 : Reg) (m : Memory) (map : List Region),
    (∀ j < (s.x[rs2]).toNat, AgreeAt s m map ((s.x[rs1]).toNat + j)) →
      exec (hashbufAt W rd rs1 rs2) (onMemory m map s) =
        mapNext (onMemory m map) (exec (hashbufAt W rd rs1 rs2) s)

/-- R112, R116: HASHSTR's outcome depends on the bytes up to the terminator, and on the map up to the end of its word,
and on nothing else. -/
def Obligations.HashstrIgnoresBytesAfterTheTerminator : Prop :=
  ∀ (W : Width) (s : State) (rd rs1 : Reg) (L : Nat) (m : Memory) (map : List Region),
    StringAt s (s.x[rs1]).toNat L →
    (∀ j ≤ L, m.byteAt ((s.x[rs1]).toNat + j) = s.mem.byteAt ((s.x[rs1]).toNat + j)) →
    (∀ j < W.bytes * (L / W.bytes + 1), regionAt map ((s.x[rs1]).toNat + j) = regionAt s.map ((s.x[rs1]).toNat + j)) →
      exec (hashstrAt W rd rs1) (onMemory m map s) =
        mapNext (onMemory m map) (exec (hashstrAt W rd rs1) s)

/-! ### Errors -/

/-- R143: RangeError in exactly three cases, before any memory access. -/
def Obligations.RangeErrorExactly : Prop :=
  ∀ (i : Instr) (s : State), s.err = 0 →
    (outOfRange i s → exec i s = .next { s with err := 2, fcmd := cmdValue i, faddr := 0 }) ∧
    (∀ t, exec i s = .next t → t.err = 2 → outOfRange i s)

/-- R144, R46: HASHBUF's first failing access ends it with BusError at that access's start address modulo 2^64; the
accesses before it were made and none after it. -/
def Obligations.HashbufBusError : Prop :=
  ∀ (W : Width) (s : State) (rd rs1 rs2 : Reg) (j : Nat),
    let ptr := (s.x[rs1]).toNat
    let size := (s.x[rs2]).toNat
    s.err = 0 → (W = .w4 → size < 2 ^ 32) → j < accessCount W size →
    (∀ k < j, Readable s (chunkAddr W ptr k) (chunkSize W size k)) →
    ReadFails s (chunkAddr W ptr j) (chunkSize W size j) →
      exec (hashbufAt W rd rs1 rs2) s = .next { s with
        err := 3, fcmd := cmdValue (hashbufAt W rd rs1 rs2), faddr := BitVec.ofNat 64 (chunkAddr W ptr j),
        bus := s.bus ++ (bufferAccesses W ptr size).take j ++
          presented .read (chunkAddr W ptr j) (chunkSize W size j) }

/-- R144, R117: HASHSTR reads on while no byte is zero, and the first failing word ends it with BusError. -/
def Obligations.HashstrBusError : Prop :=
  ∀ (W : Width) (s : State) (rd rs1 : Reg) (j : Nat),
    let ptr := (s.x[rs1]).toNat
    s.err = 0 → Readable s ptr (j * W.bytes) → (∀ t < j * W.bytes, s.mem.byteAt (ptr + t) ≠ 0) →
    ReadFails s (chunkAddr W ptr j) W.bytes →
      exec (hashstrAt W rd rs1) s = .next { s with
        err := 3, fcmd := cmdValue (hashstrAt W rd rs1), faddr := BitVec.ofNat 64 (chunkAddr W ptr j),
        bus := s.bus ++ (List.range j).map (fun k => ⟨.read, chunkAddr W ptr k, W.bytes⟩) ++
          presented .read (chunkAddr W ptr j) W.bytes }

/-- R144, R145: HASHSEED reports the first failing read of the key, and the write of the output only when every read
succeeded; the output is not written. -/
def Obligations.HashseedBusError : Prop :=
  ∀ (W : Width) (s : State) (rs1 rs2 rs3 rs4 : Reg) (len : Nat),
    let key := (s.x[rs1]).toNat
    let out := (s.x[rs4]).toNat
    let cmd := cmdValue (hashseedAt W rs1 rs2 rs3 rs4)
    s.err = 0 →
    ((s.x[rs2]).toInt ≤ 0 → WriteFails s out W.bytes → exec (hashseedAt W rs1 rs2 rs3 rs4) s =
      .next { s with err := 3, fcmd := cmd, faddr := BitVec.ofNat 64 out,
                     bus := s.bus ++ presented .write out W.bytes }) ∧
    ((s.x[rs2]).toInt = len → 0 < len → (W = .w4 → len < 2 ^ 32) →
      (∀ j < accessCount W len, (∀ k < j, Readable s (chunkAddr W key k) (chunkSize W len k)) →
        ReadFails s (chunkAddr W key j) (chunkSize W len j) → exec (hashseedAt W rs1 rs2 rs3 rs4) s =
          .next { s with err := 3, fcmd := cmd, faddr := BitVec.ofNat 64 (chunkAddr W key j),
                         bus := s.bus ++ (bufferAccesses W key len).take j ++
                           presented .read (chunkAddr W key j) (chunkSize W len j) }) ∧
      (Readable s key len → WriteFails s out W.bytes → exec (hashseedAt W rs1 rs2 rs3 rs4) s =
          .next { s with err := 3, fcmd := cmd, faddr := BitVec.ofNat 64 out,
                         bus := s.bus ++ bufferAccesses W key len ++ presented .write out W.bytes }))

/-- R140, R146: a command ends in exactly one of two ways: it completes, leaving the latch clear and its records
alone, or it raises one error, writing the latch and its records and no register and no memory byte. -/
def Obligations.CommandCompletesOrRaisesOneError : Prop :=
  ∀ (i : Instr) (s t : State), s.err = 0 → exec i s = .next t →
    t.map = s.map ∧ t.events = s.events ∧ t.reply = s.reply ∧ t.draws = s.draws ∧
    ((t.err = 0 ∧ t.faddr = s.faddr ∧ t.fcmd = s.fcmd) ∨
      ((t.err = 1 ∨ t.err = 2 ∨ t.err = 3) ∧ t.fcmd = cmdValue i ∧ (t.err ≠ 3 → t.faddr = 0) ∧
        t.x = s.x ∧ t.mem = s.mem))

/-- R40, R45, R178: an access that touches a device or the engine's own registers is refused, and one that is never
answered leaves the machine stuck, in each driver, when every access before it was granted; the order among several
windows is the model's own (log entry 6). -/
def Obligations.WindowsThatAreNoMemoryStopTheDriver : Prop :=
  ∀ (W : Width) (s : State) (rd rs1 rs2 rs3 rs4 : Reg) (o : Host.Outcome State Fault Refusal),
    let ptr := (s.x[rs1]).toNat
    let size := (s.x[rs2]).toNat
    let out := (s.x[rs4]).toNat
    (∀ j, (W = .w4 → size < 2 ^ 32) → j < accessCount W size →
      (∀ k < j, Readable s (chunkAddr W ptr k) (chunkSize W size k)) →
      StopsWith s (chunkAddr W ptr j) (chunkSize W size j) o → exec (hashbufAt W rd rs1 rs2) s = o) ∧
    (∀ j, Readable s ptr (j * W.bytes) → (∀ t < j * W.bytes, s.mem.byteAt (ptr + t) ≠ 0) →
      StopsWith s (chunkAddr W ptr j) W.bytes o → exec (hashstrAt W rd rs1) s = o) ∧
    (∀ (len j : Nat), (s.x[rs2]).toInt = len → (W = .w4 → len < 2 ^ 32) → j < accessCount W len →
      (∀ k < j, Readable s (chunkAddr W ptr k) (chunkSize W len k)) →
      StopsWith s (chunkAddr W ptr j) (chunkSize W len j) o → exec (hashseedAt W rs1 rs2 rs3 rs4) s = o) ∧
    (∀ len : Nat, (s.x[rs2]).toInt = len → (W = .w4 → len < 2 ^ 32) → Readable s ptr len →
      StopsWith s out W.bytes o → exec (hashseedAt W rs1 rs2 rs3 rs4) s = o) ∧
    ((s.x[rs2]).toInt ≤ 0 → StopsWith s out W.bytes o → exec (hashseedAt W rs1 rs2 rs3 rs4) s = o)

/-! ### The whole machine -/

/-- The invariant holds after reset. -/
def Obligations.ResetMeetsTheInvariant : Prop := State.reset.Inv

/-- R26, R27, R28, R141: from every state that meets it, every step keeps memory canonical and the latch consistent
with its records. -/
def Obligations.EveryStepKeepsTheInvariant : Prop :=
  ∀ s t : State, s.Inv → step s = .next t → t.Inv

/-- R46, P4: the readable and writable sets are given at launch: no step changes the map. -/
def Obligations.NoStepChangesTheMap : Prop :=
  ∀ s t : State, step s = .next t → t.map = s.map

/-- R170, R147: the latch is cleared by a write to STATUS and by reset and by nothing else. -/
def Obligations.OnlyStatusWriteAndResetClearTheLatch : Prop :=
  ∀ s t : State, s.err ≠ 0 → step s = .next t → t.err = 0 →
    ∃ rest, (∃ v, s.events = .regWrite 0x48 v :: rest) ∨ s.events = .reset :: rest ∨
      ∃ v, s.events = .cmdThenReset v :: rest

/-- R27, R28: FADDR and FCMD change only when the latch goes from clear to set, on a write to STATUS, and at reset. -/
def Obligations.LatchRecordsChangeOnlyThere : Prop :=
  ∀ s t : State, step s = .next t → (t.faddr ≠ s.faddr ∨ t.fcmd ≠ s.fcmd) →
    (s.err = 0 ∧ t.err ≠ 0) ∨
    ∃ rest, (∃ v, s.events = .regWrite 0x48 v :: rest) ∨ s.events = .reset :: rest ∨
      ∃ v, s.events = .cmdThenReset v :: rest

/-- R43, R116: at the register port, only a HASHSEED command changes memory, and only at its output location. -/
def Obligations.OnlyHashseedWritesMemory : Prop :=
  ∀ (s t : State) (rest : List Event) (offset : Nat) (v : Word), s.mem.wf = true →
    s.events = .regWrite offset v :: rest ∨ s.events = .regRead offset :: rest → step s = .next t →
      ∀ a, t.mem.byteAt a ≠ s.mem.byteAt a →
        ∃ W rs1 rs2 rs3 rs4, s.events = .regWrite 0x40 v :: rest ∧ s.err = 0 ∧
          decode v = .legal (hashseedAt W rs1 rs2 rs3 rs4) ∧ storesTo (hashseedAt W rs1 rs2 rs3 rs4) s a
end

