-- ==== Sys2Proof/Laws/State.lean ====
section
/-! SUPPORT. One lemma per field per update of State, true by rfl, so that no later proof unfolds a record update. -/

namespace Sys2Proof.Machine

@[simp] theorem setX_x (s : State) (r : Reg) (v : Word) : (s.setX r v).x = s.x.set r v := rfl
@[simp] theorem setX_err (s : State) (r : Reg) (v : Word) : (s.setX r v).err = s.err := rfl
@[simp] theorem setX_faddr (s : State) (r : Reg) (v : Word) : (s.setX r v).faddr = s.faddr := rfl
@[simp] theorem setX_fcmd (s : State) (r : Reg) (v : Word) : (s.setX r v).fcmd = s.fcmd := rfl
@[simp] theorem setX_mem (s : State) (r : Reg) (v : Word) : (s.setX r v).mem = s.mem := rfl
@[simp] theorem setX_map (s : State) (r : Reg) (v : Word) : (s.setX r v).map = s.map := rfl
@[simp] theorem setX_events (s : State) (r : Reg) (v : Word) : (s.setX r v).events = s.events := rfl
@[simp] theorem setX_reply (s : State) (r : Reg) (v : Word) : (s.setX r v).reply = s.reply := rfl
@[simp] theorem setX_bus (s : State) (r : Reg) (v : Word) : (s.setX r v).bus = s.bus := rfl
@[simp] theorem setX_draws (s : State) (r : Reg) (v : Word) : (s.setX r v).draws = s.draws := rfl

@[simp] theorem takeError_x (s : State) (e : ErrorKind) (cmd faddr : Word) : (s.takeError e cmd faddr).x = s.x := rfl
@[simp] theorem takeError_err (s : State) (e : ErrorKind) (cmd faddr : Word) : (s.takeError e cmd faddr).err = e.code := rfl
@[simp] theorem takeError_faddr (s : State) (e : ErrorKind) (cmd faddr : Word) : (s.takeError e cmd faddr).faddr = faddr := rfl
@[simp] theorem takeError_fcmd (s : State) (e : ErrorKind) (cmd faddr : Word) : (s.takeError e cmd faddr).fcmd = cmd := rfl
@[simp] theorem takeError_mem (s : State) (e : ErrorKind) (cmd faddr : Word) : (s.takeError e cmd faddr).mem = s.mem := rfl
@[simp] theorem takeError_map (s : State) (e : ErrorKind) (cmd faddr : Word) : (s.takeError e cmd faddr).map = s.map := rfl
@[simp] theorem takeError_events (s : State) (e : ErrorKind) (cmd faddr : Word) : (s.takeError e cmd faddr).events = s.events := rfl
@[simp] theorem takeError_reply (s : State) (e : ErrorKind) (cmd faddr : Word) : (s.takeError e cmd faddr).reply = s.reply := rfl
@[simp] theorem takeError_bus (s : State) (e : ErrorKind) (cmd faddr : Word) : (s.takeError e cmd faddr).bus = s.bus := rfl
@[simp] theorem takeError_draws (s : State) (e : ErrorKind) (cmd faddr : Word) : (s.takeError e cmd faddr).draws = s.draws := rfl

@[simp] theorem clearLatch_x (s : State) : (s.clearLatch).x = s.x := rfl
@[simp] theorem clearLatch_err (s : State) : (s.clearLatch).err = 0 := rfl
@[simp] theorem clearLatch_faddr (s : State) : (s.clearLatch).faddr = 0 := rfl
@[simp] theorem clearLatch_fcmd (s : State) : (s.clearLatch).fcmd = 0 := rfl
@[simp] theorem clearLatch_mem (s : State) : (s.clearLatch).mem = s.mem := rfl
@[simp] theorem clearLatch_map (s : State) : (s.clearLatch).map = s.map := rfl
@[simp] theorem clearLatch_events (s : State) : (s.clearLatch).events = s.events := rfl
@[simp] theorem clearLatch_reply (s : State) : (s.clearLatch).reply = s.reply := rfl
@[simp] theorem clearLatch_bus (s : State) : (s.clearLatch).bus = s.bus := rfl
@[simp] theorem clearLatch_draws (s : State) : (s.clearLatch).draws = s.draws := rfl

@[simp] theorem resetEngine_x (s : State) : (s.resetEngine).x = Vector.replicate 8 0 := rfl
@[simp] theorem resetEngine_err (s : State) : (s.resetEngine).err = 0 := rfl
@[simp] theorem resetEngine_faddr (s : State) : (s.resetEngine).faddr = 0 := rfl
@[simp] theorem resetEngine_fcmd (s : State) : (s.resetEngine).fcmd = 0 := rfl
@[simp] theorem resetEngine_mem (s : State) : (s.resetEngine).mem = s.mem := rfl
@[simp] theorem resetEngine_map (s : State) : (s.resetEngine).map = s.map := rfl
@[simp] theorem resetEngine_events (s : State) : (s.resetEngine).events = s.events := rfl
@[simp] theorem resetEngine_reply (s : State) : (s.resetEngine).reply = s.reply := rfl
@[simp] theorem resetEngine_bus (s : State) : (s.resetEngine).bus = s.bus := rfl
@[simp] theorem resetEngine_draws (s : State) : (s.resetEngine).draws = s.draws := rfl

@[simp] theorem accepting_x (s : State) (rest : List Event) : (s.accepting rest).x = s.x := rfl
@[simp] theorem accepting_err (s : State) (rest : List Event) : (s.accepting rest).err = s.err := rfl
@[simp] theorem accepting_faddr (s : State) (rest : List Event) : (s.accepting rest).faddr = s.faddr := rfl
@[simp] theorem accepting_fcmd (s : State) (rest : List Event) : (s.accepting rest).fcmd = s.fcmd := rfl
@[simp] theorem accepting_mem (s : State) (rest : List Event) : (s.accepting rest).mem = s.mem := rfl
@[simp] theorem accepting_map (s : State) (rest : List Event) : (s.accepting rest).map = s.map := rfl
@[simp] theorem accepting_events (s : State) (rest : List Event) : (s.accepting rest).events = rest := rfl
@[simp] theorem accepting_reply (s : State) (rest : List Event) : (s.accepting rest).reply = none := rfl
@[simp] theorem accepting_bus (s : State) (rest : List Event) : (s.accepting rest).bus = [] := rfl
@[simp] theorem accepting_draws (s : State) (rest : List Event) : (s.accepting rest).draws = s.draws := rfl

@[simp] theorem raced_x (s : State) (l : List (Word × Byte)) : (s.raced l).x = s.x := rfl
@[simp] theorem raced_err (s : State) (l : List (Word × Byte)) : (s.raced l).err = s.err := rfl
@[simp] theorem raced_faddr (s : State) (l : List (Word × Byte)) : (s.raced l).faddr = s.faddr := rfl
@[simp] theorem raced_fcmd (s : State) (l : List (Word × Byte)) : (s.raced l).fcmd = s.fcmd := rfl
@[simp] theorem raced_map (s : State) (l : List (Word × Byte)) : (s.raced l).map = s.map := rfl
@[simp] theorem raced_events (s : State) (l : List (Word × Byte)) : (s.raced l).events = s.events := rfl
@[simp] theorem raced_reply (s : State) (l : List (Word × Byte)) : (s.raced l).reply = s.reply := rfl
@[simp] theorem raced_bus (s : State) (l : List (Word × Byte)) : (s.raced l).bus = s.bus := rfl
@[simp] theorem raced_mem (s : State) (l : List (Word × Byte)) : (s.raced l).mem = racedView s.draws l s.mem := rfl
@[simp] theorem raced_draws (s : State) (l : List (Word × Byte)) : (s.raced l).draws = s.draws + 2 * l.length := rfl

@[simp] theorem writeResult_x (W : Width) (rd : Reg) (v : BitVec W.bits) (s : State) : (writeResult W rd v s).x = s.x.set rd (v.setWidth 64) := rfl
@[simp] theorem writeResult_err (W : Width) (rd : Reg) (v : BitVec W.bits) (s : State) : (writeResult W rd v s).err = s.err := rfl
@[simp] theorem writeResult_faddr (W : Width) (rd : Reg) (v : BitVec W.bits) (s : State) : (writeResult W rd v s).faddr = s.faddr := rfl
@[simp] theorem writeResult_fcmd (W : Width) (rd : Reg) (v : BitVec W.bits) (s : State) : (writeResult W rd v s).fcmd = s.fcmd := rfl
@[simp] theorem writeResult_mem (W : Width) (rd : Reg) (v : BitVec W.bits) (s : State) : (writeResult W rd v s).mem = s.mem := rfl
@[simp] theorem writeResult_map (W : Width) (rd : Reg) (v : BitVec W.bits) (s : State) : (writeResult W rd v s).map = s.map := rfl
@[simp] theorem writeResult_events (W : Width) (rd : Reg) (v : BitVec W.bits) (s : State) : (writeResult W rd v s).events = s.events := rfl
@[simp] theorem writeResult_reply (W : Width) (rd : Reg) (v : BitVec W.bits) (s : State) : (writeResult W rd v s).reply = s.reply := rfl
@[simp] theorem writeResult_bus (W : Width) (rd : Reg) (v : BitVec W.bits) (s : State) : (writeResult W rd v s).bus = s.bus := rfl
@[simp] theorem writeResult_draws (W : Width) (rd : Reg) (v : BitVec W.bits) (s : State) : (writeResult W rd v s).draws = s.draws := rfl

theorem writeResult_eq_setX (W : Width) (rd : Reg) (v : BitVec W.bits) (s : State) :
    writeResult W rd v s = s.setX rd (v.setWidth 64) := rfl

/-- A register reads back what was written to it (R21). -/
@[simp] theorem getX_setX_same (s : State) (r : Reg) (v : Word) : (s.setX r v).getX r = v := by
  simp [State.getX, State.setX]

/-- Writing one register leaves every other alone (R21). -/
theorem getX_setX_other (s : State) (r r' : Reg) (v : Word) (h : r ≠ r') : (s.setX r v).getX r' = s.getX r' := by
  have : r.val ≠ r'.val := fun e => h (Fin.ext e)
  simp [State.getX, State.setX, this]

/-- An operand is read from the registers alone: the record of accesses does not reach it. -/
@[simp] theorem getX_of_bus (s : State) (b : List Access) (r : Reg) : State.getX { s with bus := b } r = s.getX r := rfl

/-- An address operand is the register as a number (R34). -/
theorem addressOf_eq (r : Reg) (s : State) : addressOf r s = (s.x[r]).toNat := rfl

/-- A count or size operand is the register as a number (R34). -/
theorem countOf_eq (r : Reg) (s : State) : countOf r s = (s.x[r]).toNat := rfl

/-- A length operand is the register as a signed number (R113). -/
theorem signedLengthOf_eq (r : Reg) (s : State) : signedLengthOf r s = (s.x[r]).toInt := rfl

/-- A seed operand is the register's low 32 bits (R34). -/
theorem seedOf_toNat (r : Reg) (s : State) : (seedOf r s).toNat = (s.x[r]).toNat % 2 ^ 32 := by
  simp [seedOf, State.getX]

@[simp] theorem code_illegal : ErrorKind.code .illegalCommand = 1 := rfl
@[simp] theorem code_range : ErrorKind.code .rangeError = 2 := rfl
@[simp] theorem code_bus : ErrorKind.code .busError = 3 := rfl

/-- An error's code is never 0: raising one sets the latch (R141, R147). -/
theorem code_ne_zero (e : ErrorKind) : e.code ≠ 0 := by cases e <;> decide

end Sys2Proof.Machine
end

