-- ==== Sys2Proof/Laws/Memory.lean ====
section
/-! SUPPORT. The laws of memory: read after write, a write leaves every other byte alone, the canonical form is kept,
and little-endian assembly byte by byte (R41, R42, R43). -/

namespace Sys2Proof.Machine

/-! ### One byte -/

/-- A byte read outside every listed address is blank. -/
theorem byteAt_of_not_listed (m : Memory) (a : Nat) (h : ∀ c ∈ m, c.1 ≠ a) : m.byteAt a = Memory.blank := by
  induction m with
  | nil => rfl
  | cons c m ih =>
    have hc : a ≠ c.1 := fun e => h c (by simp) e.symm
    simp [Memory.byteAt, hc, ih (fun d hd => h d (by simp [hd]))]

/-- Read after write: the byte written, and every other byte as before. -/
theorem byteAt_set (m : Memory) (hm : m.Pairwise (fun c d => c.1 < d.1)) (a a' : Nat) (b : Byte) :
    (m.set a b).byteAt a' = if a' = a then b else m.byteAt a' := by
  induction m with
  | nil =>
    by_cases hb : b = Memory.blank <;> by_cases ha : a' = a <;> simp [Memory.set, Memory.byteAt, hb, ha]
  | cons c m ih =>
    obtain ⟨c1, c2⟩ := c
    rw [List.pairwise_cons] at hm
    obtain ⟨hlt, hm⟩ := hm
    have hnl : ∀ x, x ≤ c1 → Memory.byteAt m x = Memory.blank := fun x hx =>
      byteAt_of_not_listed m x fun d hd => by have := hlt d hd; simp at this; omega
    simp only [Memory.set]
    split
    · rename_i h1
      by_cases hb : b = Memory.blank
      · by_cases ha : a' = a
        · subst ha
          have : a' ≠ c1 := by omega
          simp [Memory.byteAt, hb, this, hnl a' (by omega)]
        · simp [hb, ha]
      · by_cases ha : a' = a <;> simp [Memory.byteAt, hb, ha]
    · split
      · rename_i _ h2
        subst h2
        by_cases hb : b = Memory.blank
        · by_cases ha : a' = a
          · subst ha; simp [hb, hnl a' (le_refl _)]
          · simp [hb, ha, Memory.byteAt]
        · by_cases ha : a' = a <;> simp [Memory.byteAt, hb, ha]
      · rename_i h1 h2
        by_cases hc : a' = c1
        · subst hc
          have : a' ≠ a := fun e => h2 e.symm
          simp [Memory.byteAt, this]
        · simp [Memory.byteAt, hc, ih hm]

/-! ### The canonical form -/

/-- `Memory.wf` as three facts. -/
theorem wf_iff (m : Memory) : m.wf = true ↔
    m.Pairwise (fun c d => c.1 < d.1) ∧ ∀ c ∈ m, c.1 < addressSpace ∧ c.2 ≠ Memory.blank := by
  simp [Memory.wf]

@[simp] theorem wf_nil : Memory.wf [] = true := by decide

/-- Every entry after a write is the new byte or an old entry. -/
theorem mem_of_mem_set (m : Memory) (a : Nat) (b : Byte) (c : Host.Cell) (h : c ∈ m.set a b) :
    (c = (a, b) ∧ b ≠ Memory.blank) ∨ c ∈ m := by
  induction m with
  | nil =>
    simp only [Memory.set] at h
    split at h
    · simp at h
    · left; simp_all
  | cons d m ih =>
    obtain ⟨d1, d2⟩ := d
    simp only [Memory.set] at h
    split at h
    · split at h
      · exact .inr h
      · rename_i hb
        rcases List.mem_cons.1 h with h | h
        · exact .inl ⟨h, hb⟩
        · exact .inr h
    · split at h
      · split at h
        · exact .inr (List.mem_cons_of_mem _ h)
        · rename_i hb
          rcases List.mem_cons.1 h with h | h
          · exact .inl ⟨h, hb⟩
          · exact .inr (List.mem_cons_of_mem _ h)
      · rcases List.mem_cons.1 h with h | h
        · exact .inr (h ▸ List.mem_cons_self)
        · rcases ih h with h | h
          · exact .inl h
          · exact .inr (List.mem_cons_of_mem _ h)

/-- A write keeps the addresses strictly rising. -/
theorem pairwise_set (m : Memory) (a : Nat) (b : Byte) (hm : m.Pairwise (fun c d => c.1 < d.1)) :
    (m.set a b).Pairwise (fun c d => c.1 < d.1) := by
  induction m with
  | nil =>
    simp only [Memory.set]
    split <;> simp
  | cons d m ih =>
    obtain ⟨d1, d2⟩ := d
    have hcons := hm
    rw [List.pairwise_cons] at hm
    obtain ⟨hlt, hm'⟩ := hm
    simp only [Memory.set]
    split
    · split
      · exact hcons
      · rename_i h1 _
        refine List.pairwise_cons.2 ⟨fun c hc => ?_, hcons⟩
        rcases List.mem_cons.1 hc with rfl | hc
        · exact h1
        · exact lt_trans h1 (hlt c hc)
    · split
      · rename_i h2
        split
        · exact hm'
        · exact List.pairwise_cons.2 ⟨fun c hc => h2 ▸ hlt c hc, hm'⟩
      · rename_i h1 h2
        refine List.pairwise_cons.2 ⟨fun c hc => ?_, ih hm'⟩
        rcases mem_of_mem_set m a b c hc with ⟨rfl, _⟩ | hc
        · exact Nat.lt_of_le_of_ne (Nat.not_lt.1 h1) (Ne.symm h2)
        · exact hlt c hc

/-- Writing a byte inside the address space keeps the canonical form. -/
theorem wf_set (m : Memory) (a : Nat) (b : Byte) (hm : m.wf = true) (ha : a < addressSpace) :
    (m.set a b).wf = true := by
  rw [wf_iff] at hm ⊢
  refine ⟨pairwise_set m a b hm.1, fun c hc => ?_⟩
  rcases mem_of_mem_set m a b c hc with ⟨rfl, hb⟩ | hc
  · exact ⟨ha, hb⟩
  · exact hm.2 c hc

/-- Writing n bytes inside the address space keeps the canonical form (R43). -/
theorem wf_setBytes (bs : List Byte) (m : Memory) (a : Nat) (hm : m.wf = true) (ha : a + bs.length ≤ addressSpace) :
    (m.setBytes a bs).wf = true := by
  induction bs generalizing m a with
  | nil => exact hm
  | cons b bs ih =>
    simp only [List.length_cons] at ha
    exact ih (m.set a b) (a + 1) (wf_set m a b hm (by omega)) (by omega)

/-- Writing n bytes sets exactly those bytes (R43). -/
theorem byteAt_setBytes (bs : List Byte) (m : Memory) (hm : m.Pairwise (fun c d => c.1 < d.1)) (a a' : Nat) :
    (m.setBytes a bs).byteAt a' =
      if h : a ≤ a' ∧ a' < a + bs.length then bs[a' - a]'(by omega) else m.byteAt a' := by
  induction bs generalizing m a with
  | nil =>
    have h : ¬ (a ≤ a' ∧ a' < a + ([] : List Byte).length) := by simp only [List.length_nil]; omega
    rw [dif_neg h, Memory.setBytes]
  | cons b bs ih =>
    rw [Memory.setBytes, ih (m.set a b) (pairwise_set m a b hm) (a + 1), byteAt_set m hm]
    by_cases h1 : a + 1 ≤ a' ∧ a' < a + 1 + bs.length
    · have h2 : a ≤ a' ∧ a' < a + (bs.length + 1) := by omega
      have h3 : a' - a = (a' - (a + 1)) + 1 := by omega
      simp [h1, h2, h3]
    · by_cases h2 : a' = a
      · subst h2; simp
      · have h3 : ¬ (a ≤ a' ∧ a' < a + (b :: bs).length) := by simp only [List.length_cons]; omega
        rw [dif_neg h1, dif_neg h3, if_neg h2]

/-! ### Little-endian assembly (R41) -/

@[simp] theorem bytesAt_length (m : Memory) (a n : Nat) : (m.bytesAt a n).length = n := by simp [Memory.bytesAt]

@[simp] theorem leBytes_length {k : Nat} (n : Nat) (v : BitVec k) : (leBytes n v).length = n := by simp [leBytes]

@[simp] theorem leBytes_getElem {k : Nat} (n : Nat) (v : BitVec k) (j : Nat) (h : j < (leBytes n v).length) :
    (leBytes n v)[j] = v.extractLsb' (8 * j) 8 := by simp [leBytes]

/-- A stored value's byte j stands at the j-th address (R43). -/
theorem byteAt_stored {k : Nat} (m : Memory) (hm : m.Pairwise (fun c d => c.1 < d.1)) (a n j : Nat) (v : BitVec k)
    (h : j < n) : (m.setBytes a (leBytes n v)).byteAt (a + j) = v.extractLsb' (8 * j) 8 := by
  rw [byteAt_setBytes _ _ hm, dif_pos (by rw [leBytes_length]; omega), leBytes_getElem]
  congr 2
  omega

/-- Every other byte stands as before (R43). -/
theorem byteAt_not_stored {k : Nat} (m : Memory) (hm : m.Pairwise (fun c d => c.1 < d.1)) (a n a' : Nat) (v : BitVec k)
    (h : a' < a ∨ a + n ≤ a') : (m.setBytes a (leBytes n v)).byteAt a' = m.byteAt a' := by
  rw [byteAt_setBytes _ _ hm, dif_neg (by rw [leBytes_length]; omega)]

/-- The bytes from a are the first one and the bytes from a + 1. -/
theorem bytesAt_succ (m : Memory) (a n : Nat) : m.bytesAt a (n + 1) = m.byteAt a :: m.bytesAt (a + 1) n := by
  simp [Memory.bytesAt, List.range_succ_eq_map, Function.comp_def, Nat.add_assoc, Nat.add_comm 1]

/-- The number of n bytes is below 2^(8n). -/
theorem leNumber_lt (bs : List Byte) : leNumber bs < 2 ^ (8 * bs.length) := by
  induction bs with
  | nil => simp [leNumber]
  | cons b bs ih =>
    have hb : b.toNat < 256 := b.isLt
    have e : 2 ^ (8 * (b :: bs).length) = 256 * 2 ^ (8 * bs.length) := by
      rw [List.length_cons, Nat.mul_add, Nat.pow_add, Nat.mul_comm]
    rw [e, leNumber]
    omega

/-- Assembling bytes into a word wide enough for them gives their number (R41). -/
theorem leWord_toNat (n : Nat) (bs : List Byte) (h : 8 * bs.length ≤ n) : (leWord n bs).toNat = leNumber bs := by
  induction bs with
  | nil => simp [leWord, leNumber]
  | cons b bs ih =>
    simp only [List.length_cons] at h
    have hlt := leNumber_lt bs
    have hle : 2 ^ (8 * bs.length) * 2 ^ 8 ≤ 2 ^ n := by
      rw [← Nat.pow_add]; exact Nat.pow_le_pow_right (by decide) (by omega)
    have hb : b.toNat < 2 ^ 8 := b.isLt
    have hbn : b.toNat < 2 ^ n := Nat.lt_of_lt_of_le hb (Nat.pow_le_pow_right (by decide) (by omega))
    have hsh : (leNumber bs) <<< 8 < 2 ^ n := by rw [Nat.shiftLeft_eq]; omega
    rw [leWord, BitVec.toNat_or, BitVec.toNat_setWidth, BitVec.toNat_shiftLeft, ih (by omega),
      Nat.mod_eq_of_lt hbn, Nat.mod_eq_of_lt hsh, Nat.or_comm, ← Nat.shiftLeft_add_eq_or_of_lt hb, Nat.shiftLeft_eq,
      leNumber]
    omega

/-- The word a read returns is the number of its bytes (R42). -/
theorem leWord_eq_ofNat (n : Nat) (bs : List Byte) (h : 8 * bs.length ≤ n) :
    leWord n bs = BitVec.ofNat n (leNumber bs) := by
  apply BitVec.eq_of_toNat_eq
  rw [leWord_toNat n bs h, BitVec.toNat_ofNat, Nat.mod_eq_of_lt]
  exact Nat.lt_of_lt_of_le (leNumber_lt bs) (Nat.pow_le_pow_right (by decide) h)

/-- Byte j of the number of a list is the list's byte j (R41). -/
theorem leNumber_byte (bs : List Byte) (j : Nat) (h : j < bs.length) :
    leNumber bs / 2 ^ (8 * j) % 256 = bs[j].toNat := by
  induction bs generalizing j with
  | nil => simp at h
  | cons b bs ih =>
    have hb : b.toNat < 256 := b.isLt
    cases j with
    | zero => simp [leNumber]; omega
    | succ j =>
      have e : 2 ^ (8 * (j + 1)) = 256 * 2 ^ (8 * j) := by rw [Nat.mul_add, Nat.pow_add, Nat.mul_comm]
      rw [e, ← Nat.div_div_eq_div_mul, leNumber]
      have : (b.toNat + 256 * leNumber bs) / 256 = leNumber bs := by omega
      rw [this, ih j (by simpa using h)]
      simp

end Sys2Proof.Machine
end

