-- ==== Sys2Proof/Laws/Ops.lean ====
section
/-! SUPPORT. One lemma per shared operation, saying once everything it can do: an access, a sequence of accesses, and
how a command ends. Provers cite these instead of unfolding. -/

namespace Sys2Proof.Machine

/-! ### What answers at an address -/

/-- A readable byte is permitted to a read, and the other way round. -/
theorem permits_read_iff (map : List Region) (a : Nat) :
    ((regionAt map a).any fun r => r.permits .read) = readableAt map a := by
  unfold readableAt
  rcases regionAt map a with _ | (_ | _ | _ | _) <;> rfl

/-- A writable byte is permitted to a write, and the other way round. -/
theorem permits_write_iff (map : List Region) (a : Nat) :
    ((regionAt map a).any fun r => r.permits .write) = writableAt map a := by
  unfold writableAt
  rcases regionAt map a with _ | (_ | _ | _ | _) <;> rfl

/-- A readable byte is answered by memory. -/
theorem answersAt_of_readableAt (map : List Region) (a : Nat) (h : readableAt map a = true) :
    answersAt map a = true := by
  revert h
  unfold readableAt answersAt
  rcases regionAt map a with _ | (_ | _ | _ | _) <;> simp

/-- A writable byte is answered by memory. -/
theorem answersAt_of_writableAt (map : List Region) (a : Nat) (h : writableAt map a = true) :
    answersAt map a = true := by
  revert h
  unfold writableAt answersAt
  rcases regionAt map a with _ | (_ | _ | _ | _) <;> simp

theorem touches_iff (map : List Region) (k : RegionKind) (a n : Nat) :
    touches map k a n = true ↔ ∃ j < n, regionAt map (a + j) = some k := by
  simp [touches]

theorem permitted_iff (map : List Region) (k : AccessKind) (a n : Nat) :
    permitted map k a n = true ↔ ∀ j < n, ((regionAt map (a + j)).any fun r => r.permits k) = true := by
  simp [permitted]

/-- No byte that memory answers lies in a window that is no memory. -/
theorem not_touches (map : List Region) (k : RegionKind) (a n : Nat) (hk : k = .device ∨ k = .enginePort ∨ k = .silent)
    (h : ∀ j < n, answersAt map (a + j) = true) : touches map k a n = false := by
  rw [Bool.eq_false_iff]
  intro ht
  obtain ⟨j, hj, he⟩ := (touches_iff map k a n).1 ht
  have := h j hj
  simp only [answersAt, he] at this
  rcases hk with rfl | rfl | rfl <;> simp at this

/-- Memory grants an access all of whose bytes are in the needed set (R46). -/
theorem memoryAnswer_granted (map : List Region) (k : AccessKind) (a n : Nat)
    (hans : ∀ j < n, answersAt map (a + j) = true)
    (h : ∀ j < n, ((regionAt map (a + j)).any fun r => r.permits k) = true) : memoryAnswer map k a n = none := by
  simp [memoryAnswer, not_touches map _ a n (.inl rfl) hans, not_touches map _ a n (.inr (.inl rfl)) hans,
    not_touches map _ a n (.inr (.inr rfl)) hans, (permitted_iff map k a n).2 h]

/-- Memory answers with an error an access some byte of which is outside the needed set (R46 (b)). -/
theorem memoryAnswer_fails (map : List Region) (k : AccessKind) (a n : Nat)
    (hans : ∀ j < n, answersAt map (a + j) = true)
    (h : ∃ j < n, ((regionAt map (a + j)).any fun r => r.permits k) = false) :
    memoryAnswer map k a n = some (busError a) := by
  have hp : permitted map k a n = false := by
    rw [Bool.eq_false_iff]
    intro ht
    obtain ⟨j, hj, he⟩ := h
    rw [(permitted_iff map k a n).1 ht j hj] at he
    exact Bool.noConfusion he
  simp [memoryAnswer, not_touches map _ a n (.inl rfl) hans, not_touches map _ a n (.inr (.inl rfl)) hans,
    not_touches map _ a n (.inr (.inr rfl)) hans, hp]

/-- What memory answers depends only on the windows of the access's own bytes (R47). -/
theorem memoryAnswer_congr (map map' : List Region) (k : AccessKind) (a n : Nat)
    (h : ∀ j < n, regionAt map' (a + j) = regionAt map (a + j)) : memoryAnswer map' k a n = memoryAnswer map k a n := by
  have ht : ∀ w, touches map' w a n = touches map w a n := fun w => by
    rw [Bool.eq_iff_iff, touches_iff, touches_iff]
    exact exists_congr fun j => and_congr_right fun hj => by rw [h j hj]
  have hp : permitted map' k a n = permitted map k a n := by
    rw [Bool.eq_iff_iff, permitted_iff, permitted_iff]
    exact forall_congr' fun j => imp_congr_right fun hj => by rw [h j hj]
  simp [memoryAnswer, ht, hp]

/-- An access that touches a window that is no memory, and the outcome it gives the command. -/
theorem memoryAnswer_window {s : State} {a n : Nat} {o : Host.Outcome State Fault Refusal} (k : AccessKind)
    (h : StopsWith s a n o) :
    ∃ e, memoryAnswer s.map k a n = some e ∧
      ((∃ r, e = .refuse r ∧ o = .refused r) ∨ (e = .noAnswer ∧ o = .fault .memoryNeverAnswers)) := by
  have ht : ∀ w, touches s.map w a n = true ↔ Touches s w a n := fun w => touches_iff s.map w a n
  obtain ⟨-, ⟨hd, ho⟩ | ⟨hd, he, ho⟩ | ⟨hd, he, hs, ho⟩⟩ := h
  · exact ⟨_, by rw [memoryAnswer, if_pos ((ht _).2 hd)], .inl ⟨_, rfl, ho⟩⟩
  · exact ⟨_, by rw [memoryAnswer, if_neg (mt (ht _).1 hd), if_pos ((ht _).2 he)], .inl ⟨_, rfl, ho⟩⟩
  · exact ⟨_, by rw [memoryAnswer, if_neg (mt (ht _).1 hd), if_neg (mt (ht _).1 he), if_pos ((ht _).2 hs)],
      .inr ⟨rfl, ho⟩⟩

/-! ### Computations -/

@[simp] theorem andThen_ok {α β : Type} (l : List Access) (a : α) (f : α → Run β) :
    Run.andThen ⟨l, .ok a⟩ f = ⟨l ++ (f a).trace, (f a).result⟩ := rfl

@[simp] theorem andThen_error {α β : Type} (l : List Access) (e : Stop) (f : α → Run β) :
    Run.andThen ⟨l, .error e⟩ f = ⟨l, .error e⟩ := rfl

@[simp] theorem andThen_done {α β : Type} (a : α) (f : α → Run β) : (Run.done a).andThen f = f a := rfl

@[simp] theorem andThen_stop {α β : Type} (e : Stop) (f : α → Run β) :
    (Run.stop e : Run α).andThen f = Run.stop e := rfl

/-- Sequencing is associative: the accesses of three computations follow one another. -/
theorem andThen_assoc {α β γ : Type} (r : Run α) (f : α → Run β) (g : β → Run γ) :
    (r.andThen f).andThen g = r.andThen fun a => (f a).andThen g := by
  obtain ⟨l, a | a⟩ := r
  · rfl
  · simp only [andThen_ok]
    rcases h : f a with ⟨l', b | b⟩ <;> simp

/-- A computation followed by nothing. -/
theorem andThen_done_right {α : Type} (r : Run α) : r.andThen Run.done = r := by
  obtain ⟨l, a | a⟩ := r <;> simp [Run.andThen, Run.done]

/-- A read granted by memory: one access, the bytes assembled little-endian (R42). -/
theorem memRead_granted (s : State) (a n : Nat) (h : Readable s a n) :
    memRead s a n = ⟨[⟨.read, a, n⟩], .ok (BitVec.ofNat (8 * n) (leNumber (s.mem.bytesAt a n)))⟩ := by
  have hm : memoryAnswer s.map .read a n = none := memoryAnswer_granted _ _ _ _
    (fun j hj => answersAt_of_readableAt _ _ (h.2 j hj)) (fun j hj => by rw [permits_read_iff, h.2 j hj])
  have hle : ¬ a + n > addressSpace := Nat.not_lt.2 h.1
  simp only [memRead, access, if_neg hle, hm]
  rw [leWord_eq_ofNat]
  simp

/-- A read that fails (R46). -/
theorem memRead_fails (s : State) (a n : Nat) (h : ReadFails s a n) :
    memRead s a n = ⟨presented .read a n, .error (busError a)⟩ := by
  rcases h with h | ⟨hans, j, hj, hr⟩
  · simp only [memRead, access, presented, if_pos h, Run.stop]
  · by_cases hle : a + n > addressSpace
    · simp only [memRead, access, presented, if_pos hle, Run.stop]
    · have hm : memoryAnswer s.map .read a n = some (busError a) := memoryAnswer_fails _ _ _ _ hans
        ⟨j, hj, by rw [permits_read_iff, hr]⟩
      simp only [memRead, access, presented, if_neg hle, hm]

/-- A write granted by memory: one access, and the memory with the bytes set (R43). -/
theorem memWrite_granted {k : Nat} (s : State) (a n : Nat) (v : BitVec k) (h : Writable s a n) :
    memWrite s a n v = ⟨[⟨.write, a, n⟩], .ok (s.mem.setBytes a (leBytes n v))⟩ := by
  have hm : memoryAnswer s.map .write a n = none := memoryAnswer_granted _ _ _ _
    (fun j hj => answersAt_of_writableAt _ _ (h.2 j hj)) (fun j hj => by rw [permits_write_iff, h.2 j hj])
  have hle : ¬ a + n > addressSpace := Nat.not_lt.2 h.1
  simp only [memWrite, access, if_neg hle, hm]

/-- A write that fails sets no byte (R43, R46). -/
theorem memWrite_fails {k : Nat} (s : State) (a n : Nat) (v : BitVec k) (h : WriteFails s a n) :
    memWrite s a n v = ⟨presented .write a n, .error (busError a)⟩ := by
  rcases h with h | ⟨hans, j, hj, hr⟩
  · simp only [memWrite, access, presented, if_pos h, Run.stop]
  · by_cases hle : a + n > addressSpace
    · simp only [memWrite, access, presented, if_pos hle, Run.stop]
    · have hm : memoryAnswer s.map .write a n = some (busError a) := memoryAnswer_fails _ _ _ _ hans
        ⟨j, hj, by rw [permits_write_iff, hr]⟩
      simp only [memWrite, access, presented, if_neg hle, hm]

/-- A write that succeeds lies below 2^64 and gives the memory with its bytes set. -/
theorem memWrite_ok {k : Nat} (s : State) (a n : Nat) (v : BitVec k) (m : Memory)
    (h : (memWrite s a n v).result = .ok m) : a + n ≤ addressSpace ∧ m = s.mem.setBytes a (leBytes n v) := by
  simp only [memWrite, access] at h
  split at h
  · simp [Run.stop] at h
  · rename_i hle
    refine ⟨Nat.not_lt.1 hle, ?_⟩
    split at h
    · exact (Except.ok.inj h).symm
    · simp at h

/-- A read that touches a window that is no memory. -/
theorem memRead_window {s : State} {a n : Nat} {o : Host.Outcome State Fault Refusal} (h : StopsWith s a n o) :
    ∃ e, memRead s a n = ⟨[⟨.read, a, n⟩], .error e⟩ ∧
      ((∃ r, e = .refuse r ∧ o = .refused r) ∨ (e = .noAnswer ∧ o = .fault .memoryNeverAnswers)) := by
  obtain ⟨e, he, ho⟩ := memoryAnswer_window .read h
  exact ⟨e, by simp only [memRead, access, if_neg (Nat.not_lt.2 h.1), he], ho⟩

/-- A write that touches a window that is no memory. -/
theorem memWrite_window {k : Nat} {s : State} {a n : Nat} {o : Host.Outcome State Fault Refusal} (v : BitVec k)
    (h : StopsWith s a n o) :
    ∃ e, memWrite s a n v = ⟨[⟨.write, a, n⟩], .error e⟩ ∧
      ((∃ r, e = .refuse r ∧ o = .refused r) ∨ (e = .noAnswer ∧ o = .fault .memoryNeverAnswers)) := by
  obtain ⟨e, he, ho⟩ := memoryAnswer_window .write h
  exact ⟨e, by simp only [memWrite, access, if_neg (Nat.not_lt.2 h.1), he], ho⟩

/-- A read's outcome depends only on its own bytes and their windows (R42, R47). -/
theorem memRead_congr (s : State) (m : Memory) (map : List Region) (a n : Nat)
    (h : ∀ j < n, AgreeAt s m map (a + j)) : memRead (onMemory m map s) a n = memRead s a n := by
  have hb : m.bytesAt a n = s.mem.bytesAt a n := by
    simp only [Memory.bytesAt]
    exact List.map_congr_left fun j hj => (h j (List.mem_range.1 hj)).1
  have hm : memoryAnswer map .read a n = memoryAnswer s.map .read a n :=
    memoryAnswer_congr _ _ _ _ _ fun j hj => (h j hj).2
  simp [memRead, access, onMemory, hb, hm]

/-! ### The stops a computation can make -/

/-- A computation raises no error but BusError. -/
def OnlyBusErrors {α : Type} (r : Run α) : Prop := ∀ e a, r.result = .error (.raise e a) → e = .busError

/-- The one error memory can answer with is BusError at the access's start address (R46). -/
theorem memoryAnswer_raises {map : List Region} {k : AccessKind} {a n : Nat} {e : ErrorKind} {b : Word}
    (h : memoryAnswer map k a n = some (.raise e b)) : e = .busError := by
  unfold memoryAnswer at h
  split at h
  · simp at h
  · split at h
    · simp at h
    · split at h
      · simp at h
      · split at h
        · simp at h
        · simp only [busError, Option.some.injEq, Stop.raise.injEq] at h; exact h.1.symm

theorem onlyBusErrors_done {α : Type} (a : α) : OnlyBusErrors (Run.done a) := by
  intro e b h; simp [Run.done] at h

theorem onlyBusErrors_access {α : Type} (map : List Region) (k : AccessKind) (a n : Nat) (v : α) :
    OnlyBusErrors (access map k a n v) := by
  intro e b h
  simp only [access] at h
  split at h
  · simp [Run.stop, busError] at h; exact h.1.symm
  · split at h
    · simp at h
    · rename_i e' he
      simp only [Except.error.injEq] at h
      subst h
      exact memoryAnswer_raises he

theorem onlyBusErrors_andThen {α β : Type} (r : Run α) (f : α → Run β) (hr : OnlyBusErrors r)
    (hf : ∀ a, OnlyBusErrors (f a)) : OnlyBusErrors (r.andThen f) := by
  obtain ⟨l, x | a⟩ := r
  · intro e b h
    exact hr e b (by simpa using h)
  · intro e b h
    exact hf a e b h

/-! ### How a command ends (R140) -/

/-- Everything `conclude` can do when it answers a next state: the effect, or the error entry. -/
theorem conclude_next {α : Type} {cmd : Word} {s t : State} {r : Run α} {done : α → State → State}
    (h : conclude cmd s r done = .next t) :
    (∃ a, r.result = .ok a ∧ t = done a { s with bus := s.bus ++ r.trace }) ∨
    (∃ e faddr, r.result = .error (.raise e faddr) ∧
      t = State.takeError { s with bus := s.bus ++ r.trace } e cmd faddr) := by
  unfold conclude at h
  split at h
  · rename_i a ha; exact .inl ⟨a, ha, by simpa using h.symm⟩
  · rename_i e f he; exact .inr ⟨e, f, he, by simpa using h.symm⟩
  · cases h
  · cases h

/-- A command whose computation succeeds completes. -/
theorem conclude_ok {α : Type} (cmd : Word) (s : State) (l : List Access) (a : α) (done : α → State → State) :
    conclude cmd s ⟨l, .ok a⟩ done = .next (done a { s with bus := s.bus ++ l }) := rfl

/-- A command whose computation the model gives no meaning, or that is never answered, ends so (R40, R45, R178). -/
theorem conclude_window {α : Type} (cmd : Word) (s : State) (l : List Access) (e : Stop) (done : α → State → State)
    {o : Host.Outcome State Fault Refusal}
    (h : (∃ r, e = .refuse r ∧ o = .refused r) ∨ (e = .noAnswer ∧ o = .fault .memoryNeverAnswers)) :
    conclude cmd s ⟨l, .error e⟩ done = o := by
  rcases h with ⟨r, rfl, rfl⟩ | ⟨rfl, rfl⟩ <;> rfl

/-- A command whose computation raises an error takes it (R146). -/
theorem conclude_raise {α : Type} (cmd : Word) (s : State) (l : List Access) (e : ErrorKind) (a : Word)
    (done : α → State → State) :
    conclude cmd s ⟨l, .error (.raise e a)⟩ done = .next (State.takeError { s with bus := s.bus ++ l } e cmd a) := rfl

end Sys2Proof.Machine
end

