-- ==== Sys2Proof/Laws/Datapath.lean ====
section
/-! SUPPORT. The datapath functions as arithmetic on numbers (R82, R83, R87, R88). -/

namespace Sys2Proof.Machine

@[simp] theorem w4_bits : Width.bits .w4 = 32 := rfl
@[simp] theorem w8_bits : Width.bits .w8 = 64 := rfl

/-- The folded product of two n-bit numbers is an n-bit number. -/
theorem foldedProduct_lt (n a b : Nat) (ha : a < 2 ^ n) (hb : b < 2 ^ n) : foldedProduct n a b < 2 ^ n := by
  apply Nat.xor_lt_two_pow
  · have : a * b < 2 ^ n * 2 ^ n := Nat.mul_lt_mul'' ha hb
    exact Nat.div_lt_of_lt_mul this
  · exact Nat.mod_lt _ (by positivity)

/-- `mix` as a number: the folded exact product (R83). -/
theorem mix_toNat {n : Nat} (v c : BitVec n) : (mix v c).toNat = foldedProduct n v.toNat c.toNat := by
  have hp : v.toNat * c.toNat < 2 ^ n * 2 ^ n := Nat.mul_lt_mul'' v.isLt c.isLt
  have hi : v.toNat * c.toNat / 2 ^ n < 2 ^ n := Nat.div_lt_of_lt_mul hp
  simp only [mix, foldedProduct, BitVec.toNat_xor, BitVec.toNat_ofNat, Nat.shiftRight_eq_div_pow,
    Nat.and_two_pow_sub_one_eq_mod, Nat.mod_mod]
  rw [Nat.mod_eq_of_lt hi]

/-- A value of k bytes widened to 64 bits keeps its number. -/
theorem setWidth64_eq (W : Width) (v : BitVec W.bits) : v.setWidth 64 = BitVec.ofNat 64 v.toNat := by
  apply BitVec.eq_of_toNat_eq; simp

/-- Masking as a number (R82). -/
theorem maskTo_toNat (W : Width) (v : BitVec W.bits) (k : Nat) (h : k ≤ W.bytes) :
    (maskTo W v k).toNat = v.toNat % 2 ^ (8 * k) := by
  unfold maskTo
  split
  · rename_i e; subst e; exact (Nat.mod_eq_of_lt v.isLt).symm
  · have hle : 2 ^ (8 * k) ≤ 2 ^ W.bits := Nat.pow_le_pow_right (by decide) (by show 8 * k ≤ 8 * W.bytes; omega)
    have hpos : 0 < 2 ^ (8 * k) := by positivity
    have hlt : 2 ^ (8 * k) - 1 < 2 ^ W.bits := by omega
    rw [BitVec.toNat_and, BitVec.toNat_ofNat, Nat.mod_eq_of_lt hlt, Nat.and_two_pow_sub_one_eq_mod]

/-- A word below 2^(8k) is not changed by masking to k bytes. -/
theorem maskTo_of_lt (W : Width) (v : BitVec W.bits) (k : Nat) (h : k ≤ W.bytes) (hv : v.toNat < 2 ^ (8 * k)) :
    maskTo W v k = v := by
  apply BitVec.eq_of_toNat_eq
  rw [maskTo_toNat W v k h, Nat.mod_eq_of_lt hv]

/-- A product with 0 folds to 0. -/
theorem mix_zero_left {n : Nat} (c : BitVec n) : mix 0 c = 0 := by
  apply BitVec.eq_of_toNat_eq; simp [mix_toNat, foldedProduct]

/-- The combine of two zero words is 0 in every configuration (R97). -/
theorem combine2_zero (cfg : Config) (W : Width) : combine2 cfg W 0 0 = 0 := by
  rw [combine2, mix_zero_left, mix_zero_left]; simp [reduce2]

/-- Byte i of a word as a number (R10). -/
theorem byte_toNat {n : Nat} (w : BitVec n) (i : Nat) :
    (w.extractLsb' (8 * i) 8).toNat = w.toNat / 2 ^ (8 * i) % 256 := by
  rw [BitVec.extractLsb'_toNat, Nat.shiftRight_eq_div_pow]

theorem byte_eq_zero_iff {n : Nat} (w : BitVec n) (i : Nat) :
    w.extractLsb' (8 * i) 8 = (0 : BitVec 8) ↔ w.toNat / 2 ^ (8 * i) % 256 = 0 := by
  rw [← byte_toNat, BitVec.toNat_eq]; rfl

/-- MASK's range check as arithmetic (R91). -/
theorem countInRange_iff (W : Width) (k : Nat) : countInRange W k = true ↔ 1 ≤ k ∧ k ≤ W.bytes := by
  simp [countInRange]

/-- The size and length check as arithmetic (R143). -/
theorem sizeTooLarge_iff (W : Width) (n : Nat) : sizeTooLarge W n = true ↔ W = .w4 ∧ 2 ^ 32 ≤ n := by
  simp [sizeTooLarge]

/-- Byte j of the low n bits is byte j of the whole number, for a byte inside them (R34). -/
theorem byte_mod (x n j : Nat) (h : 8 * j + 8 ≤ n) : x % 2 ^ n / 2 ^ (8 * j) % 256 = x / 2 ^ (8 * j) % 256 := by
  obtain ⟨k, rfl⟩ : ∃ k, n = 8 * j + (8 + k) := ⟨n - (8 * j + 8), by omega⟩
  rw [Nat.pow_add, Nat.mod_mul_right_div_self, Nat.mod_mod_of_dvd]
  exact Dvd.intro (2 ^ k) (by rw [Nat.pow_add])

/-- Byte j of a W-wide view is byte j of the register (R34). -/
theorem byte_wideView (W : Width) (r : Reg) (s : State) (j : Nat) (h : j < W.bytes) :
    (wideView W r s).toNat / 2 ^ (8 * j) % 256 = (s.x[r]).toNat / 2 ^ (8 * j) % 256 := by
  rw [wideView, BitVec.toNat_setWidth]
  exact byte_mod _ _ _ (by show 8 * j + 8 ≤ 8 * W.bytes; omega)

end Sys2Proof.Machine
end

