-- ==== Sys2Proof/Laws/Drivers.lean ====
section
/-! SUPPORT. The driver loops as one list of accesses (R110, R112): what they do when every access is granted, when one
fails, and which bytes they depend on. Provers cite these instead of unfolding the loops. -/

namespace Sys2Proof.Machine

/-! ### One read of a word or of a tail -/

/-- The number of n bytes fits in n bytes. -/
theorem leNumber_bytesAt_lt (m : Memory) (a n : Nat) : leNumber (m.bytesAt a n) < 2 ^ (8 * n) := by
  have h := leNumber_lt (m.bytesAt a n)
  rwa [bytesAt_length] at h

/-- A word of n bytes as a number (R41). -/
theorem wordAt_toNat (W : Width) (s : State) (a n : Nat) (h : n ≤ W.bytes) :
    (wordAt W s a n).toNat = leNumber (s.mem.bytesAt a n) := by
  rw [wordAt, BitVec.toNat_ofNat, Nat.mod_eq_of_lt]
  exact Nat.lt_of_lt_of_le (leNumber_bytesAt_lt _ _ _) (Nat.pow_le_pow_right (by decide) (by
    show 8 * n ≤ 8 * W.bytes; omega))

/-- A word of no bytes is zero. -/
@[simp] theorem wordAt_zero (W : Width) (s : State) (a : Nat) : wordAt W s a 0 = 0 := by
  simp [wordAt, Memory.bytesAt, leNumber]

/-- A granted partial read: one access, the bytes as a word (R110). -/
theorem readTail_granted (W : Width) (s : State) (a n : Nat) (hn : n ≤ W.bytes) (h : Readable s a n) :
    readTail W s a n = ⟨[⟨.read, a, n⟩], .ok (wordAt W s a n)⟩ := by
  have hlt := leNumber_bytesAt_lt s.mem a n
  have hw : (BitVec.ofNat (8 * n) (leNumber (s.mem.bytesAt a n))).setWidth W.bits = wordAt W s a n := by
    apply BitVec.eq_of_toNat_eq
    rw [wordAt, BitVec.toNat_setWidth, BitVec.toNat_ofNat, BitVec.toNat_ofNat, Nat.mod_eq_of_lt hlt]
  rw [readTail, memRead_granted s a n h, andThen_ok, hw,
    maskTo_of_lt W _ n hn (by rw [wordAt_toNat W s a n hn]; exact hlt)]
  rfl

/-- A failing partial read (R46). -/
theorem readTail_fails (W : Width) (s : State) (a n : Nat) (h : ReadFails s a n) :
    readTail W s a n = ⟨presented .read a n, .error (busError a)⟩ := by
  rw [readTail, memRead_fails s a n h, andThen_error]

/-- A full word is read as a tail of W bytes is: masking to W bytes changes nothing (R82). -/
theorem memRead_eq_readTail (W : Width) (s : State) (a : Nat) : memRead s a W.bytes = readTail W s a W.bytes := by
  have h : (fun t : BitVec (8 * W.bytes) => Run.done (maskTo W (t.setWidth W.bits) W.bytes)) = Run.done := by
    funext t
    simp [maskTo]
  rw [readTail, h, andThen_done_right]

/-- A partial read depends only on its own bytes and their windows (R47). -/
theorem readTail_congr (W : Width) (s : State) (m : Memory) (map : List Region) (a n : Nat)
    (h : ∀ j < n, AgreeAt s m map (a + j)) : readTail W (onMemory m map s) a n = readTail W s a n := by
  rw [readTail, readTail, memRead_congr s m map a n h]

/-! ### A list of accesses, each folded in -/

/-- The accesses of a list of (address, size), each word folded into the accumulator. -/
def readChunks (cfg : Config) (W : Width) (s : State) : List (Nat × Nat) → BitVec W.bits → Run (BitVec W.bits)
  | [], acc => Run.done acc
  | c :: cs, acc => (readTail W s c.1 c.2).andThen fun w => readChunks cfg W s cs (combine2 cfg W acc w)

/-- The accesses of one list after those of another. -/
theorem readChunks_append (cfg : Config) (W : Width) (s : State) (l l' : List (Nat × Nat)) (acc : BitVec W.bits) :
    readChunks cfg W s (l ++ l') acc = (readChunks cfg W s l acc).andThen (readChunks cfg W s l') := by
  induction l generalizing acc with
  | nil => rfl
  | cons c cs ih => simp only [List.cons_append, readChunks, andThen_assoc, ih]

/-- Every access granted: they are all made, in order, and every word is folded in. -/
theorem readChunks_granted (cfg : Config) (W : Width) (s : State) (l : List (Nat × Nat)) (acc : BitVec W.bits)
    (h : ∀ c ∈ l, c.2 ≤ W.bytes ∧ Readable s c.1 c.2) :
    readChunks cfg W s l acc = ⟨l.map fun c => ⟨.read, c.1, c.2⟩,
      .ok (l.foldl (fun acc c => combine2 cfg W acc (wordAt W s c.1 c.2)) acc)⟩ := by
  induction l generalizing acc with
  | nil => rfl
  | cons c cs ih =>
    obtain ⟨hc, hcs⟩ := List.forall_mem_cons.1 h
    rw [readChunks, readTail_granted W s _ _ hc.1 hc.2, andThen_ok, ih _ hcs]
    rfl

/-- The first failing access ends the computation; the ones before it were made, and none after it. -/
theorem readChunks_fails (cfg : Config) (W : Width) (s : State) (l l' : List (Nat × Nat)) (c : Nat × Nat)
    (acc : BitVec W.bits) (h : ∀ d ∈ l, d.2 ≤ W.bytes ∧ Readable s d.1 d.2) (hc : ReadFails s c.1 c.2) :
    readChunks cfg W s (l ++ c :: l') acc =
      ⟨l.map (fun d => ⟨.read, d.1, d.2⟩) ++ presented .read c.1 c.2, .error (busError c.1)⟩ := by
  rw [readChunks_append, readChunks_granted cfg W s l acc h, andThen_ok, readChunks, readTail_fails W s _ _ hc,
    andThen_error]

/-- The computation depends only on the bytes of its accesses and their windows. -/
theorem readChunks_congr (cfg : Config) (W : Width) (s : State) (m : Memory) (map : List Region)
    (l : List (Nat × Nat)) (acc : BitVec W.bits) (h : ∀ c ∈ l, ∀ j < c.2, AgreeAt s m map (c.1 + j)) :
    readChunks cfg W (onMemory m map s) l acc = readChunks cfg W s l acc := by
  induction l generalizing acc with
  | nil => rfl
  | cons c cs ih =>
    obtain ⟨hc, hcs⟩ := List.forall_mem_cons.1 h
    rw [readChunks, readChunks, readTail_congr W s m map _ _ hc]
    congr 1
    funext w
    exact ih _ hcs

/-- It raises no error but BusError. -/
theorem readChunks_onlyBusErrors (cfg : Config) (W : Width) (s : State) (l : List (Nat × Nat)) (acc : BitVec W.bits) :
    OnlyBusErrors (readChunks cfg W s l acc) := by
  induction l generalizing acc with
  | nil => exact onlyBusErrors_done acc
  | cons c cs ih =>
    exact onlyBusErrors_andThen _ _ (onlyBusErrors_andThen _ _ (onlyBusErrors_access _ _ _ _ _)
      fun _ => onlyBusErrors_done _) fun w => ih _

/-! ### `consume` as its list of accesses (R110) -/

/-- k full words from address a. -/
def fullWords (W : Width) (a k : Nat) : List (Nat × Nat) := (List.range k).map fun j => (chunkAddr W a j, W.bytes)

/-- The accesses of a buffer of n bytes. -/
def bufferChunks (W : Width) (ptr n : Nat) : List (Nat × Nat) :=
  (List.range (accessCount W n)).map fun j => (chunkAddr W ptr j, chunkSize W n j)

theorem width_pos (W : Width) : 0 < W.bytes := by cases W <;> decide

@[simp] theorem fullWords_zero (W : Width) (a : Nat) : fullWords W a 0 = [] := rfl

theorem fullWords_succ (W : Width) (a k : Nat) :
    fullWords W a (k + 1) = (a, W.bytes) :: fullWords W (a + W.bytes) k := by
  simp only [fullWords, List.range_succ_eq_map, List.map_cons, List.map_map]
  congr 1
  · simp [chunkAddr]
  · apply List.map_congr_left
    intro j _
    simp only [Function.comp_def, chunkAddr, Nat.succ_eq_add_one]
    congr 1
    ring

/-- The long path's loop is the accesses of its words. -/
theorem foldWords_eq_readChunks (cfg : Config) (W : Width) (s : State) (k a : Nat) (acc : BitVec W.bits) :
    foldWords cfg W s k a acc = readChunks cfg W s (fullWords W a k) acc := by
  induction k generalizing a acc with
  | zero => rfl
  | succ k ih =>
    rw [foldWords, fullWords_succ, readChunks, memRead_eq_readTail]
    simp only [ih]

/-- The tail of the long path is at most one access. -/
theorem foldTail_eq_readChunks (cfg : Config) (W : Width) (s : State) (a rem : Nat) (acc : BitVec W.bits) :
    foldTail cfg W s a rem acc = readChunks cfg W s (if rem = 0 then [] else [(a, rem)]) acc := by
  unfold foldTail
  split <;> rfl

/-- The number of accesses of n bytes (R117): the full words, and one for a tail. -/
theorem accessCount_eq (W : Width) (n : Nat) :
    accessCount W n = n / W.bytes + (if n % W.bytes = 0 then 0 else 1) := by
  have hw : 0 < W.bytes := width_pos W
  have hd := Nat.div_add_mod n W.bytes
  have hm := Nat.mod_lt n hw
  generalize n / W.bytes = q at *
  generalize n % W.bytes = r at *
  subst hd
  rw [accessCount]
  split
  · rename_i h0
    have e : W.bytes * q + r + W.bytes - 1 = (W.bytes - 1) + W.bytes * q := by omega
    rw [e, Nat.add_mul_div_left _ _ hw, Nat.div_eq_of_lt (by omega)]; omega
  · have e : W.bytes * q + r + W.bytes - 1 = (r - 1) + W.bytes * (q + 1) := by rw [Nat.mul_add]; omega
    rw [e, Nat.add_mul_div_left _ _ hw, Nat.div_eq_of_lt (by omega)]; omega

/-- A buffer's accesses are its full words and then its tail. -/
theorem bufferChunks_eq (W : Width) (ptr n : Nat) :
    bufferChunks W ptr n = fullWords W ptr (n / W.bytes) ++
      (if n % W.bytes = 0 then [] else [(ptr + n / W.bytes * W.bytes, n % W.bytes)]) := by
  have hw : 0 < W.bytes := width_pos W
  have hd := Nat.div_add_mod n W.bytes
  have hm := Nat.mod_lt n hw
  have hmc : W.bytes * (n / W.bytes) = n / W.bytes * W.bytes := Nat.mul_comm _ _
  rw [bufferChunks, accessCount_eq]
  have hfull : (List.range (n / W.bytes)).map (fun j => (chunkAddr W ptr j, chunkSize W n j)) =
      fullWords W ptr (n / W.bytes) := by
    apply List.map_congr_left
    intro j hj
    have hj := List.mem_range.1 hj
    have hle : (j + 1) * W.bytes ≤ n / W.bytes * W.bytes := Nat.mul_le_mul_right _ hj
    have : (j + 1) * W.bytes = j * W.bytes + W.bytes := by ring
    simp only [chunkSize]
    congr 1
    omega
  split
  · rw [List.append_nil, Nat.add_zero, hfull]
  · rw [List.range_succ, List.map_append, hfull]
    simp only [List.map_cons, List.map_nil, chunkAddr, chunkSize]
    congr 3
    omega

/-- Every access of a buffer is of 1 to W bytes, inside the buffer. -/
theorem mem_bufferChunks {W : Width} {ptr n : Nat} {c : Nat × Nat} (h : c ∈ bufferChunks W ptr n) :
    c.2 ≤ W.bytes ∧ ptr ≤ c.1 ∧ c.1 + c.2 ≤ ptr + n := by
  have hw : 0 < W.bytes := width_pos W
  simp only [bufferChunks, List.mem_map, List.mem_range] at h
  obtain ⟨j, hj, rfl⟩ := h
  simp only [chunkAddr, chunkSize]
  have hjn : j * W.bytes ≤ n := by
    have h1 : (j + 1) * W.bytes ≤ accessCount W n * W.bytes := Nat.mul_le_mul_right _ hj
    have h2 : accessCount W n * W.bytes ≤ n + W.bytes - 1 := Nat.div_mul_le_self _ _
    have h3 : (j + 1) * W.bytes = j * W.bytes + W.bytes := by ring
    omega
  omega

/-- `consume` of n >= 1 bytes is the accesses of the buffer, each folded in: the short path is the long one (R114). -/
theorem consume_eq_readChunks (cfg : Config) (W : Width) (s : State) (acc : BitVec W.bits) (ptr n : Nat) (hn : 0 < n) :
    consume cfg W s acc ptr n = readChunks cfg W s (bufferChunks W ptr n) acc := by
  have hw : 0 < W.bytes := width_pos W
  rw [bufferChunks_eq, consume, if_neg (by omega)]
  split
  · rename_i hle
    rcases Nat.lt_or_eq_of_le hle with hlt | rfl
    · rw [Nat.div_eq_of_lt hlt, Nat.mod_eq_of_lt hlt, if_neg (by omega)]
      simp [readChunks]
    · rw [Nat.div_self hw, Nat.mod_self, if_pos rfl]
      simp [fullWords_succ, readChunks]
  · rw [readChunks_append, foldWords_eq_readChunks]
    congr 1
    funext acc'
    exact foldTail_eq_readChunks cfg W s _ _ acc'

/-- `consume` of nothing reads nothing (R119). -/
@[simp] theorem consume_zero (cfg : Config) (W : Width) (s : State) (acc : BitVec W.bits) (ptr : Nat) :
    consume cfg W s acc ptr 0 = Run.done (combine2 cfg W acc 0) := rfl

/-- `consume` raises no error but BusError. -/
theorem consume_onlyBusErrors (cfg : Config) (W : Width) (s : State) (acc : BitVec W.bits) (ptr n : Nat) :
    OnlyBusErrors (consume cfg W s acc ptr n) := by
  rcases Nat.eq_zero_or_pos n with rfl | hn
  · exact onlyBusErrors_done _
  · rw [consume_eq_readChunks cfg W s acc ptr n hn]
    exact readChunks_onlyBusErrors cfg W s _ acc

/-- The accesses of a buffer's list are the ones the statements name. -/
theorem map_bufferChunks (W : Width) (ptr n : Nat) :
    (bufferChunks W ptr n).map (fun c => (⟨.read, c.1, c.2⟩ : Access)) = bufferAccesses W ptr n := by
  simp [bufferChunks, bufferAccesses]

/-- Folding over a buffer's list is the fold the statements name. -/
theorem foldl_bufferChunks (cfg : Config) (W : Width) (s : State) (ptr n : Nat) (acc : BitVec W.bits) :
    (bufferChunks W ptr n).foldl (fun acc c => combine2 cfg W acc (wordAt W s c.1 c.2)) acc =
      bufferFold cfg W s ptr n acc := by
  simp [bufferChunks, bufferFold, List.foldl_map]

/-- A buffer's accesses are granted when its bytes are readable. -/
theorem readable_bufferChunks {W : Width} {s : State} {ptr n : Nat} (h : Readable s ptr n) :
    ∀ c ∈ bufferChunks W ptr n, c.2 ≤ W.bytes ∧ Readable s c.1 c.2 := by
  intro c hc
  obtain ⟨h1, h2, h3⟩ := mem_bufferChunks hc
  refine ⟨h1, by have := h.1; omega, fun j hj => ?_⟩
  have := h.2 (c.1 - ptr + j) (by omega)
  rwa [show ptr + (c.1 - ptr + j) = c.1 + j by omega] at this

/-- `consume` of readable bytes (R110): exactly the buffer's accesses, and the fold of its words. -/
theorem consume_granted (cfg : Config) (W : Width) (s : State) (acc : BitVec W.bits) (ptr n : Nat) (hn : 0 < n)
    (h : Readable s ptr n) :
    consume cfg W s acc ptr n = ⟨bufferAccesses W ptr n, .ok (bufferFold cfg W s ptr n acc)⟩ := by
  rw [consume_eq_readChunks cfg W s acc ptr n hn, readChunks_granted cfg W s _ acc (readable_bufferChunks h),
    map_bufferChunks, foldl_bufferChunks]

/-- A buffer's list cut at its j-th access. -/
theorem bufferChunks_split (W : Width) (ptr n j : Nat) (hj : j < accessCount W n) :
    ∃ l', bufferChunks W ptr n =
      (List.range j).map (fun k => (chunkAddr W ptr k, chunkSize W n k)) ++ (chunkAddr W ptr j, chunkSize W n j) :: l' := by
  refine ⟨(bufferChunks W ptr n).drop (j + 1), ?_⟩
  have hlen : j < (bufferChunks W ptr n).length := by simpa [bufferChunks] using hj
  have hget : (bufferChunks W ptr n)[j] = (chunkAddr W ptr j, chunkSize W n j) := by simp [bufferChunks]
  rw [← hget, ← List.drop_eq_getElem_cons hlen]
  have htake : (bufferChunks W ptr n).take j = (List.range j).map (fun k => (chunkAddr W ptr k, chunkSize W n k)) := by
    rw [bufferChunks, ← List.map_take, List.take_range, Nat.min_eq_left hj.le]
  rw [← htake, List.take_append_drop]

/-- `consume` at its first failing access (R46, R144). -/
theorem consume_fails (cfg : Config) (W : Width) (s : State) (acc : BitVec W.bits) (ptr n j : Nat)
    (hj : j < accessCount W n) (h : ∀ k < j, Readable s (chunkAddr W ptr k) (chunkSize W n k))
    (hf : ReadFails s (chunkAddr W ptr j) (chunkSize W n j)) :
    consume cfg W s acc ptr n = ⟨(bufferAccesses W ptr n).take j ++
      presented .read (chunkAddr W ptr j) (chunkSize W n j), .error (busError (chunkAddr W ptr j))⟩ := by
  have hn : 0 < n := by
    rcases Nat.eq_zero_or_pos n with rfl | hn
    · rw [accessCount_eq] at hj; simp at hj
    · exact hn
  obtain ⟨l', hl⟩ := bufferChunks_split W ptr n j hj
  rw [consume_eq_readChunks cfg W s acc ptr n hn, hl, readChunks_fails cfg W s _ l' _ acc _ hf]
  · congr 2
    rw [bufferAccesses, ← List.map_take, List.take_range, Nat.min_eq_left hj.le, List.map_map]
    rfl
  · intro d hd
    obtain ⟨k, hk, rfl⟩ := List.mem_map.1 hd
    exact ⟨Nat.min_le_left _ _, h k (List.mem_range.1 hk)⟩

/-- `consume` at its first access that touches a window that is no memory (R40, R45, R178). -/
theorem consume_window (cfg : Config) (W : Width) (s : State) (acc : BitVec W.bits) (ptr n j : Nat)
    {o : Host.Outcome State Fault Refusal} (hj : j < accessCount W n)
    (h : ∀ k < j, Readable s (chunkAddr W ptr k) (chunkSize W n k))
    (hf : StopsWith s (chunkAddr W ptr j) (chunkSize W n j) o) :
    ∃ l e, consume cfg W s acc ptr n = ⟨l, .error e⟩ ∧
      ((∃ r, e = .refuse r ∧ o = .refused r) ∨ (e = .noAnswer ∧ o = .fault .memoryNeverAnswers)) := by
  have hn : 0 < n := by
    rcases Nat.eq_zero_or_pos n with rfl | hn
    · rw [accessCount_eq] at hj; simp at hj
    · exact hn
  obtain ⟨l', hl⟩ := bufferChunks_split W ptr n j hj
  obtain ⟨e, he, ho⟩ := memRead_window hf
  rw [consume_eq_readChunks cfg W s acc ptr n hn, hl, readChunks_append, readChunks_granted]
  · rw [andThen_ok, readChunks, readTail, he, andThen_error, andThen_error]; exact ⟨_, _, rfl, ho⟩
  · intro d hd
    obtain ⟨k, hk, rfl⟩ := List.mem_map.1 hd
    exact ⟨Nat.min_le_left _ _, h k (List.mem_range.1 hk)⟩

/-- `consume` depends only on the buffer's bytes and their windows (R116). -/
theorem consume_congr (cfg : Config) (W : Width) (s : State) (m : Memory) (map : List Region) (acc : BitVec W.bits)
    (ptr n : Nat) (h : ∀ j < n, AgreeAt s m map (ptr + j)) :
    consume cfg W (onMemory m map s) acc ptr n = consume cfg W s acc ptr n := by
  rcases Nat.eq_zero_or_pos n with rfl | hn
  · rfl
  · rw [consume_eq_readChunks cfg W _ acc ptr n hn, consume_eq_readChunks cfg W s acc ptr n hn]
    refine readChunks_congr cfg W s m map _ acc fun c hc j hj => ?_
    obtain ⟨-, h2, h3⟩ := mem_bufferChunks hc
    have := h (c.1 - ptr + j) (by omega)
    rwa [show ptr + (c.1 - ptr + j) = c.1 + j by omega] at this

end Sys2Proof.Machine
end

