-- ==== Sys2Proof/Laws/Strings.lean ====
section
/-! SUPPORT. The word-at-a-time string scan (R112): words without a terminator are folded in, the word with one ends
the scan, and no byte after the terminator reaches the digest. -/

namespace Sys2Proof.Machine

/-- Masking a word read from memory keeps its first k bytes (R82, R41). -/
theorem leNumber_bytesAt_mod (m : Memory) (a n k : Nat) (h : k ≤ n) :
    leNumber (m.bytesAt a n) % 2 ^ (8 * k) = leNumber (m.bytesAt a k) := by
  induction k generalizing a n with
  | zero => simp [Memory.bytesAt, leNumber, Nat.mod_one]
  | succ k ih =>
    obtain ⟨n, rfl⟩ : ∃ n', n = n' + 1 := ⟨n - 1, by omega⟩
    have e : 2 ^ (8 * (k + 1)) = 256 * 2 ^ (8 * k) := by rw [Nat.mul_add, Nat.pow_add, Nat.mul_comm]
    have hb : (m.byteAt a).toNat < 256 := (m.byteAt a).isLt
    rw [bytesAt_succ, bytesAt_succ, leNumber, leNumber, e, Nat.mod_mul, ← ih (a + 1) n (by omega)]
    have h1 : ((m.byteAt a).toNat + 256 * leNumber (m.bytesAt (a + 1) n)) % 256 = (m.byteAt a).toNat := by omega
    have h2 : ((m.byteAt a).toNat + 256 * leNumber (m.bytesAt (a + 1) n)) / 256 = leNumber (m.bytesAt (a + 1) n) := by
      omega
    rw [h1, h2]

/-- The bytes before the terminator are the word of that many bytes (R112). -/
theorem maskedWord_wordAt (W : Width) (s : State) (a i : Nat) (h : i ≤ W.bytes) :
    maskedWord W (wordAt W s a W.bytes) i = wordAt W s a i := by
  unfold maskedWord
  split
  · rename_i h0; subst h0; rw [wordAt_zero]
  · apply BitVec.eq_of_toNat_eq
    rw [maskTo_toNat W _ i h, wordAt_toNat W s a _ (Nat.le_refl _), wordAt_toNat W s a i h, leNumber_bytesAt_mod _ _ _ _ h]

/-- Byte j of a word read from memory is the byte at that address (R41). -/
theorem wordAt_byte (W : Width) (s : State) (a j : Nat) (h : j < W.bytes) :
    (wordAt W s a W.bytes).toNat / 2 ^ (8 * j) % 256 = (s.mem.byteAt (a + j)).toNat := by
  rw [wordAt_toNat W s a _ (Nat.le_refl _), leNumber_byte _ _ (by simpa using h)]
  simp [Memory.bytesAt]

/-- A granted full-word read: one access, the word (R42). -/
theorem memRead_word (W : Width) (s : State) (a : Nat) (h : Readable s a W.bytes) :
    memRead s a W.bytes = ⟨[⟨.read, a, W.bytes⟩], .ok (wordAt W s a W.bytes)⟩ := by
  rw [memRead_eq_readTail, readTail_granted W s a _ (Nat.le_refl _) h]

/-! ### The loop -/

/-- One word without a terminator is folded in, and the scan goes on with the next. -/
theorem stringLoop_step (cfg : Config) (W : Width) (s : State) (fuel a : Nat) (acc : BitVec W.bits)
    (h : Readable s a W.bytes) (hz : terminatorIn W (wordAt W s a W.bytes) = none) :
    stringLoop cfg W s (fuel + 1) a acc = (readTail W s a W.bytes).andThen fun w =>
      stringLoop cfg W s fuel (a + W.bytes) (combine2 cfg W acc w) := by
  rw [stringLoop, memRead_word W s a h, readTail_granted W s a _ (Nat.le_refl _) h]
  simp only [andThen_ok, hz]

/-- The word with a terminator at offset i ends the scan; only its first i bytes are folded in (R112). -/
theorem stringLoop_end (cfg : Config) (W : Width) (s : State) (fuel a i : Nat) (acc : BitVec W.bits)
    (h : Readable s a W.bytes) (hi : i ≤ W.bytes) (hz : terminatorIn W (wordAt W s a W.bytes) = some i) :
    stringLoop cfg W s (fuel + 1) a acc =
      ⟨[⟨.read, a, W.bytes⟩], .ok (combine2 cfg W acc (wordAt W s a i))⟩ := by
  rw [stringLoop, memRead_word W s a h, andThen_ok]
  simp only [hz, maskedWord_wordAt W s a i hi]
  rfl

/-- A word that cannot be read ends the scan with BusError (R46, R117). -/
theorem stringLoop_fails (cfg : Config) (W : Width) (s : State) (fuel a : Nat) (acc : BitVec W.bits)
    (h : ReadFails s a W.bytes) :
    stringLoop cfg W s (fuel + 1) a acc = ⟨presented .read a W.bytes, .error (busError a)⟩ := by
  rw [stringLoop, memRead_fails s a _ h, andThen_error]

/-- k words without a terminator: they are folded in, in order, and the scan goes on after them. -/
theorem stringLoop_words (cfg : Config) (W : Width) (s : State) (k fuel a : Nat) (acc : BitVec W.bits)
    (h : ∀ j < k, Readable s (chunkAddr W a j) W.bytes)
    (hz : ∀ j < k, terminatorIn W (wordAt W s (chunkAddr W a j) W.bytes) = none) :
    stringLoop cfg W s (k + fuel) a acc = (readChunks cfg W s (fullWords W a k) acc).andThen fun acc' =>
      stringLoop cfg W s fuel (chunkAddr W a k) acc' := by
  induction k generalizing a acc with
  | zero => simp [readChunks, chunkAddr]
  | succ k ih =>
    have hshift : ∀ j, chunkAddr W (a + W.bytes) j = chunkAddr W a (j + 1) := fun j => by
      simp only [chunkAddr]; ring
    have h0 := h 0 (by omega)
    have z0 := hz 0 (by omega)
    rw [show chunkAddr W a 0 = a by simp [chunkAddr]] at h0 z0
    rw [show k + 1 + fuel = (k + fuel) + 1 by omega, stringLoop_step cfg W s _ a acc h0 z0, fullWords_succ, readChunks,
      andThen_assoc]
    congr 1
    funext w
    rw [ih (a + W.bytes) _ (fun j hj => by rw [hshift]; exact h (j + 1) (by omega))
      (fun j hj => by rw [hshift]; exact hz (j + 1) (by omega)), hshift]

/-- The full words of a readable stretch, each folded in. -/
theorem readChunks_fullWords (cfg : Config) (W : Width) (s : State) (a k : Nat) (acc : BitVec W.bits)
    (h : ∀ j < k, Readable s (chunkAddr W a j) W.bytes) :
    readChunks cfg W s (fullWords W a k) acc =
      ⟨(List.range k).map (fun j => ⟨.read, chunkAddr W a j, W.bytes⟩),
       .ok ((List.range k).foldl (fun acc j => combine2 cfg W acc (wordAt W s (chunkAddr W a j) W.bytes)) acc)⟩ := by
  rw [readChunks_granted]
  · simp [fullWords, List.foldl_map]
  · intro c hc
    obtain ⟨j, hj, rfl⟩ := List.mem_map.1 hc
    exact ⟨Nat.le_refl _, h j (List.mem_range.1 hj)⟩

/-! ### The digest -/

/-- A terminator in the first word: one access, and the bytes before it scrambled (R112). -/
theorem stringDigest_first (cfg : Config) (W : Width) (s : State) (ptr i : Nat) (h : Readable s ptr W.bytes)
    (hi : i ≤ W.bytes) (hz : terminatorIn W (wordAt W s ptr W.bytes) = some i) :
    stringDigest cfg W s ptr = ⟨[⟨.read, ptr, W.bytes⟩], .ok (scramble cfg W (wordAt W s ptr i))⟩ := by
  rw [stringDigest, memRead_word W s ptr h, andThen_ok]
  simp only [hz, maskedWord_wordAt W s ptr i hi]
  rfl

/-- No terminator in the first word: that word, unmixed, is the accumulator of the loop (R112). -/
theorem stringDigest_long (cfg : Config) (W : Width) (s : State) (ptr : Nat) (h : Readable s ptr W.bytes)
    (hz : terminatorIn W (wordAt W s ptr W.bytes) = none) :
    stringDigest cfg W s ptr =
      ⟨⟨.read, ptr, W.bytes⟩ :: (stringLoop cfg W s addressSpace (ptr + W.bytes) (wordAt W s ptr W.bytes)).trace,
       (stringLoop cfg W s addressSpace (ptr + W.bytes) (wordAt W s ptr W.bytes)).result⟩ := by
  rw [stringDigest, memRead_word W s ptr h, andThen_ok]
  simp only [hz]
  rfl

/-- A first word that cannot be read. -/
theorem stringDigest_fails (cfg : Config) (W : Width) (s : State) (ptr : Nat) (h : ReadFails s ptr W.bytes) :
    stringDigest cfg W s ptr = ⟨presented .read ptr W.bytes, .error (busError ptr)⟩ := by
  rw [stringDigest, memRead_fails s ptr _ h, andThen_error]

/-- The scan raises no error but BusError. -/
theorem stringLoop_onlyBusErrors (cfg : Config) (W : Width) (s : State) (fuel a : Nat) (acc : BitVec W.bits) :
    OnlyBusErrors (stringLoop cfg W s fuel a acc) := by
  induction fuel generalizing a acc with
  | zero => intro e b h; simp [stringLoop, Run.stop, busError] at h; exact h.1.symm
  | succ fuel ih =>
    refine onlyBusErrors_andThen _ _ (onlyBusErrors_access _ _ _ _ _) fun w => ?_
    cases terminatorIn W w with
    | none => exact ih _ _
    | some i => exact onlyBusErrors_done _

/-- HASHSTR's computation raises no error but BusError (R144). -/
theorem stringDigest_onlyBusErrors (cfg : Config) (W : Width) (s : State) (ptr : Nat) :
    OnlyBusErrors (stringDigest cfg W s ptr) := by
  refine onlyBusErrors_andThen _ _ (onlyBusErrors_access _ _ _ _ _) fun w => ?_
  split
  · exact onlyBusErrors_done _
  · exact stringLoop_onlyBusErrors _ _ _ _ _ _

end Sys2Proof.Machine
end

