-- ==== Sys2Proof/Laws/Commands.lean ====
section
/-! SUPPORT. `exec` of a command at either width is its one operation over the width (R61, R102). -/

namespace Sys2Proof.Machine

theorem exec_magicAt (W : Width) (rd : Reg) (idx : BitVec 4) (s : State) :
    exec (magicAt W rd idx) s = magicCommand Config.hw W (cmdValue (magicAt W rd idx)) rd idx s := by
  cases W <;> rfl

theorem exec_maskAt (W : Width) (rd rs1 rs2 : Reg) (s : State) :
    exec (maskAt W rd rs1 rs2) s = maskCommand W (cmdValue (maskAt W rd rs1 rs2)) rd rs1 rs2 s := by
  cases W <;> rfl

theorem exec_mixAt (W : Width) (rd rs1 rs2 : Reg) (s : State) :
    exec (mixAt W rd rs1 rs2) s = mixCommand W rd rs1 rs2 s := by
  cases W <;> rfl

theorem exec_scrambleAt (W : Width) (rd rs1 : Reg) (s : State) :
    exec (scrambleAt W rd rs1) s = scrambleCommand Config.hw W rd rs1 s := by
  cases W <;> rfl

theorem exec_red2At (W : Width) (rd a b : Reg) (s : State) :
    exec (red2At W rd a b) s = red2Command W rd a b s := by
  cases W <;> rfl

theorem exec_red3At (W : Width) (rd a b c : Reg) (s : State) :
    exec (red3At W rd a b c) s = red3Command W rd a b c s := by
  cases W <;> rfl

theorem exec_red4At (W : Width) (rd a b c d : Reg) (s : State) :
    exec (red4At W rd a b c d) s = red4Command W rd a b c d s := by
  cases W <;> rfl

theorem exec_comb2At (W : Width) (rd a b : Reg) (s : State) :
    exec (comb2At W rd a b) s = comb2Command Config.hw W rd a b s := by
  cases W <;> rfl

theorem exec_comb3At (W : Width) (rd a b c : Reg) (s : State) :
    exec (comb3At W rd a b c) s = comb3Command Config.hw W rd a b c s := by
  cases W <;> rfl

theorem exec_comb4At (W : Width) (rd a b c d : Reg) (s : State) :
    exec (comb4At W rd a b c d) s = comb4Command Config.hw W rd a b c d s := by
  cases W <;> rfl

theorem exec_mczAt (W : Width) (rd rs1 : Reg) (s : State) :
    exec (mczAt W rd rs1) s = mczCommand W rd rs1 s := by
  cases W <;> rfl

theorem exec_hashbufAt (W : Width) (rd rs1 rs2 : Reg) (s : State) :
    exec (hashbufAt W rd rs1 rs2) s = hashbufCommand Config.hw W (cmdValue (hashbufAt W rd rs1 rs2)) rd rs1 rs2 s := by
  cases W <;> rfl

theorem exec_hashstrAt (W : Width) (rd rs1 : Reg) (s : State) :
    exec (hashstrAt W rd rs1) s = hashstrCommand Config.hw W (cmdValue (hashstrAt W rd rs1)) rd rs1 s := by
  cases W <;> rfl

theorem exec_hashseedAt (W : Width) (rs1 rs2 rs3 rs4 : Reg) (s : State) :
    exec (hashseedAt W rs1 rs2 rs3 rs4) s =
      hashseedCommand Config.hw W (cmdValue (hashseedAt W rs1 rs2 rs3 rs4)) rs1 rs2 rs3 rs4 s := by
  cases W <;> rfl

/-! ### What one command can do: one lemma per family, over every register, memory and the error latch -/

/-- How an accepted command can end: it completes with the effect `done`, or an error it may raise is entered. The
other agents' side of the state is out of a command's reach. -/
structure Ends (i : Instr) (s t : State) : Prop where
  map    : t.map = s.map
  events : t.events = s.events
  reply  : t.reply = s.reply
  draws  : t.draws = s.draws
  either :
    (t.err = s.err ∧ t.faddr = s.faddr ∧ t.fcmd = s.fcmd ∧ (∀ r : Reg, destination i ≠ some r → t.x[r] = s.x[r]) ∧
      (t.mem = s.mem ∨ ∃ (W : Width) (rs1 rs2 rs3 rs4 : Reg) (v : BitVec W.bits),
        i = hashseedAt W rs1 rs2 rs3 rs4 ∧ addressOf rs4 s + W.bytes ≤ addressSpace ∧
        (seededOutput Config.hw W s (addressOf rs1 s) (signedLengthOf rs2 s) (seedOf rs3 s)).result = .ok v ∧
        t.mem = s.mem.setBytes (addressOf rs4 s) (leBytes W.bytes v))) ∨
    ∃ e : ErrorKind, t.err = e.code ∧ t.fcmd = cmdValue i ∧ t.x = s.x ∧ t.mem = s.mem ∧
      (e = .illegalCommand → i.wellFormed = false) ∧ (e = .rangeError → canRaiseRange i = true) ∧
      (e = .busError → isDriver i = true) ∧ (e ≠ .busError → t.faddr = 0)

/-- Writing one register leaves the others alone. -/
theorem set_other (s : State) (rd r : Reg) (v : Word) (h : some rd ≠ some r) : (s.x.set rd v)[r] = s.x[r] :=
  getX_setX_other s rd r v fun e => h (congrArg some e)

/-- A command that writes its result into `rd` ends so. -/
theorem ends_of_write {i : Instr} {s : State} {rd : Reg} (v : Word) (b : List Access) (h : destination i = some rd) :
    Ends i s (State.setX { s with bus := b } rd v) where
  map := rfl
  events := rfl
  reply := rfl
  draws := rfl
  either := .inl ⟨rfl, rfl, rfl, fun r hr => set_other s rd r v (h ▸ hr), .inl rfl⟩

/-- An error entry ends a command so. -/
theorem ends_of_error {i : Instr} {s : State} (e : ErrorKind) (b : List Access) (a : Word)
    (h1 : e = .illegalCommand → i.wellFormed = false) (h2 : e = .rangeError → canRaiseRange i = true)
    (h3 : e = .busError → isDriver i = true) (h4 : e ≠ .busError → a = 0) :
    Ends i s (State.takeError { s with bus := b } e (cmdValue i) a) where
  map := rfl
  events := rfl
  reply := rfl
  draws := rfl
  either := .inr ⟨e, rfl, rfl, rfl, rfl, h1, h2, h3, h4⟩

theorem ends_magic {W : Width} {rd : Reg} {idx : BitVec 4} {s t : State}
    (h : magicCommand Config.hw W (cmdValue (magicAt W rd idx)) rd idx s = .next t) : Ends (magicAt W rd idx) s t := by
  unfold magicCommand at h
  split at h
  · cases h
    exact ends_of_write _ s.bus (by cases W <;> rfl)
  · rename_i hn
    cases h
    refine ends_of_error .illegalCommand s.bus 0 (fun _ => ?_) (by simp) (by simp) (fun _ => rfl)
    have hidx : ¬ idx ≤ 10 := by
      intro hle
      have hle : idx.toNat ≤ 10 := hle
      unfold magic at hn
      split at hn
      · cases hn
      · split at hn
        · cases hn
        · omega
    cases W <;> simpa [magicAt, Instr.wellFormed] using hidx

theorem ends_mask {W : Width} {rd rs1 rs2 : Reg} {s t : State}
    (h : maskCommand W (cmdValue (maskAt W rd rs1 rs2)) rd rs1 rs2 s = .next t) : Ends (maskAt W rd rs1 rs2) s t := by
  unfold maskCommand at h
  split at h
  · cases h
    exact ends_of_write _ s.bus (by cases W <;> rfl)
  · cases h
    exact ends_of_error .rangeError s.bus 0 (by simp) (fun _ => by cases W <;> rfl) (by simp) (fun _ => rfl)

/-- A size or length check fails only at W = 4 (R143). -/
theorem sizeTooLarge_w4 {W : Width} {n : Nat} (h : sizeTooLarge W n = true) : W = .w4 := by
  cases W
  · rfl
  · simp [sizeTooLarge] at h

/-- The errors of HASHBUF's computation: RangeError with no address, at W = 4 only, or BusError. -/
theorem bufferDigest_raises {cfg : Config} {W : Width} {s : State} {ptr size : Nat} {e : ErrorKind} {a : Word}
    (h : (bufferDigest cfg W s ptr size).result = .error (.raise e a)) :
    (e = .rangeError ∧ a = 0 ∧ W = .w4) ∨ e = .busError := by
  unfold bufferDigest at h
  split at h
  · rename_i hz
    simp only [Run.stop, Except.error.injEq, Stop.raise.injEq] at h
    exact .inl ⟨h.1.symm, h.2.symm, sizeTooLarge_w4 hz⟩
  · exact .inr (consume_onlyBusErrors _ _ _ _ _ _ _ _ h)

/-- The errors of HASHSEED's output: RangeError with no address, at W = 4 only, or BusError. -/
theorem seededOutput_raises {cfg : Config} {W : Width} {s : State} {key : Nat} {len : Int} {seed : BitVec 32}
    {e : ErrorKind} {a : Word} (h : (seededOutput cfg W s key len seed).result = .error (.raise e a)) :
    (e = .rangeError ∧ a = 0 ∧ W = .w4) ∨ e = .busError := by
  unfold seededOutput at h
  split at h
  · simp [Run.done] at h
  · split at h
    · rename_i hz
      simp only [Run.stop, Except.error.injEq, Stop.raise.injEq] at h
      exact .inl ⟨h.1.symm, h.2.symm, sizeTooLarge_w4 hz⟩
    · exact .inr (consume_onlyBusErrors _ _ _ _ _ _ _ _ h)

theorem ends_hashbuf {W : Width} {rd rs1 rs2 : Reg} {s t : State}
    (h : hashbufCommand Config.hw W (cmdValue (hashbufAt W rd rs1 rs2)) rd rs1 rs2 s = .next t) :
    Ends (hashbufAt W rd rs1 rs2) s t := by
  rcases conclude_next h with ⟨a, -, rfl⟩ | ⟨e, f, he, rfl⟩
  · exact ends_of_write _ _ (by cases W <;> rfl)
  · rcases bufferDigest_raises he with ⟨rfl, rfl, rfl⟩ | rfl
    · exact ends_of_error .rangeError _ 0 (by simp) (fun _ => rfl) (by simp) (fun _ => rfl)
    · exact ends_of_error .busError _ f (by simp) (by simp) (fun _ => by cases W <;> rfl) (by simp)

theorem ends_hashstr {W : Width} {rd rs1 : Reg} {s t : State}
    (h : hashstrCommand Config.hw W (cmdValue (hashstrAt W rd rs1)) rd rs1 s = .next t) :
    Ends (hashstrAt W rd rs1) s t := by
  rcases conclude_next h with ⟨a, -, rfl⟩ | ⟨e, f, he, rfl⟩
  · exact ends_of_write _ _ (by cases W <;> rfl)
  · have := stringDigest_onlyBusErrors _ _ _ _ _ _ he
    subst this
    exact ends_of_error .busError _ f (by simp) (by simp) (fun _ => by cases W <;> rfl) (by simp)

/-- A computation that is followed by another succeeds when both do. -/
theorem andThen_result_ok {α β : Type} {r : Run α} {f : α → Run β} {b : β} (h : (r.andThen f).result = .ok b) :
    ∃ a, r.result = .ok a ∧ (f a).result = .ok b := by
  obtain ⟨l, x | a⟩ := r
  · simp at h
  · exact ⟨a, rfl, h⟩

/-- A computation that is followed by another stops when one of them does. -/
theorem andThen_result_error {α β : Type} {r : Run α} {f : α → Run β} {e : Stop}
    (h : (r.andThen f).result = .error e) :
    r.result = .error e ∨ ∃ a, r.result = .ok a ∧ (f a).result = .error e := by
  obtain ⟨l, x | a⟩ := r
  · exact .inl (by simpa using h)
  · exact .inr ⟨a, rfl, h⟩

theorem ends_hashseed {W : Width} {rs1 rs2 rs3 rs4 : Reg} {s t : State}
    (h : hashseedCommand Config.hw W (cmdValue (hashseedAt W rs1 rs2 rs3 rs4)) rs1 rs2 rs3 rs4 s = .next t) :
    Ends (hashseedAt W rs1 rs2 rs3 rs4) s t := by
  rcases conclude_next h with ⟨m, hm, rfl⟩ | ⟨e, f, he, rfl⟩
  · obtain ⟨v, hv, hw⟩ := andThen_result_ok hm
    obtain ⟨hle, rfl⟩ := memWrite_ok _ _ _ _ _ hw
    exact ⟨rfl, rfl, rfl, rfl, .inl ⟨rfl, rfl, rfl, fun _ _ => rfl, .inr ⟨W, rs1, rs2, rs3, rs4, v, rfl, hle, hv, rfl⟩⟩⟩
  · rcases andThen_result_error he with he | ⟨v, -, hw⟩
    · rcases seededOutput_raises he with ⟨rfl, rfl, rfl⟩ | rfl
      · exact ends_of_error .rangeError _ 0 (by simp) (fun _ => rfl) (by simp) (fun _ => rfl)
      · exact ends_of_error .busError _ f (by simp) (by simp) (fun _ => by cases W <;> rfl) (by simp)
    · have := onlyBusErrors_access _ _ _ _ _ _ _ hw
      subst this
      exact ends_of_error .busError _ f (by simp) (by simp) (fun _ => by cases W <;> rfl) (by simp)

/-- Everything a command can do when it answers a next state (R140, R116). -/
theorem exec_next {i : Instr} {s t : State} (h : exec i s = .next t) : Ends i s t := by
  cases i with
  | magicW4 rd idx => exact ends_magic (W := .w4) h
  | magicW8 rd idx => exact ends_magic (W := .w8) h
  | maskW4 rd a b => exact ends_mask (W := .w4) h
  | maskW8 rd a b => exact ends_mask (W := .w8) h
  | mixW4 rd a b => cases h; exact ends_of_write _ s.bus rfl
  | mixW8 rd a b => cases h; exact ends_of_write _ s.bus rfl
  | scrambleW4 rd a => cases h; exact ends_of_write _ s.bus rfl
  | scrambleW8 rd a => cases h; exact ends_of_write _ s.bus rfl
  | red2W4 rd a b => cases h; exact ends_of_write _ s.bus rfl
  | red2W8 rd a b => cases h; exact ends_of_write _ s.bus rfl
  | red3W4 rd a b c => cases h; exact ends_of_write _ s.bus rfl
  | red3W8 rd a b c => cases h; exact ends_of_write _ s.bus rfl
  | red4W4 rd a b c d => cases h; exact ends_of_write _ s.bus rfl
  | red4W8 rd a b c d => cases h; exact ends_of_write _ s.bus rfl
  | comb2W4 rd a b => cases h; exact ends_of_write _ s.bus rfl
  | comb2W8 rd a b => cases h; exact ends_of_write _ s.bus rfl
  | comb3W4 rd a b c => cases h; exact ends_of_write _ s.bus rfl
  | comb3W8 rd a b c => cases h; exact ends_of_write _ s.bus rfl
  | comb4W4 rd a b c d => cases h; exact ends_of_write _ s.bus rfl
  | comb4W8 rd a b c d => cases h; exact ends_of_write _ s.bus rfl
  | mczW4 rd a => cases h; exact ends_of_write _ s.bus rfl
  | mczW8 rd a => cases h; exact ends_of_write _ s.bus rfl
  | hashbufW4 rd a b => exact ends_hashbuf (W := .w4) h
  | hashbufW8 rd a b => exact ends_hashbuf (W := .w8) h
  | hashstrW4 rd a => exact ends_hashstr (W := .w4) h
  | hashstrW8 rd a => exact ends_hashstr (W := .w8) h
  | hashseedW4 a b c d => exact ends_hashseed (W := .w4) h
  | hashseedW8 a b c d => exact ends_hashseed (W := .w8) h

end Sys2Proof.Machine
end

