-- ==== Sys2Proof/Laws/Decode.lean ====
section
/-! SUPPORT. The laws of the format (R60 to R63): cutting undoes laying out, and each table inverts. -/

namespace Sys2Proof

/-- The fields cut from a word laid out from fields are those fields (R60). -/
theorem cutFields_word (f : Fields) : cutFields f.word = f := by
  obtain ⟨op, w, rd, rs1, rs2, rs3, rs4, idx, zero⟩ := f
  simp only [cutFields, Fields.word, Fields.mk.injEq]
  refine ⟨?_, ?_, ?_, ?_, ?_, ?_, ?_, ?_, ?_⟩ <;>
    change @BitVec.extractLsb' (6 + 4 + 3 + 3 + 3 + 3 + 3 + 1 + 6) _ _ _ = _ <;>
    apply BitVec.eq_of_getLsbD_eq <;> intro i hi <;>
    simp only [BitVec.getLsbD_extractLsb', BitVec.getLsbD_append] <;>
    interval_cases i <;> simp

/-- A word is laid out from the fields cut from it (R60: the nine fields cover the 32 bits). -/
theorem word_cutFields (c : BitVec 32) : (cutFields c).word = c := by
  apply BitVec.eq_of_getLsbD_eq
  intro i hi
  change @BitVec.getLsbD (6 + 4 + 3 + 3 + 3 + 3 + 3 + 1 + 6) (cutFields c).word i = _
  simp only [cutFields, Fields.word, BitVec.getLsbD_append, BitVec.getLsbD_extractLsb']
  interval_cases i <;> simp

@[simp] theorem regOf_regBits (r : Reg) : regOf (regBits r) = r := by revert r; decide
@[simp] theorem regBits_regOf (b : BitVec 3) : regBits (regOf b) = b := by revert b; decide
@[simp] theorem widthOf_widthBit (W : Width) : widthOf (widthBit W) = W := by cases W <;> decide
@[simp] theorem widthBit_widthOf (b : BitVec 1) : widthBit (widthOf b) = b := by revert b; decide
@[simp] theorem regBits_zero : regBits 0 = 0 := by decide
@[simp] theorem opcodeOf_code (o : Opcode) : opcodeOf o.code = some o := by cases o <;> decide

/-- The opcode found for an `op` value has that value as its code (R62). -/
theorem code_of_opcodeOf (op : BitVec 6) (o : Opcode) (h : opcodeOf op = some o) : o.code = op := by
  revert op o; decide

/-- Bits [63:32] of the value written for a command are 0 (R60). -/
@[simp] theorem cmdValue_high (i : Instr) : (cmdValue i).extractLsb' 32 32 = 0 := by
  apply BitVec.eq_of_getLsbD_eq
  intro j hj
  simp [cmdValue]

/-- Bits [31:0] of the value written for a command are its word (R60). -/
@[simp] theorem cmdValue_low (i : Instr) : (cmdValue i).extractLsb' 0 32 = encode i := by
  apply BitVec.eq_of_getLsbD_eq
  intro j hj
  simp [cmdValue, hj]
  omega

/-- A 64-bit value is its two halves. -/
theorem eq_of_halves (v : Word) (h : v.extractLsb' 32 32 = 0) : (v.extractLsb' 0 32).setWidth 64 = v := by
  apply BitVec.eq_of_getLsbD_eq
  intro j hj
  by_cases hlt : j < 32
  · simp [hlt]; omega
  · have := congrArg (fun b => b.getLsbD (j - 32)) h
    have e : 32 + (j - 32) = j := by omega
    have l : j - 32 < 32 := by omega
    simp [e, l] at this
    simp [hlt, this]

/-- Everything a legal verdict says (R70): the high half is 0, `zero` is 0, the opcode is in R62, every unused field is
0, MAGIC's index is at most 10, and the command is the one the fields stand for. -/
theorem decode_legal {v : Word} {i : Instr} (h : decode v = .legal i) :
    v.extractLsb' 32 32 = 0 ∧ ∃ o, (cutFields (v.extractLsb' 0 32)).zero = 0 ∧
      opcodeOf (cutFields (v.extractLsb' 0 32)).op = some o ∧
      (cutFields (v.extractLsb' 0 32)).unusedAreZero o.uses = true ∧
      (cutFields (v.extractLsb' 0 32)).indexIsLegal o = true ∧
      i = commandOf o (widthOf (cutFields (v.extractLsb' 0 32)).w) (cutFields (v.extractLsb' 0 32)) := by
  unfold decode at h
  split at h
  · simp at h
  · rename_i hh
    refine ⟨by simpa using hh, ?_⟩
    generalize cutFields (v.extractLsb' 0 32) = f at h
    unfold decodeFields at h
    split at h
    · simp at h
    · rename_i hz
      split at h
      · simp at h
      · rename_i o ho
        split at h
        · simp at h
        · split at h
          · simp at h
          · rename_i hu hi
            exact ⟨o, by simpa using hz, ho, by simpa using hu, by simpa using hi, by simpa using h.symm⟩

/-- The fields of the command that legal fields stand for are those fields (R63). -/
theorem fields_commandOf (f : Fields) (o : Opcode) (hz : f.zero = 0) (ho : opcodeOf f.op = some o)
    (hu : f.unusedAreZero o.uses = true) : (commandOf o (widthOf f.w) f).fields = f := by
  have hop := code_of_opcodeOf _ _ ho
  have hw := widthBit_widthOf f.w
  obtain ⟨op, w, rd, rs1, rs2, rs3, rs4, idx, zero⟩ := f
  simp only at hz hop hw
  subst hz; subst hop
  generalize widthOf w = W at *
  subst hw
  cases o <;> cases W <;> simp_all [Fields.unusedAreZero, Opcode.uses, commandOf, Instr.fields, fieldsOf]

end Sys2Proof
end

