-- ==== Sys2Proof/Laws/PerInstr.lean ====
section
/-! SUPPORT. The family EncodedWord, one lemma per constructor of Instr: the fields cut from a command's word are those
R63 gives it, its opcode is in R62, every unused field is 0, and the fields stand for the command. -/

namespace Sys2Proof.Laws.EncodedWord

/-- What the family says of one command (R60 to R63). -/
def Statement (i : Instr) : Prop :=
  cutFields (encode i) = i.fields ∧ i.fields.zero = 0 ∧
    ∃ o, opcodeOf i.fields.op = some o ∧ i.fields.unusedAreZero o.uses = true ∧
      commandOf o (widthOf i.fields.w) i.fields = i

theorem magicW4 (a : Reg) (b : BitVec 4) : Statement (.magicW4 a b) :=
  ⟨cutFields_word _, rfl, .magic, opcodeOf_code .magic, by simp [Instr.fields, fieldsOf, Fields.unusedAreZero, Opcode.uses],
    by simp [Instr.fields, fieldsOf, commandOf]⟩
theorem magicW8 (a : Reg) (b : BitVec 4) : Statement (.magicW8 a b) :=
  ⟨cutFields_word _, rfl, .magic, opcodeOf_code .magic, by simp [Instr.fields, fieldsOf, Fields.unusedAreZero, Opcode.uses],
    by simp [Instr.fields, fieldsOf, commandOf]⟩
theorem maskW4 (a b c : Reg) : Statement (.maskW4 a b c) :=
  ⟨cutFields_word _, rfl, .mask, opcodeOf_code .mask, by simp [Instr.fields, fieldsOf, Fields.unusedAreZero, Opcode.uses],
    by simp [Instr.fields, fieldsOf, commandOf]⟩
theorem maskW8 (a b c : Reg) : Statement (.maskW8 a b c) :=
  ⟨cutFields_word _, rfl, .mask, opcodeOf_code .mask, by simp [Instr.fields, fieldsOf, Fields.unusedAreZero, Opcode.uses],
    by simp [Instr.fields, fieldsOf, commandOf]⟩
theorem mixW4 (a b c : Reg) : Statement (.mixW4 a b c) :=
  ⟨cutFields_word _, rfl, .mix, opcodeOf_code .mix, by simp [Instr.fields, fieldsOf, Fields.unusedAreZero, Opcode.uses],
    by simp [Instr.fields, fieldsOf, commandOf]⟩
theorem mixW8 (a b c : Reg) : Statement (.mixW8 a b c) :=
  ⟨cutFields_word _, rfl, .mix, opcodeOf_code .mix, by simp [Instr.fields, fieldsOf, Fields.unusedAreZero, Opcode.uses],
    by simp [Instr.fields, fieldsOf, commandOf]⟩
theorem scrambleW4 (a b : Reg) : Statement (.scrambleW4 a b) :=
  ⟨cutFields_word _, rfl, .scramble, opcodeOf_code .scramble, by simp [Instr.fields, fieldsOf, Fields.unusedAreZero, Opcode.uses],
    by simp [Instr.fields, fieldsOf, commandOf]⟩
theorem scrambleW8 (a b : Reg) : Statement (.scrambleW8 a b) :=
  ⟨cutFields_word _, rfl, .scramble, opcodeOf_code .scramble, by simp [Instr.fields, fieldsOf, Fields.unusedAreZero, Opcode.uses],
    by simp [Instr.fields, fieldsOf, commandOf]⟩
theorem red2W4 (a b c : Reg) : Statement (.red2W4 a b c) :=
  ⟨cutFields_word _, rfl, .red2, opcodeOf_code .red2, by simp [Instr.fields, fieldsOf, Fields.unusedAreZero, Opcode.uses],
    by simp [Instr.fields, fieldsOf, commandOf]⟩
theorem red2W8 (a b c : Reg) : Statement (.red2W8 a b c) :=
  ⟨cutFields_word _, rfl, .red2, opcodeOf_code .red2, by simp [Instr.fields, fieldsOf, Fields.unusedAreZero, Opcode.uses],
    by simp [Instr.fields, fieldsOf, commandOf]⟩
theorem red3W4 (a b c d : Reg) : Statement (.red3W4 a b c d) :=
  ⟨cutFields_word _, rfl, .red3, opcodeOf_code .red3, by simp [Instr.fields, fieldsOf, Fields.unusedAreZero, Opcode.uses],
    by simp [Instr.fields, fieldsOf, commandOf]⟩
theorem red3W8 (a b c d : Reg) : Statement (.red3W8 a b c d) :=
  ⟨cutFields_word _, rfl, .red3, opcodeOf_code .red3, by simp [Instr.fields, fieldsOf, Fields.unusedAreZero, Opcode.uses],
    by simp [Instr.fields, fieldsOf, commandOf]⟩
theorem red4W4 (a b c d e : Reg) : Statement (.red4W4 a b c d e) :=
  ⟨cutFields_word _, rfl, .red4, opcodeOf_code .red4, by simp [Instr.fields, fieldsOf, Fields.unusedAreZero, Opcode.uses],
    by simp [Instr.fields, fieldsOf, commandOf]⟩
theorem red4W8 (a b c d e : Reg) : Statement (.red4W8 a b c d e) :=
  ⟨cutFields_word _, rfl, .red4, opcodeOf_code .red4, by simp [Instr.fields, fieldsOf, Fields.unusedAreZero, Opcode.uses],
    by simp [Instr.fields, fieldsOf, commandOf]⟩
theorem comb2W4 (a b c : Reg) : Statement (.comb2W4 a b c) :=
  ⟨cutFields_word _, rfl, .comb2, opcodeOf_code .comb2, by simp [Instr.fields, fieldsOf, Fields.unusedAreZero, Opcode.uses],
    by simp [Instr.fields, fieldsOf, commandOf]⟩
theorem comb2W8 (a b c : Reg) : Statement (.comb2W8 a b c) :=
  ⟨cutFields_word _, rfl, .comb2, opcodeOf_code .comb2, by simp [Instr.fields, fieldsOf, Fields.unusedAreZero, Opcode.uses],
    by simp [Instr.fields, fieldsOf, commandOf]⟩
theorem comb3W4 (a b c d : Reg) : Statement (.comb3W4 a b c d) :=
  ⟨cutFields_word _, rfl, .comb3, opcodeOf_code .comb3, by simp [Instr.fields, fieldsOf, Fields.unusedAreZero, Opcode.uses],
    by simp [Instr.fields, fieldsOf, commandOf]⟩
theorem comb3W8 (a b c d : Reg) : Statement (.comb3W8 a b c d) :=
  ⟨cutFields_word _, rfl, .comb3, opcodeOf_code .comb3, by simp [Instr.fields, fieldsOf, Fields.unusedAreZero, Opcode.uses],
    by simp [Instr.fields, fieldsOf, commandOf]⟩
theorem comb4W4 (a b c d e : Reg) : Statement (.comb4W4 a b c d e) :=
  ⟨cutFields_word _, rfl, .comb4, opcodeOf_code .comb4, by simp [Instr.fields, fieldsOf, Fields.unusedAreZero, Opcode.uses],
    by simp [Instr.fields, fieldsOf, commandOf]⟩
theorem comb4W8 (a b c d e : Reg) : Statement (.comb4W8 a b c d e) :=
  ⟨cutFields_word _, rfl, .comb4, opcodeOf_code .comb4, by simp [Instr.fields, fieldsOf, Fields.unusedAreZero, Opcode.uses],
    by simp [Instr.fields, fieldsOf, commandOf]⟩
theorem mczW4 (a b : Reg) : Statement (.mczW4 a b) :=
  ⟨cutFields_word _, rfl, .mcz, opcodeOf_code .mcz, by simp [Instr.fields, fieldsOf, Fields.unusedAreZero, Opcode.uses],
    by simp [Instr.fields, fieldsOf, commandOf]⟩
theorem mczW8 (a b : Reg) : Statement (.mczW8 a b) :=
  ⟨cutFields_word _, rfl, .mcz, opcodeOf_code .mcz, by simp [Instr.fields, fieldsOf, Fields.unusedAreZero, Opcode.uses],
    by simp [Instr.fields, fieldsOf, commandOf]⟩
theorem hashbufW4 (a b c : Reg) : Statement (.hashbufW4 a b c) :=
  ⟨cutFields_word _, rfl, .hashbuf, opcodeOf_code .hashbuf, by simp [Instr.fields, fieldsOf, Fields.unusedAreZero, Opcode.uses],
    by simp [Instr.fields, fieldsOf, commandOf]⟩
theorem hashbufW8 (a b c : Reg) : Statement (.hashbufW8 a b c) :=
  ⟨cutFields_word _, rfl, .hashbuf, opcodeOf_code .hashbuf, by simp [Instr.fields, fieldsOf, Fields.unusedAreZero, Opcode.uses],
    by simp [Instr.fields, fieldsOf, commandOf]⟩
theorem hashstrW4 (a b : Reg) : Statement (.hashstrW4 a b) :=
  ⟨cutFields_word _, rfl, .hashstr, opcodeOf_code .hashstr, by simp [Instr.fields, fieldsOf, Fields.unusedAreZero, Opcode.uses],
    by simp [Instr.fields, fieldsOf, commandOf]⟩
theorem hashstrW8 (a b : Reg) : Statement (.hashstrW8 a b) :=
  ⟨cutFields_word _, rfl, .hashstr, opcodeOf_code .hashstr, by simp [Instr.fields, fieldsOf, Fields.unusedAreZero, Opcode.uses],
    by simp [Instr.fields, fieldsOf, commandOf]⟩
theorem hashseedW4 (a b c d : Reg) : Statement (.hashseedW4 a b c d) :=
  ⟨cutFields_word _, rfl, .hashseed, opcodeOf_code .hashseed, by simp [Instr.fields, fieldsOf, Fields.unusedAreZero, Opcode.uses],
    by simp [Instr.fields, fieldsOf, commandOf]⟩
theorem hashseedW8 (a b c d : Reg) : Statement (.hashseedW8 a b c d) :=
  ⟨cutFields_word _, rfl, .hashseed, opcodeOf_code .hashseed, by simp [Instr.fields, fieldsOf, Fields.unusedAreZero, Opcode.uses],
    by simp [Instr.fields, fieldsOf, commandOf]⟩

end Sys2Proof.Laws.EncodedWord

namespace Sys2Proof.Laws

/-- The family for every command. -/
theorem encodedWord_every (i : Instr) : EncodedWord.Statement i := by
  cases i with
  | magicW4 a b => exact EncodedWord.magicW4 a b
  | magicW8 a b => exact EncodedWord.magicW8 a b
  | maskW4 a b c => exact EncodedWord.maskW4 a b c
  | maskW8 a b c => exact EncodedWord.maskW8 a b c
  | mixW4 a b c => exact EncodedWord.mixW4 a b c
  | mixW8 a b c => exact EncodedWord.mixW8 a b c
  | scrambleW4 a b => exact EncodedWord.scrambleW4 a b
  | scrambleW8 a b => exact EncodedWord.scrambleW8 a b
  | red2W4 a b c => exact EncodedWord.red2W4 a b c
  | red2W8 a b c => exact EncodedWord.red2W8 a b c
  | red3W4 a b c d => exact EncodedWord.red3W4 a b c d
  | red3W8 a b c d => exact EncodedWord.red3W8 a b c d
  | red4W4 a b c d e => exact EncodedWord.red4W4 a b c d e
  | red4W8 a b c d e => exact EncodedWord.red4W8 a b c d e
  | comb2W4 a b c => exact EncodedWord.comb2W4 a b c
  | comb2W8 a b c => exact EncodedWord.comb2W8 a b c
  | comb3W4 a b c d => exact EncodedWord.comb3W4 a b c d
  | comb3W8 a b c d => exact EncodedWord.comb3W8 a b c d
  | comb4W4 a b c d e => exact EncodedWord.comb4W4 a b c d e
  | comb4W8 a b c d e => exact EncodedWord.comb4W8 a b c d e
  | mczW4 a b => exact EncodedWord.mczW4 a b
  | mczW8 a b => exact EncodedWord.mczW8 a b
  | hashbufW4 a b c => exact EncodedWord.hashbufW4 a b c
  | hashbufW8 a b c => exact EncodedWord.hashbufW8 a b c
  | hashstrW4 a b => exact EncodedWord.hashstrW4 a b
  | hashstrW8 a b => exact EncodedWord.hashstrW8 a b
  | hashseedW4 a b c d => exact EncodedWord.hashseedW4 a b c d
  | hashseedW8 a b c d => exact EncodedWord.hashseedW8 a b c d

end Sys2Proof.Laws
end

