-- ==== Sys2Proof/Laws/Step.lean ====
section
/-! SUPPORT. What a step can do: the stores of other agents and of an abandoned command byte by byte, and one inversion
lemma for a CMD write and for a step. -/

namespace Sys2Proof.Machine

/-! ### Stores that may or may not be seen (R51, R171) -/

/-- Addresses strictly rising: the part of the canonical form that reading a byte back needs. -/
abbrev Rising (m : Memory) : Prop := m.Pairwise fun c d => c.1 < d.1

theorem racedView_rising (stores : List (Word × Byte)) (k : Nat) (m : Memory) (h : Rising m) :
    Rising (racedView k stores m) := by
  induction stores generalizing k m with
  | nil => exact h
  | cons c cs ih =>
    rw [racedView]
    split
    · exact ih _ _ (pairwise_set m _ _ h)
    · exact ih _ _ h

theorem racedView_wf (stores : List (Word × Byte)) (k : Nat) (m : Memory) (h : m.wf = true) :
    (racedView k stores m).wf = true := by
  induction stores generalizing k m with
  | nil => exact h
  | cons c cs ih =>
    rw [racedView]
    split
    · exact ih _ _ (wf_set m _ _ h c.1.isLt)
    · exact ih _ _ h

/-- Each byte a command sees is the old one or one that was stored there (R45, R51). -/
theorem racedView_byteAt (stores : List (Word × Byte)) (k : Nat) (m : Memory) (h : Rising m) (a : Nat) :
    (racedView k stores m).byteAt a = m.byteAt a ∨
      ∃ w b, (w, b) ∈ stores ∧ w.toNat = a ∧ (racedView k stores m).byteAt a = b := by
  induction stores generalizing k m with
  | nil => exact .inl rfl
  | cons c cs ih =>
    obtain ⟨w, b⟩ := c
    rw [racedView]
    split
    · rcases ih (k + 1) _ (pairwise_set m w.toNat b h) with hi | ⟨w', b', hm, hw, hb⟩
      · rw [byteAt_set m h] at hi
        by_cases ha : a = w.toNat
        · rw [if_pos ha] at hi; exact .inr ⟨w, b, by simp, ha.symm, hi⟩
        · rw [if_neg ha] at hi; exact .inl hi
      · exact .inr ⟨w', b', by simp [hm], hw, hb⟩
    · rcases ih (k + 1) m h with hi | ⟨w', b', hm, hw, hb⟩
      · exact .inl hi
      · exact .inr ⟨w', b', by simp [hm], hw, hb⟩

theorem settleStores_wf (written : List Nat) (stores : List (Word × Byte)) (k : Nat) (m : Memory) (h : m.wf = true) :
    (settleStores k written stores m).wf = true := by
  induction stores generalizing k m with
  | nil => exact h
  | cons c cs ih =>
    rw [settleStores]
    split
    · exact ih _ _ h
    · exact ih _ _ (wf_set m _ _ h c.1.isLt)

/-- An address no agent stored to keeps its byte. -/
theorem settleStores_byteAt_other (written : List Nat) (stores : List (Word × Byte)) (k : Nat) (m : Memory)
    (h : Rising m) (a : Nat) (ha : ∀ w b, (w, b) ∈ stores → w.toNat ≠ a) :
    (settleStores k written stores m).byteAt a = m.byteAt a := by
  induction stores generalizing k m with
  | nil => rfl
  | cons c cs ih =>
    have hcs : ∀ w b, (w, b) ∈ cs → w.toNat ≠ a := fun w b hm => ha w b (by simp [hm])
    have hc : a ≠ c.1.toNat := fun e => ha c.1 c.2 (by simp) e.symm
    rw [settleStores]
    split
    · exact ih _ _ h hcs
    · rw [ih _ _ (pairwise_set m _ _ h) hcs, byteAt_set m h, if_neg hc]

/-- An address the command does not write ends as the agents' stores leave it. -/
theorem settleStores_byteAt (written : List Nat) (stores : List (Word × Byte)) (k : Nat) (m m' : Memory)
    (h : Rising m) (h' : Rising m') (a : Nat) (ha : a ∉ written)
    (hm : m.byteAt a = m'.byteAt a ∨ ∃ w b, (w, b) ∈ stores ∧ w.toNat = a) :
    (settleStores k written stores m).byteAt a =
      (stores.foldl (fun m c => m.set c.1.toNat c.2) m').byteAt a := by
  induction stores generalizing k m m' with
  | nil => simpa [settleStores] using hm
  | cons c cs ih =>
    obtain ⟨w, b⟩ := c
    rw [settleStores, List.foldl_cons]
    split
    · rename_i hw
      have hin : w.toNat ∈ written := by
        simp only [Bool.and_eq_true] at hw
        exact List.contains_iff_mem.1 hw.1
      have hne : a ≠ w.toNat := fun e => ha (e ▸ hin)
      refine ih _ _ _ h (pairwise_set m' _ _ h') ?_
      rw [byteAt_set m' h', if_neg hne]
      rcases hm with hm | ⟨w', b', hin', hw'⟩
      · exact .inl hm
      · rcases List.mem_cons.1 hin' with hc | hc
        · cases hc; exact absurd hw'.symm hne
        · exact .inr ⟨w', b', hc, hw'⟩
    · refine ih _ _ _ (pairwise_set m _ _ h) (pairwise_set m' _ _ h') ?_
      rw [byteAt_set m h, byteAt_set m' h']
      by_cases hne : a = w.toNat
      · exact .inl (by rw [if_pos hne, if_pos hne])
      · rw [if_neg hne, if_neg hne]
        rcases hm with hm | ⟨w', b', hin', hw'⟩
        · exact .inl hm
        · rcases List.mem_cons.1 hin' with hc | hc
          · cases hc; exact absurd hw'.symm hne
          · exact .inr ⟨w', b', hc, hw'⟩

theorem abandonedStores_wf (stores : List (Nat × Byte)) (k : Nat) (m : Memory) (h : m.wf = true)
    (hs : ∀ c ∈ stores, c.1 < addressSpace) : (abandonedStores k stores m).wf = true := by
  induction stores generalizing k m with
  | nil => exact h
  | cons c cs ih =>
    obtain ⟨hc, hcs⟩ := List.forall_mem_cons.1 hs
    rw [abandonedStores]
    split
    · exact ih _ _ (wf_set m _ _ h hc) hcs
    · exact ih _ _ h hcs

/-- Each byte after an abandoned write is the old one or the one the write would have set (R171). -/
theorem abandonedStores_byteAt (stores : List (Nat × Byte)) (k : Nat) (m : Memory) (h : Rising m) (a : Nat) :
    (abandonedStores k stores m).byteAt a = m.byteAt a ∨
      ∃ b, (a, b) ∈ stores ∧ (abandonedStores k stores m).byteAt a = b := by
  induction stores generalizing k m with
  | nil => exact .inl rfl
  | cons c cs ih =>
    obtain ⟨a', b⟩ := c
    rw [abandonedStores]
    split
    · rcases ih (k + 1) _ (pairwise_set m a' b h) with hi | ⟨b', hm, hb⟩
      · rw [byteAt_set m h] at hi
        by_cases ha : a = a'
        · rw [if_pos ha] at hi; exact .inr ⟨b, by simp [ha], hi⟩
        · rw [if_neg ha] at hi; exact .inl hi
      · exact .inr ⟨b', by simp [hm], hb⟩
    · rcases ih (k + 1) m h with hi | ⟨b', hm, hb⟩
      · exact .inl hi
      · exact .inr ⟨b', by simp [hm], hb⟩

/-! ### What a command writes (R116) -/

/-- The stores of a seeded output are the W bytes at the output address. -/
theorem seededUse_stores {W : Width} {out : Nat} {r : Run (BitVec W.bits)} {c : Nat × Byte}
    (h : c ∈ (seededUse W out r).stores) :
    ∃ v, r.result = .ok v ∧ ∃ j < W.bytes, c = (out + j, v.extractLsb' (8 * j) 8) := by
  unfold seededUse at h
  simp only at h
  split at h
  · rename_i v hv
    obtain ⟨j, hj, rfl⟩ := List.mem_map.1 h
    exact ⟨v, hv, j, List.mem_range.1 hj, rfl⟩
  · cases h

/-- Every byte a command may write is one the statements' `storesTo` names. -/
theorem memoryUse_storesTo {i : Instr} {s : State} {c : Nat × Byte}
    (h : c ∈ (memoryUse Config.hw i s).stores) : storesTo i s c.1 := by
  cases i
  case hashseedW4 => obtain ⟨v, -, j, hj, rfl⟩ := seededUse_stores h; exact ⟨Nat.le_add_right _ _, Nat.add_lt_add_left hj _⟩
  case hashseedW8 => obtain ⟨v, -, j, hj, rfl⟩ := seededUse_stores h; exact ⟨Nat.le_add_right _ _, Nat.add_lt_add_left hj _⟩
  all_goals cases h

/-- A command writes no byte outside the ones it stores to. -/
theorem exec_mem_frame {i : Instr} {s t : State} (hm : Rising s.mem) (h : exec i s = .next t) (a : Nat)
    (ha : ¬ storesTo i s a) : t.mem.byteAt a = s.mem.byteAt a := by
  rcases (exec_next h).either with ⟨-, -, -, -, he | ⟨W, rs1, rs2, rs3, rs4, v, rfl, -, -, he⟩⟩ | ⟨e, -, -, -, he, -⟩
  · rw [he]
  · rw [he, byteAt_setBytes _ _ hm, dif_neg]
    rw [leBytes_length]
    intro hin
    cases W <;> exact ha hin
  · rw [he]

/-- A command keeps memory canonical (R40). -/
theorem exec_keeps_wf {i : Instr} {s t : State} (hm : s.mem.wf = true) (h : exec i s = .next t) :
    t.mem.wf = true := by
  rcases (exec_next h).either with ⟨-, -, -, -, he | ⟨W, rs1, rs2, rs3, rs4, v, rfl, hle, -, he⟩⟩ | ⟨e, -, -, -, he, -⟩
  · rw [he]; exact hm
  · rw [he]; exact wf_setBytes _ _ _ hm (by rwa [leBytes_length])
  · rw [he]; exact hm

/-- What an abandoned write may leave is what the completed command writes (R171). -/
theorem memoryUse_stores_of_next {i : Instr} {s t : State} (h : exec i s = .next t) (ht : t.err = 0)
    (hm : Rising s.mem) {c : Nat × Byte} (hc : c ∈ (memoryUse Config.hw i s).stores) :
    c.1 < addressSpace ∧ t.mem.byteAt c.1 = c.2 := by
  have key : ∀ (W : Width) (rs1 rs2 rs3 rs4 : Reg), i = hashseedAt W rs1 rs2 rs3 rs4 →
      c ∈ (seededUse W (addressOf rs4 s) (seededOutput Config.hw W s (addressOf rs1 s) (signedLengthOf rs2 s)
        (seedOf rs3 s))).stores → c.1 < addressSpace ∧ t.mem.byteAt c.1 = c.2 := by
    rintro W rs1 rs2 rs3 rs4 rfl hc
    obtain ⟨v, hv, j, hj, rfl⟩ := seededUse_stores hc
    rw [exec_hashseedAt] at h
    rcases conclude_next h with ⟨m, hm', rfl⟩ | ⟨e, f, -, rfl⟩
    · obtain ⟨v', hv', hw⟩ := andThen_result_ok hm'
      obtain rfl : v = v' := by rw [hv] at hv'; exact Except.ok.inj hv'
      obtain ⟨hle, rfl⟩ := memWrite_ok _ _ _ _ _ hw
      refine ⟨by show addressOf rs4 s + j < addressSpace; omega, ?_⟩
      show (s.mem.setBytes _ _).byteAt _ = _
      rw [byteAt_setBytes _ _ hm, dif_pos (by rw [leBytes_length]; omega)]
      simp
    · exact absurd ht (code_ne_zero e)
  cases i
  case hashseedW4 a b c' d => exact key .w4 a b c' d rfl hc
  case hashseedW8 a b c' d => exact key .w8 a b c' d rfl hc
  all_goals cases hc

/-- A write that is never answered lies inside the address space. -/
theorem memoryUse_stores_of_fault {i : Instr} {s : State} {f : Fault} (h : exec i s = .fault f) {c : Nat × Byte}
    (hc : c ∈ (memoryUse Config.hw i s).stores) : c.1 < addressSpace := by
  have key : ∀ (W : Width) (rs1 rs2 rs3 rs4 : Reg), i = hashseedAt W rs1 rs2 rs3 rs4 →
      c ∈ (seededUse W (addressOf rs4 s) (seededOutput Config.hw W s (addressOf rs1 s) (signedLengthOf rs2 s)
        (seedOf rs3 s))).stores → c.1 < addressSpace := by
    rintro W rs1 rs2 rs3 rs4 rfl hc
    obtain ⟨v, hv, j, hj, rfl⟩ := seededUse_stores hc
    show addressOf rs4 s + j < addressSpace
    by_contra hge
    have hpass : addressOf rs4 s + W.bytes > addressSpace := by omega
    rw [exec_hashseedAt, hashseedCommand, conclude] at h
    have hr : ((seededOutput Config.hw W s (addressOf rs1 s) (signedLengthOf rs2 s) (seedOf rs3 s)).andThen fun v =>
        memWrite s (addressOf rs4 s) W.bytes v).result = .error (busError (addressOf rs4 s)) := by
      simp only [Run.andThen, hv, memWrite_fails s _ _ v (.inl hpass)]
    rw [hr] at h
    simp [busError] at h
  cases i
  case hashseedW4 a b c' d => exact key .w4 a b c' d rfl hc
  case hashseedW8 a b c' d => exact key .w8 a b c' d rfl hc
  all_goals cases hc

/-! ### A CMD write -/

/-- Everything a CMD write can do when it answers a next state (R25, R142, R147). -/
theorem commandWrite_next {v : Word} {s t : State} (h : commandWrite exec v s = .next t) :
    (s.err ≠ 0 ∧ t = s) ∨ (s.err = 0 ∧ ∃ i, decode v = .legal i ∧ exec i s = .next t) ∨
      (s.err = 0 ∧ ∃ why, decode v = .illegal why ∧ t = s.takeError .illegalCommand v 0) := by
  unfold commandWrite at h
  split at h
  · rename_i he; exact .inl ⟨he, by simpa using h.symm⟩
  · rename_i he
    have he : s.err = 0 := by simpa using he
    split at h
    · rename_i i hi; exact .inr (.inl ⟨he, i, hi, h⟩)
    · rename_i why hw; exact .inr (.inr ⟨he, why, hw, by simpa using h.symm⟩)

/-- A legal value written with the latch clear runs its command (R25, R70). -/
theorem commandWrite_legal {v : Word} {s : State} {i : Instr} (he : s.err = 0) (h : decode v = .legal i) :
    commandWrite exec v s = exec i s := by
  simp [commandWrite, he, h]

/-- An illegal value written with the latch clear enters the error state (R142). -/
theorem commandWrite_illegal {v : Word} {s : State} {why : IllegalReason} (he : s.err = 0)
    (h : decode v = .illegal why) : commandWrite exec v s = .next (s.takeError .illegalCommand v 0) := by
  simp [commandWrite, he, h]

/-- Any value written with the latch set is discarded (R147). -/
theorem commandWrite_discarded {v : Word} {s : State} (he : s.err ≠ 0) : commandWrite exec v s = .next s := by
  rw [commandWrite, if_pos he]

/-- A CMD write keeps memory canonical. -/
theorem commandWrite_keeps_wf {v : Word} {s t : State} (hm : s.mem.wf = true) (h : commandWrite exec v s = .next t) :
    t.mem.wf = true := by
  rcases commandWrite_next h with ⟨-, rfl⟩ | ⟨-, i, -, hi⟩ | ⟨-, why, -, rfl⟩
  · exact hm
  · exact exec_keeps_wf hm hi
  · exact hm

/-! ### A step -/

/-- The slots that hold something a write can change are the data registers, CMD and STATUS. -/
inductive WriteEffect (v : Word) (s t : State) : Slot → Prop where
  | data (r : Reg) : t = s.setX r v → WriteEffect v s t (.data r)
  | cmd : commandWrite exec v s = .next t → WriteEffect v s t .cmd
  | status : t = s.clearLatch → WriteEffect v s t .status
  | faddr : t = s → WriteEffect v s t .faddr
  | fcmd : t = s → WriteEffect v s t .fcmd
  | reserved : t = s → WriteEffect v s t .reserved

/-- Everything a register write can do when it answers a next state (R24). -/
theorem regWrite_next {offset : Nat} {v : Word} {s t : State} (h : regWrite exec offset v s = .next t) :
    ∃ p, slotAt offset = some p ∧ WriteEffect v s t p := by
  unfold regWrite at h
  split at h
  case h_7 => cases h
  all_goals rename_i hp; refine ⟨_, hp, ?_⟩
  · exact .data _ (by simpa using h.symm)
  · exact .cmd h
  · exact .status (by simpa using h.symm)
  · exact .faddr (by simpa using h.symm)
  · exact .fcmd (by simpa using h.symm)
  · exact .reserved (by simpa using h.symm)

/-- Everything a register read can do when it answers a next state (R24). -/
theorem regRead_next {offset : Nat} {s t : State} (h : regRead offset s = .next t) :
    ∃ p, slotAt offset = some p ∧ t = { s with reply := some (readSlot s p) } := by
  unfold regRead at h
  split at h
  · rename_i p hp; exact ⟨p, hp, by simpa using h.symm⟩
  · cases h

/-- Everything a reset during a command can do when it answers a next state (R171). -/
theorem commandThenReset_next {v : Word} {s t : State} (h : commandThenReset Config.hw exec v s = .next t) :
    t = s.resetEngine ∨ ∃ i, s.err = 0 ∧ decode v = .legal i ∧
      ∃ stores : List (Nat × Byte), t = abandon stores (memoryUse Config.hw i s).accesses s ∧
        ((∃ u, exec i s = .next u ∧ stores = if u.err = 0 then (memoryUse Config.hw i s).stores else []) ∨
          ∃ f, exec i s = .fault f ∧ stores = (memoryUse Config.hw i s).stores) := by
  unfold commandThenReset at h
  split at h
  · exact .inl (by simpa using h.symm)
  · rename_i he
    have he : s.err = 0 := by simpa using he
    split at h
    · exact .inl (by simpa using h.symm)
    · rename_i i hi
      refine .inr ⟨i, he, hi, ?_⟩
      simp only at h
      split at h
      · cases h
      · rename_i u hu
        exact ⟨_, by simpa using h.symm, .inl ⟨u, hu, rfl⟩⟩
      · rename_i hu
        exact ⟨_, by simpa using h.symm, .inr ⟨_, hu, rfl⟩⟩

/-- Everything a CMD write among other agents' stores can do when it answers a next state (R51). -/
theorem commandWithStores_next {v : Word} {stores : List (Word × Byte)} {s t : State}
    (h : commandWithStores Config.hw exec v stores s = .next t) :
    ∃ u, commandWrite exec v (s.raced stores) = .next u ∧
      t = { u with mem := settleStores (s.draws + stores.length) (writtenBy Config.hw v (s.raced stores) u) stores u.mem } := by
  unfold commandWithStores at h
  split at h
  · rename_i u hu; exact ⟨u, hu, by simpa using h.symm⟩
  · cases h
  · cases h

/-- What a command writes among other agents' stores is what the statements' `storesTo` names. -/
theorem writtenBy_storesTo {v : Word} {i : Instr} {s t : State} {a : Nat} (hd : decode v = .legal i)
    (h : a ∈ writtenBy Config.hw v s t) : storesTo i s a := by
  simp only [writtenBy, hd] at h
  split at h
  · obtain ⟨c, hc, rfl⟩ := List.mem_map.1 h; exact memoryUse_storesTo hc
  · cases h

/-- Everything a step can do when it answers a next state: nothing when idle, else the front event. -/
theorem step_next {s t : State} (h : step s = .next t) :
    (s.events = [] ∧ t = s) ∨ ∃ e rest, s.events = e :: rest ∧ handleEvent Config.hw exec e (s.accepting rest) = .next t := by
  unfold step stepWith at h
  split at h
  · rename_i he; exact .inl ⟨he, by simpa using h.symm⟩
  · rename_i e rest he; exact .inr ⟨e, rest, he, h⟩

/-- A step with an event at the front handles it. -/
theorem step_of_event {s : State} {e : Event} {rest : List Event} (h : s.events = e :: rest) :
    step s = handleEvent Config.hw exec e (s.accepting rest) := by
  simp [step, stepWith, h]

/-- Every step keeps memory canonical (R40). -/
theorem step_keeps_wf {s t : State} (hm : s.mem.wf = true) (h : step s = .next t) : t.mem.wf = true := by
  rcases step_next h with ⟨-, rfl⟩ | ⟨e, rest, -, he⟩
  · exact hm
  cases e with
  | regWrite offset v =>
    obtain ⟨p, -, hp⟩ := regWrite_next he
    cases hp with
    | data r h => subst h; exact hm
    | cmd h => exact commandWrite_keeps_wf (s := s.accepting rest) hm h
    | status h => subst h; exact hm
    | faddr h => subst h; exact hm
    | fcmd h => subst h; exact hm
    | reserved h => subst h; exact hm
  | regRead offset => obtain ⟨p, -, rfl⟩ := regRead_next he; exact hm
  | reset => cases he; exact hm
  | cmdThenReset v =>
    rcases commandThenReset_next he with rfl | ⟨i, hs, -, stores, rfl, hst⟩
    · exact hm
    · refine abandonedStores_wf stores _ _ hm fun c hc => ?_
      rcases hst with ⟨u, hu, rfl⟩ | ⟨f, hf, rfl⟩
      · split at hc
        · rename_i hu0
          exact (memoryUse_stores_of_next hu hu0 ((wf_iff _).1 hm).1 hc).1
        · cases hc
      · exact memoryUse_stores_of_fault hf hc
  | store a b => cases he; exact wf_set _ _ _ hm a.isLt
  | cmdWithStores v stores =>
    obtain ⟨u, hu, rfl⟩ := commandWithStores_next he
    exact settleStores_wf _ stores _ _ (commandWrite_keeps_wf (racedView_wf _ _ _ hm) hu)

/-- Memory at reset has the canonical form. -/
theorem reset_mem_wf : State.reset.mem.wf = true := wf_nil

/-- Where a slot stands: the inverse of the register map (R24). -/
theorem slotAt_eq {offset : Nat} {p : Slot} (h : slotAt offset = some p) :
    match p with
    | .data r => offset = 8 * r.val
    | .cmd => offset = 0x40
    | .status => offset = 0x48
    | .faddr => offset = 0x50
    | .fcmd => offset = 0x58
    | .reserved => offset ∈ [0x60, 0x68, 0x70, 0x78] := by
  unfold slotAt at h
  split at h
  · cases h
  · rename_i hmod
    split at h
    · cases h; simp only; omega
    · split at h <;> cases h <;> simp

/-- A data register's slot (R24). -/
@[simp] theorem slotAt_data (r : Reg) : slotAt (8 * r.val) = some (.data r) := by revert r; decide

end Sys2Proof.Machine
end

