-- ==== Sys2Proof/Tests/Slice0.lean ====
section
/-! SUPPORT. The model's own tests. Every expected value is one of spec/95_test_vectors.md (the section is named at each
group) or is written out from the encoding of spec/30_encoding.md R60; the driver and constant vectors use its test
configuration CFG_T. Then, for every statement with hypotheses, a concrete state and operands that meet them. -/

namespace Sys2Proof.Tests

open Sys2Proof Sys2Proof.Machine

/-! ### CFG_T (95_test_vectors.md section 2) -/

/-- The constants of CFG_T at W = 4. -/
def magicT4 : Vector (BitVec 32) 10 :=
  #v[0x50451456, 0x40410412, 0x10041044, 0x10010042, 0x40040404, 0x00401010, 0x00400402, 0x10001004, 0x40010010,
    0x00040040]

/-- The constants of CFG_T at W = 8. -/
def magicT8 : Vector (BitVec 64) 10 :=
  #v[0x1410451050451456, 0x0400410040410412, 0x1010041010041044, 0x0010010010010042, 0x0400040040040404,
    0x1000401000401010, 0x0400010000400402, 0x1000040010001004, 0x0000400040010010, 0x0010001000040040]

/-- CFG_T. -/
def cfgT : Config := ⟨magicT4, magicT8, 0x9E3779B9, 0x9E3779B97F4A7C15⟩

/-- The bits CFG_T's constants may have, each one less than a prime. -/
def primeBits : List Nat := [1, 2, 4, 6, 10, 12, 16, 18, 22, 28, 30, 36, 40, 42, 46, 52, 58, 60]

theorem primeBits_prime : ∀ b ∈ primeBits, (b + 1).Prime := by
  intro b hb
  simp only [primeBits, List.mem_cons, List.not_mem_nil, or_false] at hb
  rcases hb with rfl | rfl | rfl | rfl | rfl | rfl | rfl | rfl | rfl | rfl | rfl | rfl | rfl | rfl | rfl | rfl | rfl | rfl <;>
    norm_num

theorem cfgT_bits4 : ∀ i : Fin 10, ∀ b < 32, (cfgT.magicEntry .w4 i).getLsbD b = true → b ∈ primeBits ∧ b + 1 ≤ 31 := by
  decide

theorem cfgT_bits8 : ∀ i : Fin 10, ∀ b < 64, (cfgT.magicEntry .w8 i).getLsbD b = true → b ∈ primeBits ∧ b + 1 ≤ 63 := by
  decide

/-- CFG_T meets law M1, so the law can be met. -/
theorem test_cfgT_lawM1 : cfgT.LawM1 := by
  intro W i b hb hset
  cases W with
  | w4 => exact ⟨.inr (primeBits_prime b (cfgT_bits4 i b hb hset).1), (cfgT_bits4 i b hb hset).2⟩
  | w8 => exact ⟨.inr (primeBits_prime b (cfgT_bits8 i b hb hset).1), (cfgT_bits8 i b hb hset).2⟩

/-- CFG_T meets law M2. -/
theorem test_cfgT_lawM2 : cfgT.LawM2 := by
  intro W; cases W <;> decide

/-! ### Reading an outcome -/

/-- The next state, if there is one. -/
def after : Host.Outcome State Fault Refusal → Option State
  | .next t => some t
  | .fault _ => none
  | .refused _ => none

/-- A register after a command. -/
def reg (r : Reg) (o : Host.Outcome State Fault Refusal) : Option Word := (after o).map fun t => t.getX r

/-- STATUS.ERR, FADDR, FCMD after a command. -/
def latch (o : Host.Outcome State Fault Refusal) : Option (BitVec 4 × Word × Word) :=
  (after o).map fun t => (t.err, t.faddr, t.fcmd)

/-- The accesses made, as (address, size). -/
def reads (o : Host.Outcome State Fault Refusal) : Option (List (Nat × Nat)) :=
  (after o).map fun t => t.bus.map fun c => (c.addr, c.size)

/-- Memory bytes after a command. -/
def bytes (a n : Nat) (o : Host.Outcome State Fault Refusal) : Option (List Byte) :=
  (after o).map fun t => t.mem.bytesAt a n

/-- The reset state with registers x0 to x4 set. -/
def regs (x0 x1 x2 x3 x4 : Word) : State := { State.reset with x := #v[x0, x1, x2, x3, x4, 0, 0, 0] }

/-- The same with bytes placed in memory. -/
def put (a : Nat) (bs : List Byte) (s : State) : State := { s with mem := s.mem.setBytes a bs }

/-- The same with another map behind the memory port. -/
def mapped (map : List Region) (s : State) : State := { s with map := map }

/-- "hello world" (95_test_vectors.md 3.6). -/
def helloWorld : List Byte := [0x68, 0x65, 0x6C, 0x6C, 0x6F, 0x20, 0x77, 0x6F, 0x72, 0x6C, 0x64]

/-- "hello, world", its terminator, and the trailing bytes of 3.7. -/
def helloComma : List Byte :=
  [0x68, 0x65, 0x6C, 0x6C, 0x6F, 0x2C, 0x20, 0x77, 0x6F, 0x72, 0x6C, 0x64, 0x00, 0xEE, 0xEE, 0xEE]

/-- "abc" and "abcd". -/
def abc : List Byte := [0x61, 0x62, 0x63]
def abcd : List Byte := [0x61, 0x62, 0x63, 0x64]

/-! ### Well-formedness (R65 (d)): the check refuses an ill-formed term -/

theorem test_wellFormed_magicW4 : (Instr.magicW4 0 10).wellFormed = true ∧ (Instr.magicW4 0 11).wellFormed = false := by
  decide

theorem test_wellFormed_magicW8 : (Instr.magicW8 7 10).wellFormed = true ∧ (Instr.magicW8 7 15).wellFormed = false := by
  decide

/-! ### Decoding (3.1): one word per constructor, written out from R60's fields -/

theorem test_decode_primitives_w4 :
    decode 0x00000001 = .legal (.magicW4 0 0) ∧ decode 0x00006882 = .legal (.maskW4 1 2 3) ∧
    decode 0x00006683 = .legal (.mixW4 5 1 3) ∧ decode 0x00000904 = .legal (.scrambleW4 2 2) ∧
    decode 0x00004405 = .legal (.red2W4 0 1 2) ∧ decode 0x00034406 = .legal (.red3W4 0 1 2 3) ∧
    decode 0x001CBB87 = .legal (.red4W4 7 6 5 4 3) ∧ decode 0x00005688 = .legal (.comb2W4 5 5 2) ∧
    decode 0x00034409 = .legal (.comb3W4 0 1 2 3) ∧ decode 0x0023440A = .legal (.comb4W4 0 1 2 3 4) ∧
    decode 0x0000170B = .legal (.mczW4 6 5) := by decide

theorem test_decode_primitives_w8 :
    decode 0x028003C1 = .legal (.magicW8 7 10) ∧ decode 0x0000B242 = .legal (.maskW8 4 4 5) ∧
    decode 0x000066C3 = .legal (.mixW8 5 1 3) ∧ decode 0x00000944 = .legal (.scrambleW8 2 2) ∧
    decode 0x0000D7C5 = .legal (.red2W8 7 5 6) ∧ decode 0x00034446 = .legal (.red3W8 0 1 2 3) ∧
    decode 0x00234447 = .legal (.red4W8 0 1 2 3 4) ∧ decode 0x00004448 = .legal (.comb2W8 0 1 2) ∧
    decode 0x00034449 = .legal (.comb3W8 0 1 2 3) ∧ decode 0x0023444A = .legal (.comb4W8 0 1 2 3 4) ∧
    decode 0x000005CB = .legal (.mczW8 3 1) := by decide

theorem test_decode_drivers :
    decode 0x00004410 = .legal (.hashbufW4 0 1 2) ∧ decode 0x00004450 = .legal (.hashbufW8 0 1 2) ∧
    decode 0x00000411 = .legal (.hashstrW4 0 1) ∧ decode 0x00000551 = .legal (.hashstrW8 2 1) ∧
    decode 0x00234412 = .legal (.hashseedW4 1 2 3 4) ∧ decode 0x00234452 = .legal (.hashseedW8 1 2 3 4) ∧
    decode 0x003FFC52 = .legal (.hashseedW8 7 7 7 7) := by decide

theorem test_decode_illegal :
    decode 0x0 = .illegal .reservedOpcode ∧ decode 0x0C = .illegal .reservedOpcode ∧
    decode 0x13 = .illegal .reservedOpcode ∧ decode 0x3F = .illegal .reservedOpcode ∧
    decode 0x04006683 = .illegal .zeroField ∧ decode 0x100006683 = .illegal .highBits ∧
    decode 0x02C00001 = .illegal .magicIndex ∧ decode 0x03C00041 = .illegal .magicIndex := by decide

theorem test_decode_unused_fields :
    decode 0x00400401 = .illegal .unusedField ∧ decode 0x00406683 = .illegal .unusedField ∧
    decode 0x00016683 = .illegal .unusedField ∧ decode 0x00006884 = .illegal .unusedField ∧
    decode 0x00234492 = .illegal .unusedField ∧ decode 0x00004451 = .illegal .unusedField ∧
    decode 0x0008040B = .illegal .unusedField ∧ decode 0x00234406 = .illegal .unusedField := by decide

theorem test_encode : cmdValue (.red4W4 7 6 5 4 3) = 0x001CBB87 ∧ cmdValue (.magicW8 7 10) = 0x028003C1 ∧
    cmdValue (Instr.hash32 1 2 3 4) = 0x00234412 := by decide

theorem test_asm : (Instr.magicW8 7 10).asm = "MAGIC.W8 x7, #10" ∧ (Instr.mixW8 5 1 3).asm = "MIX.W8 x5, x1, x3" := by
  decide

theorem test_decodeTableWord : decodeTableWord 32 0x000066C3 = some (.mixW8 5 1 3) ∧ decodeTableWord 32 0 = none := by
  decide

/-! ### The primitive commands (3.2 to 3.5) -/

theorem test_magicW4 : reg 3 (magicCommand cfgT .w4 0 3 1 State.reset) = some 0x40410412 ∧
    reg 0 (magicCommand cfgT .w4 0 0 10 State.reset) = some 0x9E3779B9 := by decide

theorem test_magicW8 : reg 7 (magicCommand cfgT .w8 0 7 10 State.reset) = some 0x9E3779B97F4A7C15 := by decide

theorem test_maskW4 : reg 0 (exec (.maskW4 0 1 2) (regs 0xDEAD 0xFFFFFFFFAABBCCDD 3 0 0)) = some 0x00BBCCDD := by decide

theorem test_maskW4_range : (latch (exec (.maskW4 0 1 2) (regs 0xDEAD 0xAABBCCDD 0x100000001 0 0)) = some (2, 0, 0x4402) ∧
    reg 0 (exec (.maskW4 0 1 2) (regs 0xDEAD 0xAABBCCDD 0x100000001 0 0)) = some 0xDEAD) := by decide

theorem test_maskW8 : reg 0 (exec (.maskW8 0 1 2) (regs 0xDEAD 0x8877665544332211 7 0 0)) = some 0x0077665544332211 := by
  decide

theorem test_maskW8_range : latch (exec (.maskW8 0 1 2) (regs 0xDEAD 0x8877665544332211 9 0 0)) = some (2, 0, 0x4442) := by
  decide

theorem test_mixW4 : reg 5 (exec (.mixW4 5 1 3) (regs 0 0xFFFFFFFF12345678 0 0xAAAAAAAA50451456 0)) = some 0x071B28C3 := by
  decide

theorem test_mixW8 : reg 5 (exec (.mixW8 5 1 3) (regs 0 0x0123456789ABCDEF 0 0x1410451050451456 0)) =
    some 0xA777AECDDC4643FA := by decide

theorem test_scrambleW4 : reg 2 (scrambleCommand cfgT .w4 2 2 (regs 0 0 0x11111111 0 0)) = some 0xFFFFFFFF := by decide

theorem test_scrambleW8 : reg 2 (scrambleCommand cfgT .w8 2 2 (regs 0 0 0x1111111111111111 0 0)) =
    some 0x0EECCD0EECCD0EED := by decide

/-- The registers of 3.4. -/
def reduceRegs : State := regs 0 0xFFFFFFFF11111111 0x0000000022222222 0xABCDEF0133333333 0x0000000044444444

theorem test_red2 : reg 0 (exec (.red2W4 0 1 2) reduceRegs) = some 0x0000000033333333 ∧
    reg 0 (exec (.red2W8 0 1 2) reduceRegs) = some 0xFFFFFFFF33333333 := by decide

theorem test_red3 : reg 0 (exec (.red3W4 0 1 2 3) reduceRegs) = some 0 ∧
    reg 0 (exec (.red3W8 0 1 2 3) reduceRegs) = some 0x543210FE00000000 := by decide

theorem test_red4 : reg 0 (exec (.red4W4 0 1 2 3 4) reduceRegs) = some 0x0000000044444444 ∧
    reg 0 (exec (.red4W8 0 1 2 3 4) reduceRegs) = some 0x543210FE44444444 := by decide

/-- The registers of 3.4's combines. -/
def combineRegs : State := regs 0 0x1111111111111111 0x2222222222222222 0x3333333333333333 0x4444444444444444

theorem test_comb2 : reg 0 (comb2Command cfgT .w4 0 1 2 combineRegs) = some 0xD1197330 ∧
    reg 0 (comb2Command cfgT .w8 0 2 1 combineRegs) = some 0x30023488B701DDF3 := by decide

theorem test_comb3 : reg 0 (comb3Command cfgT .w4 0 1 2 3 combineRegs) = some 0xA45CF665 ∧
    reg 0 (comb3Command cfgT .w8 0 1 2 3 combineRegs) = some 0xF88ACDF9A421700F := by decide

theorem test_comb4 : reg 0 (comb4Command cfgT .w4 0 1 2 3 4 combineRegs) = some 0x6AA19D77 ∧
    reg 0 (comb4Command cfgT .w8 0 1 2 3 4 combineRegs) = some 0xDDD5544CCCCEEECD := by decide

theorem test_mczW4 : reg 0 (exec (.mczW4 0 1) (regs 9 0x0000000011223344 0 0 0)) = some 0 ∧
    reg 0 (exec (.mczW4 0 1) (regs 9 0x11220100 0 0 0)) = some 1 := by decide

theorem test_mczW8 : reg 0 (exec (.mczW8 0 1) (regs 9 0x0000000011223344 0 0 0)) = some 1 ∧
    reg 0 (exec (.mczW8 0 1) (regs 9 0x8080808080808081 0 0 0)) = some 0 := by decide

theorem test_firstZero : firstZero .w4 0x11003344#32 = some 2 ∧ firstZero .w4 0x80000100#32 = some 0 ∧
    firstZero .w8 0x0000000011223344#64 = some 4 ∧ firstZero .w8 0x1122334455667701#64 = none := by decide

/-! ### The driver commands (3.6 to 3.8) -/

/-- HASHBUF of "hello world" at 0x2000. -/
def bufferState (size : Word) : State := put 0x2000 helloWorld (regs 0xDEAD 0x2000 size 0 0)

theorem test_hashbufW4 : reg 0 (hashbufCommand cfgT .w4 0 0 1 2 (bufferState 11)) = some 0x875675B8 ∧
    reads (hashbufCommand cfgT .w4 0 0 1 2 (bufferState 11)) = some [(0x2000, 4), (0x2004, 4), (0x2008, 3)] ∧
    reg 0 (hashbufCommand cfgT .w4 0 0 1 2 (put 0xFFFFFFFFFFFFFFFC abcd (regs 0xDEAD 0xFFFFFFFFFFFFFFFC 4 0 0))) =
      some 0x7D53EF99 := by decide

theorem test_hashbufW8 : reg 0 (hashbufCommand cfgT .w8 0 0 1 2 (bufferState 11)) = some 0xFDF82A291A45D34A ∧
    reads (hashbufCommand cfgT .w8 0 0 1 2 (bufferState 11)) = some [(0x2000, 8), (0x2008, 3)] := by decide

/-- HASHSTR of bytes at 0x3000. -/
def stringState (bs : List Byte) : State := put 0x3000 bs (regs 0xDEAD 0x3000 0 0 0)

theorem test_hashstrW4 : reg 0 (hashstrCommand cfgT .w4 0 0 1 (stringState helloComma)) = some 0x0BBF7597 ∧
    reads (hashstrCommand cfgT .w4 0 0 1 (stringState helloComma)) =
      some [(0x3000, 4), (0x3004, 4), (0x3008, 4), (0x300C, 4)] ∧
    reg 0 (hashstrCommand cfgT .w4 0 0 1 (stringState (abc ++ [0x00, 0xEE]))) = some 0xB9288919 := by decide

theorem test_hashstrW8 : reg 0 (hashstrCommand cfgT .w8 0 0 1 (stringState helloComma)) = some 0x3E0C3ABC3D80D3E3 := by
  decide

/-- HASHSEED of a key at 0x4000 with its output at 0x5000. -/
def seedState (key : List Byte) (len seed : Word) : State := put 0x4000 key (regs 0 0x4000 len seed 0x5000)

theorem test_hashseedW4 :
    bytes 0x5000 5 (hashseedCommand cfgT .w4 0 1 2 3 4 (seedState abc 3 1)) = some [0xBB, 0x27, 0x77, 0x26, 0x00] ∧
    bytes 0x5000 4 (exec (Instr.hash32 1 2 3 4) (seedState [] 0xFFFFFFFFFFFFFFFF 0x1CAFEBABE)) =
    some [0xBE, 0xBA, 0xFE, 0xCA] := by decide

theorem test_hashseedW8 : bytes 0x5000 8 (hashseedCommand cfgT .w8 0 1 2 3 4 (seedState abc 3 1)) =
    some [0x6B, 0x45, 0xCF, 0xCC, 0x8E, 0x98, 0x28, 0x82] := by decide

/-- The output overlaps the key (3.8, R51): key "abcdefgh", output at 0x4002. -/
theorem test_hashseedW4_overlap :
    bytes 0x4000 8 (hashseedCommand cfgT .w4 0 1 2 3 4
      (put 0x4000 (abcd ++ [0x65, 0x66, 0x67, 0x68]) (regs 0 0x4000 8 1 0x4002))) =
      some [0x61, 0x62, 0x40, 0x08, 0x46, 0x59, 0x67, 0x68] := by decide

/-! ### Errors (3.9) and the latch (program P5) -/

/-- Exactly the eleven bytes of the buffer are readable (row B1). -/
def elevenReadable : List Region := [⟨0x2000, 11, .ram true false⟩]

theorem test_B1 :
    latch (exec (.hashbufW8 0 1 2) (mapped elevenReadable (bufferState 12))) = some (3, 0x2008, 0x4450) ∧
    reads (exec (.hashbufW8 0 1 2) (mapped elevenReadable (bufferState 12))) = some [(0x2000, 8), (0x2008, 4)] := by decide

theorem test_R2_B2 : latch (exec (.hashbufW4 0 1 2) (mapped [] (regs 0 0x1000 0x100000000 0 0))) = some (2, 0, 0x4410) ∧
    latch (exec (.hashbufW8 0 1 2) (mapped [] (regs 0 0x1000 0x100000000 0 0))) = some (3, 0x1000, 0x4450) := by decide

theorem test_R3 : latch (exec (Instr.hash32 1 2 3 4) (regs 0 0 0x100000000 0 0)) = some (2, 0, 0x234412) := by decide

theorem test_B3 : latch (exec (Instr.hash32 1 2 3 4) (mapped [⟨0x4000, 3, .ram true false⟩] (seedState abc 3 1))) =
    some (3, 0x5000, 0x234412) := by decide

theorem test_B4_B5_B6 :
    latch (exec (.hashbufW4 0 1 2) (put 0xFFFFFFFFFFFFFFFC abcd (regs 0 0xFFFFFFFFFFFFFFFC 5 0 0))) = some (3, 0, 0x4410) ∧
    latch (exec (.hashstrW4 0 1) (put 0xFFFFFFFFFFFFFFFC abcd (regs 0 0xFFFFFFFFFFFFFFFC 0 0 0))) = some (3, 0, 0x411) ∧
    latch (exec (.hashbufW4 0 1 2) (regs 0 0xFFFFFFFFFFFFFFFE 4 0 0)) = some (3, 0xFFFFFFFFFFFFFFFE, 0x4410) := by decide

theorem test_discarded : reg 3 (step { regs 0 0x1122334455667788 9 0 0 with
    err := 2, fcmd := 0x4442, events := [.regWrite 0x40 0x5CB] }) = some 0 := by decide

theorem test_getStatus : (after (step { State.reset with err := 2, events := [Event.getStatus] })).map State.reply =
    some (some 2) := by decide

theorem test_clrErr : latch (step { State.reset with err := 3, faddr := 0x2008, fcmd := 0x4450, events := [Event.clrErr] }) =
    some (0, 0, 0) := by decide

theorem test_illegal : latch (step { State.reset with events := [.regWrite 0x40 0x100006683] }) =
    some (1, 0, 0x100006683) := by decide

theorem test_withFetchWord : reg 5 (step ((regs 0 3 0 5 0).withFetchWord 32 0x66C3)) = some 0xF := by decide

/-! ### Witnesses: every statement with hypotheses has a concrete case that meets all of them together -/

/-- A state with one event at the front. -/
def pending (e : Event) (s : State) : State := { s with events := [e] }

/-- A latched state, as a BusError of HASHBUF.W8 leaves it. -/
def latched : State := { regs 1 2 3 4 5 with err := 3, faddr := 0x2008, fcmd := 0x4450 }

theorem witness_DecodeOfEncodedInstruction : (Instr.magicW8 7 10).wellFormed = true ∧
    (Instr.hashseedW8 7 7 7 7).wellFormed = true := by decide

theorem witness_EncodeOfDecodedValue : decode 0x003FFC52 = .legal (.hashseedW8 7 7 7 7) := by decide

theorem witness_TableRowsSelectTheirCommands :
    (⟨"RED4.W4", 0xFFC0007F#32, 0x00000007#32⟩ ∈ opcodeTable ∧
      TableRow.selectedBy ⟨"RED4.W4", 0xFFC0007F#32, 0x00000007#32⟩ 0x001CBB87 = true) ∧
    (⟨"MAGIC.W4", 0xFC3FFC7F#32, 0x00000001#32⟩ ∈ opcodeTable ∧
      TableRow.selectedBy ⟨"MAGIC.W4", 0xFC3FFC7F#32, 0x00000001#32⟩ 0x02C00001 = true) ∧
    decode 0x001CBB87 = .legal (.red4W4 7 6 5 4 3) := by decide

theorem witness_StepRunsTheDecodedCommand :
    ((pending (.regWrite 0x40 0x66C3) State.reset).events = [.regWrite 0x40 0x66C3] ∧
      (pending (.regWrite 0x40 0x66C3) State.reset).err = 0 ∧ decode 0x66C3 = .legal (.mixW8 5 1 3)) ∧
    decodeTableWord 32 0x66C3 = some (.mixW8 5 1 3) := by decide

theorem witness_IllegalValueRaisesIllegalCommand :
    (pending (.regWrite 0x40 0) State.reset).events = [.regWrite 0x40 0] ∧
    (pending (.regWrite 0x40 0) State.reset).err = 0 ∧ decode 0 = .illegal .reservedOpcode := by decide

theorem witness_LatchedEngineDiscardsCommands :
    (pending (.regWrite 0x40 0x66C3) latched).err ≠ 0 ∧
    (pending (.regWrite 0x40 0x66C3) latched).events = [.regWrite 0x40 0x66C3] ∧
    (pending (.regWrite (8 * (7 : Reg).val) 1) latched).events = [.regWrite (8 * (7 : Reg).val) 1] ∧
    (pending (.regRead (8 * (0 : Reg).val)) latched).events = [.regRead (8 * (0 : Reg).val)] ∧
    (pending (.regRead 0x40) latched).events = [.regRead 0x40] ∧
    (pending (.regRead 0x48) latched).events = [.regRead 0x48] ∧
    (pending (.regRead 0x50) latched).events = [.regRead 0x50] ∧
    (pending (.regRead 0x58) latched).events = [.regRead 0x58] ∧
    (pending (.regWrite 0x48 0) latched).events = [.regWrite 0x48 0] := by decide

theorem witness_StatusWriteClearsTheLatch :
    ({ latched with events := [.regWrite 0x48 7, .regWrite 0x40 0x66C3] } : State).events =
      .regWrite 0x48 7 :: [.regWrite 0x40 0x66C3] ∧
    decode 0x66C3 = .legal (.mixW8 5 1 3) ∧ decode 0 = .illegal .reservedOpcode := by decide

theorem witness_PortReadsFollowTheMap :
    (pending (.regRead 0x38) latched).events = [.regRead 0x38] ∧ 0x38 = 8 * (7 : Reg).val ∧
    (pending (.regRead 0x40) latched).events = [.regRead 0x40] ∧
    (pending (.regRead 0x48) latched).events = [.regRead 0x48] ∧
    (pending (.regRead 0x50) latched).events = [.regRead 0x50] ∧
    (pending (.regRead 0x58) latched).events = [.regRead 0x58] := by decide

theorem witness_PortWritesFollowTheMap :
    (pending (.regWrite 0x38 9) latched).events = [.regWrite 0x38 9] ∧ 0x38 = 8 * (7 : Reg).val ∧
    (pending (.regWrite 0x50 9) latched).events = [.regWrite 0x50 9] ∧
    (pending (.regWrite 0x58 9) latched).events = [.regWrite 0x58 9] := by decide

theorem witness_ReservedAndOutsideSlots :
    (0x60 ∈ [0x60, 0x68, 0x70, 0x78] ∧ (pending (.regRead 0x60) latched).events = [.regRead 0x60]) ∧
    (0x78 ∈ [0x60, 0x68, 0x70, 0x78] ∧ (pending (.regWrite 0x78 9) latched).events = [.regWrite 0x78 9]) ∧
    (4 % 8 ≠ 0 ∧ (pending (.regRead 4) latched).events = [.regRead 4]) ∧
    (0x78 < 0x80 ∧ (pending (.regWrite 0x80 9) latched).events = [.regWrite 0x80 9]) := by decide

theorem witness_ResetClearsTheEngine : (pending .reset latched).events = [.reset] := by decide

theorem witness_IdleAndForeignStore : State.reset.events = [] ∧
    (pending (.store 0xFFFFFFFFFFFFFFFF 5) latched).events = [.store 0xFFFFFFFFFFFFFFFF 5] ∧
    (pending (.store 0xFFFFFFFFFFFFFFFF 5) latched).mem.wf = true := by decide

/-- HASH64 of a length 0 with its output at 0x5000, and a reset during it. -/
def resetDuringSeed : State := pending (.cmdThenReset 0x00234452) (seedState abc 0 0x12345678)

theorem witness_ResetDuringCommand :
    resetDuringSeed.events = [.cmdThenReset 0x00234452] ∧ resetDuringSeed.err = 0 ∧
    decode 0x00234452 = .legal (Instr.hash64 1 2 3 4) ∧ resetDuringSeed.mem.wf = true ∧
    ((after (exec (Instr.hash64 1 2 3 4)
      { resetDuringSeed with events := [], reply := none, bus := [] })).map fun t => t.mem.byteAt 0x5000) =
      some 0x78 := by decide

/-- HASHBUF.W4 of a buffer that never answers, and a reset during it. -/
def resetDuringSilence : State :=
  { State.reset with x := #v[0, 0x1000, 4, 0, 0, 0, 0, 0], map := [⟨0x1000, 4, .silent⟩], events := [.cmdThenReset 0x4410] }

theorem witness_ResetRecoversFromAnUnansweredAccess :
    resetDuringSilence.events = [.cmdThenReset 0x4410] ∧ resetDuringSilence.err = 0 ∧
    decode 0x4410 = .legal (.hashbufW4 0 1 2) ∧ resetDuringSilence.mem.wf = true ∧
    exec (.hashbufW4 0 1 2) { resetDuringSilence with events := [], reply := none, bus := [] } =
      .fault .memoryNeverAnswers :=
  ⟨rfl, rfl, by decide, by decide, rfl⟩

/-- HASH64 of length 0 among the stores of other agents, one of them into the output. -/
def racedSeed : State := pending (.cmdWithStores 0x00234452 [(0x5000, 1), (0x4000, 2)]) (seedState abc 0 0x12345678)

theorem witness_RacedCommandSeesOldOrNewBytes :
    racedSeed.events = [.cmdWithStores 0x00234452 [(0x5000, 1), (0x4000, 2)]] ∧ racedSeed.err = 0 ∧
    decode 0x00234452 = .legal (Instr.hash64 1 2 3 4) ∧ racedSeed.mem.wf = true := by decide

/-- Whatever memory the raced command sees, it ends: the inner premise of the statement is met too. -/
theorem witness_RacedCommandSeesOldOrNewBytes_next (seen : Memory) :
    ∃ t, exec (Instr.hash64 1 2 3 4) { racedSeed with events := [], reply := none, bus := [], mem := seen, draws := 4 } =
      .next t := ⟨_, rfl⟩

theorem witness_MaskingKeepsTheLowBytes : (1 ≤ 1 ∧ 1 ≤ Width.bytes .w4) ∧ (1 ≤ 8 ∧ 8 ≤ Width.bytes .w8) := by decide

theorem witness_ConsumePathsAgree : ((0 : Nat) = 0 → (0 : BitVec (Width.bits .w4)) = 0) ∧
    ((5 : Nat) = 0 → (7 : BitVec (Width.bits .w4)) = 0) := by decide

theorem witness_MemReadIsLittleEndian :
    (1 ≤ 1 ∧ 1 ≤ 8 ∧ Readable State.reset 0xFFFFFFFFFFFFFFFF 1) ∧ (1 ≤ 8 ∧ 8 ≤ 8 ∧ Readable State.reset 3 8) ∧
    ReadFails State.reset 0x10000000000000000 1 ∧ ReadFails (mapped elevenReadable State.reset) 0x2008 4 :=
  ⟨⟨by decide, by decide, by decide, by decide⟩, ⟨by decide, by decide, by decide, by decide⟩, .inl (by decide),
    .inr ⟨by decide, 3, by decide, by decide⟩⟩

/-- A map whose one window is readable only. -/
def readOnly : State := mapped elevenReadable State.reset

theorem witness_MemWriteSetsExactlyItsBytes :
    State.reset.mem.wf = true ∧ Writable State.reset 0xFFFFFFFFFFFFFFFC 4 ∧ Writable State.reset 0 8 ∧
    WriteFails State.reset 0xFFFFFFFFFFFFFFFD 4 ∧ WriteFails readOnly 0x2000 8 ∧ readOnly.mem.wf = true :=
  ⟨by decide, ⟨by decide, by decide⟩, ⟨by decide, by decide⟩, .inl (by decide), .inr ⟨by decide, 0, by decide, by decide⟩,
    by decide⟩

theorem witness_MagicWritesItsConstant :
    (10 < (11 : BitVec 4).toNat ∧ State.reset.err = 0) ∧ (10 < (15 : BitVec 4).toNat ∧ State.reset.err = 0) := by decide

theorem witness_MaskWritesOrRaises :
    (1 ≤ ((regs 0 7 1 0 0).x[(2 : Reg)]).toNat ∧ ((regs 0 7 1 0 0).x[(2 : Reg)]).toNat ≤ Width.bytes .w4) ∧
    (1 ≤ ((regs 0 7 8 0 0).x[(2 : Reg)]).toNat ∧ ((regs 0 7 8 0 0).x[(2 : Reg)]).toNat ≤ Width.bytes .w8) ∧
    (((regs 0 7 0 0 0).x[(2 : Reg)]).toNat = 0 ∧ (regs 0 7 0 0 0).err = 0) ∧
    (Width.bytes .w4 < ((regs 0 7 5 0 0).x[(2 : Reg)]).toNat ∧ (regs 0 7 5 0 0).err = 0) := by decide

theorem witness_MczWritesWhetherAByteIsZero :
    (∃ j < Width.bytes .w4, ((regs 0 0x00FFFFFF 0 0 0).x[(1 : Reg)]).toNat / 2 ^ (8 * j) % 256 = 0) ∧
    (∀ j < Width.bytes .w8, ((regs 0 0x0101010101010101 0 0 0).x[(1 : Reg)]).toNat / 2 ^ (8 * j) % 256 ≠ 0) := by decide

theorem witness_PrimitiveFrame : isDriver (.mixW8 0 1 2) = false ∧ isDriver (.maskW4 0 1 2) = false ∧
    State.reset.err = 0 := by decide

theorem witness_HashbufWritesTheFoldOfItsBuffer :
    (((bufferState 0).x[(2 : Reg)]).toNat < 2 ^ 32 ∧
      Readable (bufferState 0) ((bufferState 0).x[(1 : Reg)]).toNat ((bufferState 0).x[(2 : Reg)]).toNat) ∧
    (((bufferState 11).x[(2 : Reg)]).toNat < 2 ^ 32 ∧
      Readable (bufferState 11) ((bufferState 11).x[(1 : Reg)]).toNat ((bufferState 11).x[(2 : Reg)]).toNat) :=
  ⟨⟨by decide, by decide, by decide⟩, by decide, by decide, by decide⟩

/-- A string of 12 bytes at the first address and one of no bytes: each statement about strings has both. -/
theorem stringAt_12 : StringAt (stringState helloComma) ((stringState helloComma).x[(1 : Reg)]).toNat 12 :=
  ⟨by decide, by decide⟩

theorem witness_HashstrWritesTheDigestOfItsString :
    StringAt (stringState helloComma) ((stringState helloComma).x[(1 : Reg)]).toNat 12 ∧
    Readable (stringState helloComma) ((stringState helloComma).x[(1 : Reg)]).toNat
      (Width.bytes .w4 * (12 / Width.bytes .w4 + 1)) ∧
    StringAt State.reset (State.reset.x[(1 : Reg)]).toNat 0 ∧
    Readable State.reset (State.reset.x[(1 : Reg)]).toNat (Width.bytes .w8 * (0 / Width.bytes .w8 + 1)) :=
  ⟨stringAt_12, ⟨by decide, by decide⟩, ⟨by decide, by decide⟩, by decide, by decide⟩

theorem witness_HashseedWritesTheSeed :
    (((seedState [] 0 7).x[(2 : Reg)]).toInt ≤ 0 ∧ Writable (seedState [] 0 7) ((seedState [] 0 7).x[(4 : Reg)]).toNat 4 ∧
      (seedState [] 0 7).mem.wf = true) ∧
    (((seedState [] 0x8000000000000000 7).x[(2 : Reg)]).toInt ≤ 0 ∧
      Writable (seedState [] 0x8000000000000000 7) ((seedState [] 0x8000000000000000 7).x[(4 : Reg)]).toNat 8 ∧
      (seedState [] 0x8000000000000000 7).mem.wf = true) :=
  ⟨⟨by decide, ⟨by decide, by decide⟩, by decide⟩, by decide, ⟨by decide, by decide⟩, by decide⟩

theorem witness_HashseedWritesTheSeededDigest :
    ((seedState abc 3 1).x[(2 : Reg)]).toInt = (3 : Nat) ∧ 0 < 3 ∧ 3 < 2 ^ 32 ∧
    Readable (seedState abc 3 1) ((seedState abc 3 1).x[(1 : Reg)]).toNat 3 ∧
    Writable (seedState abc 3 1) ((seedState abc 3 1).x[(4 : Reg)]).toNat (Width.bytes .w8) ∧
    (seedState abc 3 1).mem.wf = true :=
  ⟨by decide, by decide, by decide, ⟨by decide, by decide⟩, ⟨by decide, by decide⟩, by decide⟩

theorem witness_EmptyDigestsAreZero :
    (State.reset.x[(2 : Reg)]).toNat = 0 ∧ State.reset.mem.byteAt (State.reset.x[(1 : Reg)]).toNat = 0 ∧
    Readable State.reset (State.reset.x[(1 : Reg)]).toNat (Width.bytes .w8) :=
  ⟨by decide, by decide, by decide, by decide⟩

/-- HASHSTR of the empty string at address 0, and HASH64 of length 0: driver commands that end in a next state. -/
theorem witness_DriverFrame :
    (∃ t, exec (.hashstrW8 0 1) State.reset = .next t) ∧ isDriver (.hashstrW8 0 1) = true ∧
    (∃ t, exec (Instr.hash64 1 2 3 4) (seedState abc 0 7) = .next t) ∧ isDriver (Instr.hash64 1 2 3 4) = true ∧
    State.reset.err = 0 ∧ State.reset.mem.wf = true ∧ (seedState abc 0 7).err = 0 ∧ (seedState abc 0 7).mem.wf = true :=
  ⟨⟨_, rfl⟩, rfl, ⟨_, rfl⟩, rfl, rfl, by decide, rfl, by decide⟩

/-- A byte stored after the buffer: memories that agree on the buffer and not elsewhere. -/
theorem witness_HashbufReadsOnlyItsBuffer :
    ∀ j < ((bufferState 11).x[(2 : Reg)]).toNat,
      AgreeAt (bufferState 11) ((bufferState 11).mem.set 0x200B 9) [⟨0x2000, 11, .ram true true⟩]
        (((bufferState 11).x[(1 : Reg)]).toNat + j) := by
  unfold AgreeAt
  decide

theorem witness_HashstrIgnoresBytesAfterTheTerminator :
    StringAt (stringState helloComma) ((stringState helloComma).x[(1 : Reg)]).toNat 12 ∧
    (∀ j ≤ 12, ((stringState helloComma).mem.set 0x300D 5).byteAt (((stringState helloComma).x[(1 : Reg)]).toNat + j) =
      (stringState helloComma).mem.byteAt (((stringState helloComma).x[(1 : Reg)]).toNat + j)) ∧
    (∀ j < Width.bytes .w4 * (12 / Width.bytes .w4 + 1),
      regionAt [⟨0x3000, 16, .ram true true⟩] (((stringState helloComma).x[(1 : Reg)]).toNat + j) =
        regionAt (stringState helloComma).map (((stringState helloComma).x[(1 : Reg)]).toNat + j)) :=
  ⟨stringAt_12, by decide, by decide⟩

theorem witness_RangeErrorExactly :
    outOfRange (.maskW4 0 1 2) (regs 0 7 5 0 0) ∧ outOfRange (.maskW8 0 1 2) (regs 0 7 0 0 0) ∧
    outOfRange (.hashbufW4 0 1 2) (regs 0 0 0x100000000 0 0) ∧
    outOfRange (Instr.hash32 1 2 3 4) (regs 0 0 0x7FFFFFFFFFFFFFFF 0 0) ∧ (regs 0 7 5 0 0).err = 0 ∧
    latch (exec (.maskW4 0 1 2) (regs 0 7 5 0 0)) = some (2, 0, 0x4402) :=
  ⟨.inr (by decide), .inl (by decide), by simp only [outOfRange]; decide, by simp only [outOfRange]; decide, by decide,
    by decide⟩

/-- The buffer of row B6: its one access passes 2^64. -/
def wrapping : State := regs 0 0xFFFFFFFFFFFFFFFE 4 0 0

/-- The buffer of row B1: its second access is refused. -/
def overlong : State := mapped elevenReadable (bufferState 12)

/-- HASHBUF's first access fails, and its second one does. -/
theorem witness_HashbufBusError :
    (wrapping.err = 0 ∧ (wrapping.x[(2 : Reg)]).toNat < 2 ^ 32 ∧ 0 < accessCount .w4 (wrapping.x[(2 : Reg)]).toNat ∧
      ReadFails wrapping (chunkAddr .w4 (wrapping.x[(1 : Reg)]).toNat 0) (chunkSize .w4 (wrapping.x[(2 : Reg)]).toNat 0)) ∧
    (overlong.err = 0 ∧ 1 < accessCount .w8 (overlong.x[(2 : Reg)]).toNat ∧
      (∀ k < 1, Readable overlong (chunkAddr .w8 (overlong.x[(1 : Reg)]).toNat k)
        (chunkSize .w8 (overlong.x[(2 : Reg)]).toNat k)) ∧
      ReadFails overlong (chunkAddr .w8 (overlong.x[(1 : Reg)]).toNat 1) (chunkSize .w8 (overlong.x[(2 : Reg)]).toNat 1)) :=
  ⟨⟨by decide, by decide, by decide, .inl (by decide)⟩, by decide, by decide, fun k hk => by
    obtain rfl : k = 0 := by omega
    exact ⟨by decide, by decide⟩, .inr ⟨by decide, 3, by decide, by decide⟩⟩

/-- A map that holds the first word of a string and nothing else. -/
def firstWordReadable : List Region := [⟨0x3000, 4, .ram true true⟩]

/-- A string whose first word alone is readable. -/
def cutString : State := mapped firstWordReadable (stringState abcd)

/-- A machine with no readable byte. -/
def unmapped : State := mapped [] State.reset

theorem witness_HashstrBusError :
    (unmapped.err = 0 ∧ Readable unmapped (unmapped.x[(1 : Reg)]).toNat (0 * Width.bytes .w4) ∧
      (∀ t < 0 * Width.bytes .w4, unmapped.mem.byteAt ((unmapped.x[(1 : Reg)]).toNat + t) ≠ 0) ∧
      ReadFails unmapped (chunkAddr .w4 (unmapped.x[(1 : Reg)]).toNat 0) (Width.bytes .w4)) ∧
    (cutString.err = 0 ∧ Readable cutString (cutString.x[(1 : Reg)]).toNat (1 * Width.bytes .w4) ∧
      (∀ t < 1 * Width.bytes .w4, cutString.mem.byteAt ((cutString.x[(1 : Reg)]).toNat + t) ≠ 0) ∧
      ReadFails cutString (chunkAddr .w4 (cutString.x[(1 : Reg)]).toNat 1) (Width.bytes .w4)) :=
  ⟨⟨by decide, ⟨by decide, by decide⟩, by decide, .inr ⟨by decide, 0, by decide, by decide⟩⟩,
    by decide, ⟨by decide, by decide⟩, by decide, .inr ⟨by decide, 0, by decide, by decide⟩⟩

/-- HASH32 with an output that is not writable (row B3), with a key that is not readable, and with a length 0. -/
def unwritable : State := mapped [⟨0x4000, 3, .ram true false⟩] (seedState abc 3 1)
def unreadable : State := mapped [] (seedState abc 3 1)
def unwritableSeed : State := mapped [] (seedState abc 0 1)

theorem witness_HashseedBusError :
    (unwritableSeed.err = 0 ∧ (unwritableSeed.x[(2 : Reg)]).toInt ≤ 0 ∧
      WriteFails unwritableSeed (unwritableSeed.x[(4 : Reg)]).toNat (Width.bytes .w4)) ∧
    (unreadable.err = 0 ∧ (unreadable.x[(2 : Reg)]).toInt = (3 : Nat) ∧ 0 < 3 ∧ 3 < 2 ^ 32 ∧ 0 < accessCount .w4 3 ∧
      ReadFails unreadable (chunkAddr .w4 (unreadable.x[(1 : Reg)]).toNat 0) (chunkSize .w4 3 0)) ∧
    (unwritable.err = 0 ∧ (unwritable.x[(2 : Reg)]).toInt = (3 : Nat) ∧
      Readable unwritable (unwritable.x[(1 : Reg)]).toNat 3 ∧
      WriteFails unwritable (unwritable.x[(4 : Reg)]).toNat (Width.bytes .w4)) :=
  ⟨⟨by decide, by decide, .inr ⟨by decide, 0, by decide, by decide⟩⟩,
    ⟨by decide, by decide, by decide, by decide, by decide, .inr ⟨by decide, 0, by decide, by decide⟩⟩,
    by decide, by decide, ⟨by decide, by decide⟩, .inr ⟨by decide, 0, by decide, by decide⟩⟩

theorem witness_CommandCompletesOrRaisesOneError :
    (∃ t, exec (.mixW8 0 1 2) State.reset = .next t) ∧
    (∃ t, exec (.hashbufW8 0 1 2) (mapped elevenReadable (bufferState 12)) = .next t) ∧ State.reset.err = 0 :=
  ⟨⟨_, rfl⟩, ⟨_, rfl⟩, rfl⟩

/-- A buffer, string or key at 0x1000 in a window of one kind; x0 is 0, x2 is the size 4, x3 the address of plain memory. -/
def window (kind : RegionKind) : State :=
  mapped [⟨0x1000, 4, kind⟩, ⟨0x4000, 16, .ram true true⟩] (regs 0 0x1000 4 0x4000 0)

theorem stops_device : StopsWith (window .device) 0x1000 4 (.refused .deviceAccess) :=
  ⟨by decide, .inl ⟨⟨3, by decide, by decide⟩, rfl⟩⟩

theorem stops_enginePort : StopsWith (window .enginePort) 0x1000 4 (.refused .enginePortAccess) :=
  ⟨by decide, .inr (.inl ⟨by unfold Touches; decide, ⟨0, by decide, by decide⟩, rfl⟩)⟩

theorem stops_silent : StopsWith (window .silent) 0x1000 4 (.fault .memoryNeverAnswers) :=
  ⟨by decide, .inr (.inr ⟨by unfold Touches; decide, by unfold Touches; decide, ⟨0, by decide, by decide⟩, rfl⟩)⟩

/-- Each clause in turn: HASHBUF's first access, HASHSTR's first word, HASHSEED's first read of the key, HASHSEED's
output after a readable key of 4 bytes, and its output for a length of 0. -/
theorem witness_WindowsThatAreNoMemoryStopTheDriver :
    (((window .device).x[(2 : Reg)]).toNat < 2 ^ 32 ∧ 0 < accessCount .w4 ((window .device).x[(2 : Reg)]).toNat ∧
      StopsWith (window .device) (chunkAddr .w4 ((window .device).x[(1 : Reg)]).toNat 0)
        (chunkSize .w4 ((window .device).x[(2 : Reg)]).toNat 0) (.refused .deviceAccess)) ∧
    (Readable (window .enginePort) ((window .enginePort).x[(1 : Reg)]).toNat (0 * Width.bytes .w4) ∧
      StopsWith (window .enginePort) (chunkAddr .w4 ((window .enginePort).x[(1 : Reg)]).toNat 0) (Width.bytes .w4)
        (.refused .enginePortAccess)) ∧
    (((window .silent).x[(2 : Reg)]).toInt = (4 : Nat) ∧ 4 < 2 ^ 32 ∧ 0 < accessCount .w4 4 ∧
      StopsWith (window .silent) (chunkAddr .w4 ((window .silent).x[(1 : Reg)]).toNat 0) (chunkSize .w4 4 0)
        (.fault .memoryNeverAnswers)) ∧
    (((window .silent).x[(2 : Reg)]).toInt = (4 : Nat) ∧ 4 < 2 ^ 32 ∧
      Readable (window .silent) ((window .silent).x[(3 : Reg)]).toNat 4 ∧
      StopsWith (window .silent) ((window .silent).x[(1 : Reg)]).toNat (Width.bytes .w4) (.fault .memoryNeverAnswers)) ∧
    (((window .silent).x[(0 : Reg)]).toInt ≤ 0 ∧
      StopsWith (window .silent) ((window .silent).x[(1 : Reg)]).toNat (Width.bytes .w4) (.fault .memoryNeverAnswers)) :=
  ⟨⟨by decide, by decide, stops_device⟩, ⟨⟨by decide, by decide⟩, stops_enginePort⟩,
    ⟨by decide, by decide, by decide, stops_silent⟩, ⟨by decide, by decide, ⟨by decide, by decide⟩, stops_silent⟩,
    by decide, stops_silent⟩

theorem latched_inv : latched.Inv := by
  constructor <;> decide

theorem witness_EveryStepKeepsTheInvariant :
    (pending (.regWrite 0x40 0) State.reset).Inv ∧ (∃ t, step (pending (.regWrite 0x40 0) State.reset) = .next t) ∧
    latched.Inv ∧ ∃ t, step latched = .next t :=
  ⟨⟨by decide, by decide⟩, ⟨_, rfl⟩, latched_inv, _, rfl⟩

theorem witness_NoStepChangesTheMap : ∃ t, step (pending (.regWrite 0x40 0x66C3) State.reset) = .next t := ⟨_, rfl⟩

theorem witness_OnlyStatusWriteAndResetClearTheLatch :
    latched.err ≠ 0 ∧ latch (step (pending (.regWrite 0x48 0) latched)) = some (0, 0, 0) ∧
    latch (step (pending .reset latched)) = some (0, 0, 0) ∧
    latch (step (pending (.cmdThenReset 0) latched)) = some (0, 0, 0) := by decide

theorem witness_LatchRecordsChangeOnlyThere :
    State.reset.fcmd ≠ 0x4402 ∧ latch (step (pending (.regWrite 0x40 0x4402) State.reset)) = some (2, 0, 0x4402) ∧
    latched.faddr ≠ 0 ∧ latch (step (pending (.regWrite 0x48 0) latched)) = some (0, 0, 0) := by decide

theorem witness_OnlyHashseedWritesMemory :
    (pending (.regWrite 0x40 0x00234452) (seedState abc 0 0x78)).mem.wf = true ∧
    (pending (.regWrite 0x40 0x00234452) (seedState abc 0 0x78)).mem.byteAt 0x5000 ≠ 0x78 ∧
    bytes 0x5000 1 (step (pending (.regWrite 0x40 0x00234452) (seedState abc 0 0x78))) = some [0x78] := by decide

end Sys2Proof.Tests
end

section
/-! Proofs about steps without a register-port transaction: the idle engine and another agent's store. -/

namespace Sys2Proof.Machine

/-- With no event pending a step changes nothing (log entry 8). -/
theorem step_of_idle {s : State} (h : s.events = []) : step s = .next s := by
  simp [step, stepWith, h]

/-- Another agent's store sets its byte in the state that has taken the event (log entry 21). -/
theorem step_of_store {s : State} {a : Word} {b : Byte} {rest : List Event} (h : s.events = .store a b :: rest) :
    step s = .next { s.accepting rest with mem := s.mem.set a.toNat b } :=
  step_of_event h

/-- Settles O15: a store is one `Memory.set`, whose byte map on canonical memory is `byteAt_set`. -/
theorem idleAndForeignStore : Obligations.IdleAndForeignStore := by
  refine ⟨fun s => step_of_idle, fun s rest a b he hm => ⟨_, step_of_store he, rfl, fun a' => ?_⟩⟩
  exact byteAt_set s.mem ((wf_iff s.mem).1 hm).1 a.toNat a' b

end Sys2Proof.Machine
end

section
/-! Proofs about the error latch over commands and steps (R26, R27, R28, R141 to R148). -/

namespace Sys2Proof

/-- The command that legal fields stand for has an encoding: the index check of R65 (d) is `wellFormed`'s. -/
theorem wellFormed_commandOf {o : Opcode} {f : Fields} (W : Width) (h : f.indexIsLegal o = true) :
    (commandOf o W f).wellFormed = true := by
  cases o with
  | magic =>
    have hidx : f.idx ≤ 10 := by simpa [Fields.indexIsLegal] using h
    cases W <;> exact decide_eq_true hidx
  | _ => cases W <;> rfl

/-- A decoded command has an encoding (R65). -/
theorem wellFormed_of_decode {v : Word} {i : Instr} (h : decode v = .legal i) : i.wellFormed = true := by
  obtain ⟨-, o, -, -, -, hidx, rfl⟩ := decode_legal h
  exact wellFormed_commandOf _ hidx

/-- The value written for a decoded command is the value it was decoded from (R28, R70). -/
theorem cmdValue_of_decode {v : Word} {i : Instr} (h : decode v = .legal i) : cmdValue i = v := by
  obtain ⟨hhigh, o, hzero, hop, hunused, -, rfl⟩ := decode_legal h
  rw [cmdValue, encode, fields_commandOf _ o hzero hop hunused, word_cutFields, eq_of_halves v hhigh]

namespace Machine

/-! ### The latch and its records -/

/-- The latch and both of its records are as before. -/
def SameLatch (s t : State) : Prop := t.err = s.err ∧ t.faddr = s.faddr ∧ t.fcmd = s.fcmd

/-- The latch went from clear to set, with records that fit the error (R141, R146). -/
def LatchTaken (s t : State) : Prop := s.err = 0 ∧ t.err ≠ 0 ∧ latchConsistent t = true

/-- Consistency looks at the latch and its records alone. -/
theorem latchConsistent_of_same {s t : State} (h : SameLatch s t) : latchConsistent t = latchConsistent s := by
  obtain ⟨herr, hfaddr, hfcmd⟩ := h
  simp only [latchConsistent, herr, hfaddr, hfcmd]

/-- A clear latch with both records 0 is consistent. -/
theorem latchConsistent_of_clear {s : State} (herr : s.err = 0) (hfaddr : s.faddr = 0) (hfcmd : s.fcmd = 0) :
    latchConsistent s = true := by
  simp [latchConsistent, herr, hfaddr, hfcmd]

/-- IllegalCommand is consistent with an illegal value in FCMD (R142). -/
theorem latchConsistent_of_illegal {s : State} {why : IllegalReason} (herr : s.err = 1) (hfaddr : s.faddr = 0)
    (hfcmd : decode s.fcmd = .illegal why) : latchConsistent s = true := by
  simp [latchConsistent, herr, hfaddr, hfcmd]

/-- RangeError is consistent with a command in FCMD that can raise it (R143). -/
theorem latchConsistent_of_range {s : State} {i : Instr} (herr : s.err = 2) (hfaddr : s.faddr = 0)
    (hfcmd : decode s.fcmd = .legal i) (hi : canRaiseRange i = true) : latchConsistent s = true := by
  simp [latchConsistent, herr, hfaddr, hfcmd, hi]

/-- BusError is consistent with a driver command in FCMD, at any address (R144). -/
theorem latchConsistent_of_bus {s : State} {i : Instr} (herr : s.err = 3)
    (hfcmd : decode s.fcmd = .legal i) (hi : isDriver i = true) : latchConsistent s = true := by
  simp [latchConsistent, herr, hfcmd, hi]

/-! ### What a command, a CMD write and a step do to the latch -/

/-- An accepted command leaves the latch alone or takes it, with its own value in FCMD (R140, R146). -/
theorem exec_latch {v : Word} {i : Instr} {s t : State} (hd : decode v = .legal i) (hs : s.err = 0)
    (h : exec i s = .next t) : SameLatch s t ∨ LatchTaken s t := by
  rcases (exec_next h).either with ⟨herr, hfaddr, hfcmd, -⟩ | ⟨e, herr, hfcmd, -, -, hill, hrange, hbus, hfaddr⟩
  · exact .inl ⟨herr, hfaddr, hfcmd⟩
  · have hdec : decode t.fcmd = .legal i := by rw [hfcmd, cmdValue_of_decode hd, hd]
    refine .inr ⟨hs, herr ▸ code_ne_zero e, ?_⟩
    cases e with
    | illegalCommand => exact absurd (wellFormed_of_decode hd) (by rw [hill rfl]; decide)
    | rangeError => exact latchConsistent_of_range herr (hfaddr (by decide)) hdec (hrange rfl)
    | busError => exact latchConsistent_of_bus herr hdec (hbus rfl)

/-- A CMD write leaves the latch alone or takes it (R25, R142, R147). -/
theorem commandWrite_latch {v : Word} {s t : State} (h : commandWrite exec v s = .next t) :
    SameLatch s t ∨ LatchTaken s t := by
  rcases commandWrite_next h with ⟨-, rfl⟩ | ⟨hs, i, hd, hi⟩ | ⟨hs, why, hd, rfl⟩
  · exact .inl ⟨rfl, rfl, rfl⟩
  · exact exec_latch hd hs hi
  · exact .inr ⟨hs, code_ne_zero .illegalCommand, latchConsistent_of_illegal rfl rfl hd⟩

/-- The events that clear the latch and its records: a write to STATUS, a reset, a reset during a command (R148, R170,
R171). -/
def ClearsLatch (e : Event) : Prop := (∃ v, e = .regWrite 0x48 v) ∨ e = .reset ∨ ∃ v, e = .cmdThenReset v

/-- Everything handling an event can do to the latch: nothing, an error entry, or the clearing. -/
theorem handleEvent_latch {e : Event} {s t : State} (h : handleEvent Config.hw exec e s = .next t) :
    SameLatch s t ∨ LatchTaken s t ∨ (ClearsLatch e ∧ t.err = 0 ∧ t.faddr = 0 ∧ t.fcmd = 0) := by
  have same : SameLatch s s := ⟨rfl, rfl, rfl⟩
  cases e with
  | regWrite offset v =>
    obtain ⟨p, hp, heffect⟩ := regWrite_next h
    cases heffect with
    | data r ht => subst ht; exact .inl same
    | cmd hw => exact (commandWrite_latch hw).imp_right .inl
    | status ht =>
      obtain rfl : offset = 0x48 := slotAt_eq hp
      subst ht
      exact .inr (.inr ⟨.inl ⟨v, rfl⟩, rfl, rfl, rfl⟩)
    | faddr ht => subst ht; exact .inl same
    | fcmd ht => subst ht; exact .inl same
    | reserved ht => subst ht; exact .inl same
  | regRead offset => obtain ⟨p, -, rfl⟩ := regRead_next h; exact .inl same
  | reset => cases h; exact .inr (.inr ⟨.inr (.inl rfl), rfl, rfl, rfl⟩)
  | cmdThenReset v =>
    refine .inr (.inr ⟨.inr (.inr ⟨v, rfl⟩), ?_⟩)
    rcases commandThenReset_next h with rfl | ⟨i, -, -, stores, rfl, -⟩ <;> exact ⟨rfl, rfl, rfl⟩
  | store a b => cases h; exact .inl same
  | cmdWithStores v stores =>
    obtain ⟨u, hu, rfl⟩ := commandWithStores_next h
    exact (commandWrite_latch hu).imp_right .inl

/-- Everything a step can do to the latch. -/
theorem step_latch {s t : State} (h : step s = .next t) :
    SameLatch s t ∨ LatchTaken s t ∨
      ∃ e rest, s.events = e :: rest ∧ ClearsLatch e ∧ t.err = 0 ∧ t.faddr = 0 ∧ t.fcmd = 0 := by
  rcases step_next h with ⟨-, rfl⟩ | ⟨e, rest, he, hh⟩
  · exact .inl ⟨rfl, rfl, rfl⟩
  · exact (handleEvent_latch hh).imp_right (.imp_right fun hc => ⟨e, rest, he, hc⟩)

/-- Settles O49: memory by `step_keeps_wf`, the latch by the three cases of `step_latch`. -/
theorem everyStepKeepsTheInvariant : Obligations.EveryStepKeepsTheInvariant := by
  rintro s t ⟨hmem, hlatch⟩ h
  refine ⟨step_keeps_wf hmem h, ?_⟩
  rcases step_latch h with hsame | ⟨-, -, hc⟩ | ⟨e, rest, -, -, herr, hfaddr, hfcmd⟩
  · rw [latchConsistent_of_same hsame, hlatch]
  · exact hc
  · exact latchConsistent_of_clear herr hfaddr hfcmd

/-- Settles O48: memory lists nothing and the latch is clear. -/
theorem resetMeetsTheInvariant : Obligations.ResetMeetsTheInvariant :=
  ⟨reset_mem_wf, latchConsistent_of_clear rfl rfl rfl⟩

/-- Settles O52: of the three cases of `step_latch` only the first keeps both records, and it changes neither. -/
theorem latchRecordsChangeOnlyThere : Obligations.LatchRecordsChangeOnlyThere := by
  intro s t h hne
  rcases step_latch h with ⟨-, hfaddr, hfcmd⟩ | ⟨hs, ht, -⟩ | ⟨e, rest, he, hclears, -⟩
  · rcases hne with hne | hne
    · exact absurd hfaddr hne
    · exact absurd hfcmd hne
  · exact .inl ⟨hs, ht⟩
  · refine .inr ⟨rest, ?_⟩
    rcases hclears with ⟨v, rfl⟩ | rfl | ⟨v, rfl⟩
    · exact .inl ⟨v, he⟩
    · exact .inr (.inl he)
    · exact .inr (.inr ⟨v, he⟩)

end Machine
end Sys2Proof
end

section
/-! Proofs about the frame of primitive commands and of register-port transactions (R43, R102, R116). -/

namespace Sys2Proof.Machine

/-- A primitive command always ends in a next state, and makes no memory access (R102). -/
theorem primitive_ends {i : Instr} (s : State) (hi : isDriver i = false) :
    ∃ t, exec i s = .next t ∧ t.bus = s.bus := by
  have magic : ∀ W rd idx, ∃ t, exec (magicAt W rd idx) s = .next t ∧ t.bus = s.bus := by
    intro W rd idx
    rw [exec_magicAt, magicCommand]
    split <;> exact ⟨_, rfl, rfl⟩
  have mask : ∀ W rd rs1 rs2, ∃ t, exec (maskAt W rd rs1 rs2) s = .next t ∧ t.bus = s.bus := by
    intro W rd rs1 rs2
    rw [exec_maskAt, maskCommand]
    split <;> exact ⟨_, rfl, rfl⟩
  cases i with
  | magicW4 rd idx => exact magic .w4 rd idx
  | magicW8 rd idx => exact magic .w8 rd idx
  | maskW4 rd rs1 rs2 => exact mask .w4 rd rs1 rs2
  | maskW8 rd rs1 rs2 => exact mask .w8 rd rs1 rs2
  | hashbufW4 | hashbufW8 | hashstrW4 | hashstrW8 | hashseedW4 | hashseedW8 => cases hi
  | _ => exact ⟨_, rfl, rfl⟩

/-- Of the primitive commands MASK alone can raise RangeError (R143). -/
theorem maskAt_of_canRaiseRange {i : Instr} (hi : isDriver i = false) (h : canRaiseRange i = true) :
    ∃ W rd rs1 rs2, i = maskAt W rd rs1 rs2 := by
  cases i with
  | maskW4 rd rs1 rs2 => exact ⟨.w4, rd, rs1, rs2, rfl⟩
  | maskW8 rd rs1 rs2 => exact ⟨.w8, rd, rs1, rs2, rfl⟩
  | hashbufW4 | hashseedW4 => cases hi
  | _ => cases h

/-- HASHSEED is a driver command (R62). -/
theorem isDriver_hashseedAt (W : Width) (rs1 rs2 rs3 rs4 : Reg) : isDriver (hashseedAt W rs1 rs2 rs3 rs4) = true := by
  cases W <;> rfl

/-- A primitive command leaves memory alone (R102). -/
theorem primitive_mem {i : Instr} {s t : State} (hi : isDriver i = false) (h : exec i s = .next t) : t.mem = s.mem := by
  rcases (exec_next h).either with ⟨-, -, -, -, hmem | ⟨W, rs1, rs2, rs3, rs4, -, rfl, -⟩⟩ | ⟨e, -, -, -, hmem, -⟩
  · exact hmem
  · exact absurd hi (by rw [isDriver_hashseedAt]; decide)
  · exact hmem

/-- Settles O33: `exec_next` without the two ends that only a driver command has, a store and BusError. -/
theorem primitiveFrame : Obligations.PrimitiveFrame := by
  intro i s hi hs
  obtain ⟨t, ht, hbus⟩ := primitive_ends s hi
  obtain ⟨hmap, hevents, hreply, hdraws, heither⟩ := exec_next ht
  refine ⟨t, ht, primitive_mem hi ht, hmap, hevents, hreply, hbus, hdraws, ?_⟩
  rcases heither with ⟨herr, hfaddr, hfcmd, hx, -⟩ | ⟨e, herr, hfcmd, hx, -, hill, hrange, hdriver, hfaddr⟩
  · exact .inl ⟨herr.trans hs, hfaddr, hfcmd, hx⟩
  · cases e with
    | illegalCommand => exact .inr ⟨.inl ⟨herr, hill rfl⟩, hfaddr (by decide), hfcmd, hx⟩
    | rangeError =>
      exact .inr ⟨.inr ⟨herr, maskAt_of_canRaiseRange hi (hrange rfl)⟩, hfaddr (by decide), hfcmd, hx⟩
    | busError => exact absurd hi (by rw [hdriver rfl]; decide)

/-- Only HASHSEED stores (R116). -/
theorem hashseedAt_of_storesTo {i : Instr} {s : State} {a : Nat} (h : storesTo i s a) :
    ∃ W rs1 rs2 rs3 rs4, i = hashseedAt W rs1 rs2 rs3 rs4 := by
  cases i with
  | hashseedW4 rs1 rs2 rs3 rs4 => exact ⟨.w4, rs1, rs2, rs3, rs4, rfl⟩
  | hashseedW8 rs1 rs2 rs3 rs4 => exact ⟨.w8, rs1, rs2, rs3, rs4, rfl⟩
  | _ => exact h.elim

/-- Where a command stores does not depend on the pending events, the port's answer or the access record. -/
theorem storesTo_accepting (i : Instr) (s : State) (rest : List Event) (a : Nat) :
    storesTo i (s.accepting rest) a = storesTo i s a := by
  cases i <;> rfl

/-- A CMD write changes only bytes that its decoded command stores to, with the latch clear (R116, R147). -/
theorem commandWrite_mem_frame {v : Word} {s t : State} {a : Nat} (hm : Rising s.mem)
    (h : commandWrite exec v s = .next t) (hne : t.mem.byteAt a ≠ s.mem.byteAt a) :
    s.err = 0 ∧ ∃ i, decode v = .legal i ∧ storesTo i s a := by
  rcases commandWrite_next h with ⟨-, rfl⟩ | ⟨hs, i, hd, hi⟩ | ⟨-, why, -, rfl⟩
  · exact absurd rfl hne
  · exact ⟨hs, i, hd, not_not.1 (mt (exec_mem_frame hm hi a) hne)⟩
  · exact absurd rfl hne

/-- A register write changes only bytes that the command it starts stores to; no other slot reaches memory (R24). -/
theorem regWrite_mem_frame {offset : Nat} {v : Word} {s t : State} {a : Nat} (hm : Rising s.mem)
    (h : regWrite exec offset v s = .next t) (hne : t.mem.byteAt a ≠ s.mem.byteAt a) :
    offset = 0x40 ∧ s.err = 0 ∧ ∃ i, decode v = .legal i ∧ storesTo i s a := by
  obtain ⟨p, hp, heffect⟩ := regWrite_next h
  cases heffect with
  | cmd hw => exact ⟨slotAt_eq hp, commandWrite_mem_frame hm hw hne⟩
  | data r ht => subst ht; exact absurd rfl hne
  | status ht => subst ht; exact absurd rfl hne
  | faddr ht => subst ht; exact absurd rfl hne
  | fcmd ht => subst ht; exact absurd rfl hne
  | reserved ht => subst ht; exact absurd rfl hne

/-- Settles O53: a read leaves memory alone, and a write that does not stores by a command, which is HASHSEED. -/
theorem onlyHashseedWritesMemory : Obligations.OnlyHashseedWritesMemory := by
  rintro s t rest offset v hm (he | he) h a hne <;> rw [step_of_event he] at h
  · obtain ⟨rfl, hs, i, hd, hstores⟩ :=
      regWrite_mem_frame (s := s.accepting rest) ((wf_iff s.mem).1 hm).1 h hne
    obtain ⟨W, rs1, rs2, rs3, rs4, rfl⟩ := hashseedAt_of_storesTo hstores
    rw [storesTo_accepting] at hstores
    exact ⟨W, rs1, rs2, rs3, rs4, he, hs, hd, hstores⟩
  · obtain ⟨p, -, rfl⟩ := regRead_next h
    exact absurd rfl hne

end Sys2Proof.Machine
end

section
/-! Proofs about one transaction of the register port, and about reset (R24 to R29, R32, R70, R170). -/

namespace Sys2Proof.Machine

/-! ### The register map (R24) -/

@[simp] theorem slotAt_cmd : slotAt 0x40 = some .cmd := rfl
@[simp] theorem slotAt_status : slotAt 0x48 = some .status := rfl
@[simp] theorem slotAt_faddr : slotAt 0x50 = some .faddr := rfl
@[simp] theorem slotAt_fcmd : slotAt 0x58 = some .fcmd := rfl

/-- The four reserved slots (R29). -/
theorem slotAt_reserved {offset : Nat} (h : offset ∈ [0x60, 0x68, 0x70, 0x78]) : slotAt offset = some .reserved := by
  revert offset; decide

/-- An offset that is no multiple of 8, or above the last slot, is no slot (R29). -/
theorem slotAt_outside {offset : Nat} (h : offset % 8 ≠ 0 ∨ 0x78 < offset) : slotAt offset = none := by
  rw [Option.eq_none_iff_forall_ne_some]
  intro p hp
  have hat := slotAt_eq hp
  cases p with
  | data r => have := r.isLt; simp only at hat; omega
  | reserved => simp only [List.mem_cons, List.not_mem_nil, or_false] at hat; omega
  | _ => simp only at hat; omega

/-! ### A step that is one transaction -/

section Transaction
variable {s : State} {rest : List Event} {offset : Nat} {v : Word} {p : Slot}

/-- A read of a slot answers what the slot holds (R24, R33). -/
theorem step_of_read (h : s.events = .regRead offset :: rest) (hp : slotAt offset = some p) :
    step s = .next { s.accepting rest with reply := some (readSlot s p) } := by
  rw [step_of_event h, handleEvent, regRead, hp]
  cases p <;> rfl

/-- A write to a data register sets it (R21, R24). -/
theorem step_of_data_write {r : Reg} (h : s.events = .regWrite offset v :: rest) (hp : slotAt offset = some (.data r)) :
    step s = .next ((s.accepting rest).setX r v) := by
  rw [step_of_event h, handleEvent, regWrite, hp]

/-- A write to FADDR, FCMD or a reserved slot is ignored (R27, R28, R29). -/
theorem step_of_ignored_write (h : s.events = .regWrite offset v :: rest) (hp : slotAt offset = some p)
    (hi : p = .faddr ∨ p = .fcmd ∨ p = .reserved) : step s = .next (s.accepting rest) := by
  rw [step_of_event h, handleEvent, regWrite, hp]
  rcases hi with rfl | rfl | rfl <;> rfl

/-- A write to CMD is taken by the command interface (R25). -/
theorem step_of_command_write (h : s.events = .regWrite 0x40 v :: rest) :
    step s = commandWrite exec v (s.accepting rest) := by
  rw [step_of_event h, handleEvent, regWrite, slotAt_cmd]

/-- A transaction at an offset that is no slot is refused (R29). -/
theorem step_of_outside (h : s.events = .regRead offset :: rest ∨ s.events = .regWrite offset v :: rest)
    (hp : slotAt offset = none) : step s = .refused .outsideRegisterPort := by
  rcases h with h | h
  · rw [step_of_event h, handleEvent, regRead, hp]
  · rw [step_of_event h, handleEvent, regWrite, hp]

end Transaction

/-- Settles O10: `step_of_read` at each slot. -/
theorem portReadsFollowTheMap : Obligations.PortReadsFollowTheMap := by
  intro s rest offset h
  refine ⟨?_, ?_, ?_, ?_, ?_⟩
  · rintro r rfl
    exact step_of_read h (slotAt_data r)
  · rintro rfl
    exact step_of_read h slotAt_cmd
  · rintro rfl
    rw [BitVec.ofNat_toNat]
    exact step_of_read h slotAt_status
  · rintro rfl
    exact step_of_read h slotAt_faddr
  · rintro rfl
    exact step_of_read h slotAt_fcmd

/-- Settles O11: a data register takes the value, and FADDR and FCMD ignore it. -/
theorem portWritesFollowTheMap : Obligations.PortWritesFollowTheMap := by
  intro s rest offset v h
  refine ⟨?_, ?_⟩
  · rintro r rfl
    exact step_of_data_write h (slotAt_data r)
  · rintro (rfl | rfl)
    · exact step_of_ignored_write h slotAt_faddr (.inl rfl)
    · exact step_of_ignored_write h slotAt_fcmd (.inr (.inl rfl))

/-- Settles O12: the reserved slots by `slotAt_reserved`, every other offset of the statement by `slotAt_outside`. -/
theorem reservedAndOutsideSlots : Obligations.ReservedAndOutsideSlots := by
  intro s rest offset v
  refine ⟨fun hr => ⟨fun h => ?_, fun h => ?_⟩, fun hout h => step_of_outside h (slotAt_outside hout)⟩
  · exact step_of_read h (slotAt_reserved hr)
  · exact step_of_ignored_write h (slotAt_reserved hr) (.inr (.inr rfl))

/-- A decoded table word is a legal value of CMD (R67). -/
theorem decode_of_decodeTableWord {nbits w : Nat} {i : Instr} (h : decodeTableWord nbits w = some i) :
    decode (BitVec.ofNat 64 (w % 2 ^ nbits)) = .legal i := by
  unfold decodeTableWord at h
  split at h
  · rename_i j hj
    rw [hj, Option.some.inj h]
  · cases h

/-- Settles O6: both steps are a CMD write of a legal value with the latch clear. -/
theorem stepRunsTheDecodedCommand : Obligations.StepRunsTheDecodedCommand := by
  refine ⟨fun s rest v i h hs hd => ?_, fun s nbits w i hw => ?_⟩
  · rw [step_of_command_write h]
    exact commandWrite_legal hs hd
  · rw [step_of_command_write (s := s.withFetchWord nbits w) rfl]
    exact commandWrite_legal rfl (decode_of_decodeTableWord hw)

/-! ### Reset (R32, R170) -/

/-- Reset clears every data register (R32). -/
theorem resetEngine_reg (s : State) (r : Reg) : s.resetEngine.x[r] = 0 := by
  simp

/-- Settles O13: the reset state is one that reset of the engine leaves, and STATUS reads its clear latch. -/
theorem resetValues : Obligations.ResetValues :=
  ⟨resetEngine_reg State.reset, rfl, rfl, rfl, step_of_read rfl slotAt_status⟩

/-- Settles O14: the step is `resetEngine`, which keeps all but the registers and the latch. -/
theorem resetClearsTheEngine : Obligations.ResetClearsTheEngine := fun s rest h =>
  ⟨(s.accepting rest).resetEngine, step_of_event h, resetEngine_reg _, rfl, rfl, rfl, rfl, rfl, rfl⟩

end Sys2Proof.Machine
end

section
/-! Proofs about the memory port: one read, one write, what a command sees among other agents' stores, and the map
(R41 to R46, R51). -/

namespace Sys2Proof.Machine

/-! ### One read and one write (R42, R43) -/

/-- Byte j of the value that n bytes assemble to is the byte at the j-th address (R41). -/
theorem byte_of_bytesAt (m : Memory) (a : Nat) {n j : Nat} (h : j < n) :
    (BitVec.ofNat (8 * n) (leNumber (m.bytesAt a n))).extractLsb' (8 * j) 8 = m.byteAt (a + j) := by
  apply BitVec.eq_of_toNat_eq
  rw [byte_toNat, BitVec.toNat_ofNat, Nat.mod_eq_of_lt (leNumber_bytesAt_lt m a n),
    leNumber_byte _ _ (by simpa using h)]
  simp [Memory.bytesAt]

/-- Settles O24: `memRead_granted` gives the access, `byte_of_bytesAt` the bytes of its value. -/
theorem memReadIsLittleEndian : Obligations.MemReadIsLittleEndian := fun s a n _ _ =>
  ⟨fun h => ⟨_, memRead_granted s a n h, fun _ hj => byte_of_bytesAt s.mem a hj⟩, memRead_fails s a n⟩

/-- Settles O25: `memWrite_granted` gives the access, the laws of `setBytes` its memory. -/
theorem memWriteSetsExactlyItsBytes : Obligations.MemWriteSetsExactlyItsBytes := by
  intro s a n v _ hm
  have hrising : Rising s.mem := ((wf_iff _).1 hm).1
  refine ⟨fun h => ⟨_, memWrite_granted s a n v h, ?_, ?_, ?_⟩, memWrite_fails s a n v⟩
  · exact wf_setBytes _ _ _ hm (by rw [leBytes_length]; exact h.1)
  · exact fun j hj => byteAt_stored _ hrising a n j v hj
  · exact fun a' ha => byteAt_not_stored _ hrising a n a' v ha

/-! ### A command among other agents' stores (R51) -/

/-- Where a command stores does not depend on memory or on the stores of other agents. -/
theorem storesTo_raced (i : Instr) (s : State) (stores : List (Word × Byte)) (a : Nat) :
    storesTo i (s.raced stores) a = storesTo i s a := by
  cases i <;> rfl

/-- A step whose CMD write answers t over the memory the command sees answers t with the agents' stores settled. -/
theorem step_of_raced_write {s t : State} {v : Word} {stores : List (Word × Byte)} {rest : List Event}
    (he : s.events = .cmdWithStores v stores :: rest)
    (h : commandWrite exec v ((s.accepting rest).raced stores) = .next t) :
    step s = .next { t with
      mem := settleStores (s.draws + stores.length) (writtenBy Config.hw v ((s.accepting rest).raced stores) t)
        stores t.mem } := by
  rw [step_of_event he, handleEvent, commandWithStores, h]
  rfl

/-- A byte a raced command does not store to stands as it was, or an agent stored to it (R51). -/
theorem exec_raced_byteAt {i : Instr} {s t : State} {stores : List (Word × Byte)} (hm : Rising s.mem)
    (h : exec i (s.raced stores) = .next t) {a : Nat} (ha : ¬ storesTo i s a) :
    t.mem.byteAt a = s.mem.byteAt a ∨ ∃ w b, (w, b) ∈ stores ∧ w.toNat = a := by
  rw [exec_mem_frame (racedView_rising stores _ _ hm) h a (by rwa [storesTo_raced])]
  exact (racedView_byteAt stores s.draws s.mem hm a).imp_right fun ⟨w, b, hin, hw, _⟩ => ⟨w, b, hin, hw⟩

/-- Settles O18: the memory the command sees is `racedView`, and `settleStores` gives each byte afterwards. -/
theorem racedCommandSeesOldOrNewBytes : Obligations.RacedCommandSeesOldOrNewBytes := by
  intro s rest v i stores he hs hd hm
  have hrising : Rising s.mem := ((wf_iff _).1 hm).1
  refine ⟨racedView s.draws stores s.mem, racedView_byteAt stores s.draws s.mem hrising, fun t ht => ?_⟩
  replace ht : exec i ((s.accepting rest).raced stores) = .next t := ht
  have hrising' : Rising t.mem := ((wf_iff _).1 (exec_keeps_wf (racedView_wf stores _ _ hm) ht)).1
  have hwrite : commandWrite exec v ((s.accepting rest).raced stores) = .next t :=
    (commandWrite_legal (s := (s.accepting rest).raced stores) hs hd).trans ht
  refine ⟨_, step_of_raced_write he hwrite, rfl, fun a ha => ?_, fun a ha => ?_⟩
  · have hnot : ¬ storesTo i (s.accepting rest) a := by rwa [storesTo_accepting]
    refine settleStores_byteAt _ stores _ _ _ hrising' hrising a (fun hw => hnot ?_)
      (exec_raced_byteAt (s := s.accepting rest) hrising ht hnot)
    rw [← storesTo_raced i _ stores]
    exact writtenBy_storesTo hd hw
  · exact settleStores_byteAt_other _ stores _ _ hrising' a ha

/-! ### The map (R46, P4) -/

/-- A CMD write leaves the map alone. -/
theorem commandWrite_map {v : Word} {s t : State} (h : commandWrite exec v s = .next t) : t.map = s.map := by
  rcases commandWrite_next h with ⟨-, rfl⟩ | ⟨-, i, -, hi⟩ | ⟨-, why, -, rfl⟩
  · rfl
  · exact (exec_next hi).map
  · rfl

/-- A register write leaves the map alone. -/
theorem regWrite_map {offset : Nat} {v : Word} {s t : State} (h : regWrite exec offset v s = .next t) :
    t.map = s.map := by
  obtain ⟨p, -, heffect⟩ := regWrite_next h
  cases heffect with
  | cmd hw => exact commandWrite_map hw
  | data r ht => rw [ht, setX_map]
  | status ht => rw [ht, clearLatch_map]
  | faddr ht => rw [ht]
  | fcmd ht => rw [ht]
  | reserved ht => rw [ht]

/-- No event changes the map. -/
theorem handleEvent_map {e : Event} {s t : State} (h : handleEvent Config.hw exec e s = .next t) :
    t.map = s.map := by
  cases e with
  | regWrite offset v => exact regWrite_map h
  | regRead offset => obtain ⟨p, -, rfl⟩ := regRead_next h; rfl
  | reset => cases h; rfl
  | cmdThenReset v => rcases commandThenReset_next h with rfl | ⟨i, -, -, stores, rfl, -⟩ <;> rfl
  | store a b => cases h; rfl
  | cmdWithStores v stores =>
    obtain ⟨u, hu, rfl⟩ := commandWithStores_next h
    exact (commandWrite_map hu).trans (raced_map s stores)

/-- Settles O50: a step is idle or handles one event, and neither changes the map. -/
theorem noStepChangesTheMap : Obligations.NoStepChangesTheMap := by
  intro s t h
  rcases step_next h with ⟨-, rfl⟩ | ⟨e, rest, -, he⟩
  · rfl
  · exact (handleEvent_map he).trans (accepting_map s rest)

end Sys2Proof.Machine
end

section
/-! Proofs about the driver commands at the memory port: what they write, what they depend on, and how a failing access
or a window that is no memory ends them (R40, R45 to R47, R110 to R117, R144, R145, R178). -/

namespace Sys2Proof.Machine

/-! ### Readable bytes and how a command ends -/

/-- Part of a readable stretch is readable. -/
theorem readable_within {s : State} {a n b k : Nat} (h : Readable s a n) (hab : a ≤ b) (hbk : b + k ≤ a + n) :
    Readable s b k := by
  obtain ⟨htop, hbyte⟩ := h
  refine ⟨by omega, fun j hj => ?_⟩
  rw [show b + j = a + (b - a + j) by omega]
  exact hbyte _ (by omega)

/-- A command whose computation fails at an access records that access's address (R144, R146). -/
theorem conclude_busError {α : Type} (cmd : Word) (s : State) (l : List Access) (a : Nat) (done : α → State → State) :
    conclude cmd s ⟨l, .error (busError a)⟩ done = .next { s with
      err := 3, fcmd := cmd, faddr := BitVec.ofNat 64 a, bus := s.bus ++ l } := rfl

/-- A command that writes a register ends the same way over any memory and map, if its computation does. -/
theorem conclude_onMemory (cmd : Word) (s : State) (m : Memory) (map : List Region) {W : Width} (rd : Reg)
    (r : Run (BitVec W.bits)) :
    conclude cmd (onMemory m map s) r (writeResult W rd) =
      mapNext (onMemory m map) (conclude cmd s r (writeResult W rd)) := by
  obtain ⟨l, e | v⟩ := r
  · cases e <;> rfl
  · rfl

/-! ### The digests within the range of their size or length (R111, R113, R143) -/

section Digests
variable (cfg : Config) {W : Width} (s : State)

/-- A size or length the width admits passes the check (R143). -/
theorem sizeTooLarge_of_legal {n : Nat} (h : W = .w4 → n < 2 ^ 32) : sizeTooLarge W n = false := by
  rw [Bool.eq_false_iff, Ne, sizeTooLarge_iff]
  rintro ⟨hW, hn⟩
  exact absurd (h hW) (Nat.not_lt.2 hn)

/-- Within range HASHBUF consumes its buffer (R111). -/
theorem bufferDigest_of_legal (ptr : Nat) {size : Nat} (h : W = .w4 → size < 2 ^ 32) :
    bufferDigest cfg W s ptr size = consume cfg W s (BitVec.ofNat W.bits size) ptr size := by
  rw [bufferDigest, sizeTooLarge_of_legal h]
  rfl

/-- HASHBUF's digest depends only on the buffer's bytes and their windows (R116). -/
theorem bufferDigest_congr (m : Memory) (map : List Region) (ptr size : Nat)
    (h : ∀ j < size, AgreeAt s m map (ptr + j)) :
    bufferDigest cfg W (onMemory m map s) ptr size = bufferDigest cfg W s ptr size := by
  rw [bufferDigest, bufferDigest, consume_congr cfg W s m map _ ptr size h]

/-- A length of 0 or less makes HASHSEED's output the seed, with no access (R113). -/
theorem seededOutput_of_nonpos (key : Nat) {len : Int} (seed : BitVec 32) (h : len ≤ 0) :
    seededOutput cfg W s key len seed = Run.done (seed.setWidth W.bits) := by
  rw [seededOutput, if_pos h]

/-- For a positive length within range HASHSEED consumes its key (R113). -/
theorem seededOutput_of_legal (key : Nat) {len : Nat} (seed : BitVec 32) (hpos : 0 < len)
    (h : W = .w4 → len < 2 ^ 32) :
    seededOutput cfg W s key len seed = consume cfg W s (seedAccumulator cfg W len seed) key len := by
  rw [seededOutput, if_neg (by omega), Int.toNat_natCast, sizeTooLarge_of_legal h]
  rfl

end Digests

/-- The seed as a W-word (R113). -/
theorem seedOf_setWidth (r : Reg) (s : State) (n : Nat) :
    (seedOf r s).setWidth n = BitVec.ofNat n ((s.x[r]).toNat % 2 ^ 32) := by
  apply BitVec.eq_of_toNat_eq
  rw [BitVec.toNat_setWidth, BitVec.toNat_ofNat, seedOf_toNat]

/-! ### The string scan up to a word that stops it (R112, R117) -/

/-- A word of non-zero bytes holds no terminator, whatever the detector answers (R87, R88). -/
theorem terminatorIn_eq_none {W : Width} {s : State} {a : Nat} (h : ∀ t < W.bytes, s.mem.byteAt (a + t) ≠ 0) :
    terminatorIn W (wordAt W s a W.bytes) = none := by
  have hscan : firstZero W (wordAt W s a W.bytes) = none := by
    rw [firstZero, List.find?_eq_none]
    intro i hi hzero
    have hi := List.mem_range.1 hi
    have hbyte := (byte_eq_zero_iff _ i).1 (beq_iff_eq.1 hzero)
    rw [wordAt_byte W s a i hi] at hbyte
    exact h i hi (BitVec.eq_of_toNat_eq hbyte)
  rw [terminatorIn, hscan, ite_self]

/-- The string loop stops with its k-th word's read, when the words before it are granted and hold no zero byte. -/
theorem stringLoop_stops (cfg : Config) {W : Width} {s : State} {a k fuel : Nat} (acc : BitVec W.bits)
    {l : List Access} {e : Stop} (hfuel : k < fuel) (h : ∀ j < k, Readable s (chunkAddr W a j) W.bytes)
    (hz : ∀ j < k, terminatorIn W (wordAt W s (chunkAddr W a j) W.bytes) = none)
    (hstop : memRead s (chunkAddr W a k) W.bytes = ⟨l, .error e⟩) :
    stringLoop cfg W s fuel a acc =
      ⟨(List.range k).map (fun j => ⟨.read, chunkAddr W a j, W.bytes⟩) ++ l, .error e⟩ := by
  obtain ⟨rest, rfl⟩ : ∃ rest, fuel = k + (rest + 1) := ⟨fuel - k - 1, by omega⟩
  rw [stringLoop_words cfg W s k _ a acc h hz, readChunks_fullWords cfg W s a k acc h, andThen_ok, stringLoop, hstop,
    andThen_error]

/-- The words of a buffer start at its own address. -/
@[simp] theorem chunkAddr_zero (W : Width) (ptr : Nat) : chunkAddr W ptr 0 = ptr := by simp [chunkAddr]

/-- The words after the first one are those from its end on. -/
theorem chunkAddr_after_first (W : Width) (ptr k : Nat) : chunkAddr W (ptr + W.bytes) k = chunkAddr W ptr (k + 1) := by
  simp only [chunkAddr]; ring

section Words
variable {W : Width} {s : State} {ptr j k : Nat}

/-- The k-th of j words ends inside them. -/
theorem word_end_le (W : Width) (hk : k < j) : k * W.bytes + W.bytes ≤ j * W.bytes := by
  rw [← Nat.succ_mul]; exact Nat.mul_le_mul_right _ hk

/-- Each of j readable words is readable. -/
theorem readable_word (h : Readable s ptr (j * W.bytes)) (hk : k < j) : Readable s (chunkAddr W ptr k) W.bytes := by
  have hend := word_end_le W hk
  exact readable_within h (Nat.le_add_right _ _) (by rw [chunkAddr]; omega)

/-- None of j words of non-zero bytes holds a terminator. -/
theorem no_terminator_in_word (hz : ∀ t < j * W.bytes, s.mem.byteAt (ptr + t) ≠ 0) (hk : k < j) :
    terminatorIn W (wordAt W s (chunkAddr W ptr k) W.bytes) = none := by
  have hend := word_end_le W hk
  refine terminatorIn_eq_none fun t ht => ?_
  rw [chunkAddr, Nat.add_assoc]
  exact hz _ (by omega)

/-- HASHSTR's scan stops with its j-th word's read, when the words before it are granted and hold no zero byte. -/
theorem stringDigest_stops (cfg : Config) {l : List Access} {e : Stop} (h : Readable s ptr (j * W.bytes))
    (hz : ∀ t < j * W.bytes, s.mem.byteAt (ptr + t) ≠ 0)
    (hstop : memRead s (chunkAddr W ptr j) W.bytes = ⟨l, .error e⟩) :
    stringDigest cfg W s ptr =
      ⟨(List.range j).map (fun k => ⟨.read, chunkAddr W ptr k, W.bytes⟩) ++ l, .error e⟩ := by
  cases j with
  | zero =>
    rw [chunkAddr_zero] at hstop
    rw [stringDigest, hstop, andThen_error]
    rfl
  | succ j =>
    have hfuel : j < addressSpace :=
      Nat.lt_of_lt_of_le (Nat.lt_succ_self j) ((Nat.le_mul_of_pos_right _ (width_pos W)).trans
        ((Nat.le_add_left _ _).trans h.1))
    have hread := readable_word h (Nat.succ_pos j)
    have hnone := no_terminator_in_word hz (Nat.succ_pos j)
    rw [chunkAddr_zero] at hread hnone
    rw [stringDigest_long cfg W s ptr hread hnone, stringLoop_stops (l := l) (e := e) cfg _ hfuel]
    · simp [List.range_succ_eq_map, chunkAddr_after_first, Function.comp_def]
    · intro k hk
      rw [chunkAddr_after_first]
      exact readable_word h (Nat.succ_lt_succ hk)
    · intro k hk
      rw [chunkAddr_after_first]
      exact no_terminator_in_word hz (Nat.succ_lt_succ hk)
    · rw [chunkAddr_after_first]
      exact hstop

end Words

/-! ### HASHBUF (R111) -/

/-- HASHBUF is `conclude` of its digest, over the register numbers the statements name. -/
theorem exec_hashbuf (W : Width) (rd rs1 rs2 : Reg) (s : State) :
    exec (hashbufAt W rd rs1 rs2) s = conclude (cmdValue (hashbufAt W rd rs1 rs2)) s
      (bufferDigest Config.hw W s (s.x[rs1]).toNat (s.x[rs2]).toNat) (writeResult W rd) :=
  exec_hashbufAt W rd rs1 rs2 s

/-- Settles O40: by `bufferDigest_congr`, and because ending a command looks at no byte and no window. -/
theorem hashbufReadsOnlyItsBuffer : Obligations.HashbufReadsOnlyItsBuffer := by
  intro W s rd rs1 rs2 m map h
  have hdigest := bufferDigest_congr Config.hw (W := W) s m map _ _ h
  rw [exec_hashbuf, exec_hashbuf, ← conclude_onMemory, ← hdigest]
  rfl

/-- Settles O43: by `consume_fails`. -/
theorem hashbufBusError : Obligations.HashbufBusError := by
  intro W s rd rs1 rs2 j ptr size _ hsize hj hgranted hfails
  rw [exec_hashbuf, bufferDigest_of_legal _ _ _ hsize, consume_fails _ _ _ _ _ _ j hj hgranted hfails,
    conclude_busError, List.append_assoc]

/-! ### HASHSTR (R112) -/

/-- HASHSTR is `conclude` of its digest, over the register number the statements name. -/
theorem exec_hashstr (W : Width) (rd rs1 : Reg) (s : State) :
    exec (hashstrAt W rd rs1) s = conclude (cmdValue (hashstrAt W rd rs1)) s
      (stringDigest Config.hw W s (s.x[rs1]).toNat) (writeResult W rd) :=
  exec_hashstrAt W rd rs1 s

/-- Settles O44: by `stringDigest_stops` at a read that fails. -/
theorem hashstrBusError : Obligations.HashstrBusError := by
  intro W s rd rs1 j ptr _ hread hz hfails
  rw [exec_hashstr, stringDigest_stops _ hread hz (memRead_fails s _ _ hfails), conclude_busError, List.append_assoc]

/-! ### HASHSEED (R113) -/

section Hashseed
variable (W : Width) (rs1 rs2 rs3 rs4 : Reg) {s : State}

/-- HASHSEED for a length of 0 or less is one write of the seed (R113). -/
theorem exec_hashseed_of_nonpos (h : (s.x[rs2]).toInt ≤ 0) :
    exec (hashseedAt W rs1 rs2 rs3 rs4) s = conclude (cmdValue (hashseedAt W rs1 rs2 rs3 rs4)) s
      (memWrite s (s.x[rs4]).toNat W.bytes ((seedOf rs3 s).setWidth W.bits)) fun m t => { t with mem := m } := by
  rw [exec_hashseedAt, hashseedCommand, signedLengthOf_eq, seededOutput_of_nonpos _ _ _ _ h, andThen_done]
  rfl

/-- HASHSEED for a positive length within range consumes the key, then writes the digest (R113). -/
theorem exec_hashseed_of_legal {len : Nat} (hlen : (s.x[rs2]).toInt = len) (hpos : 0 < len)
    (hlegal : W = .w4 → len < 2 ^ 32) :
    exec (hashseedAt W rs1 rs2 rs3 rs4) s = conclude (cmdValue (hashseedAt W rs1 rs2 rs3 rs4)) s
      ((consume Config.hw W s (seedAccumulator Config.hw W len (seedOf rs3 s)) (s.x[rs1]).toNat len).andThen
        (memWrite s (s.x[rs4]).toNat W.bytes)) fun m t => { t with mem := m } := by
  rw [exec_hashseedAt, hashseedCommand, signedLengthOf_eq, hlen, seededOutput_of_legal _ _ _ _ hpos hlegal]
  rfl

end Hashseed

/-- Settles O37: by `consume_granted` and `memWrite_granted`; the digest is taken over the memory before the write, so
an overlap of key and output does not matter. -/
theorem hashseedWritesTheSeededDigest : Obligations.HashseedWritesTheSeededDigest := by
  intro W s rs1 rs2 rs3 rs4 len key out acc digest hlen hpos hlegal hread hwrite hm
  have hacc : seedAccumulator Config.hw W len (seedOf rs3 s) = acc := by
    rw [seedAccumulator, seedOf_setWidth]
  have hrising : Rising s.mem := ((wf_iff _).1 hm).1
  refine ⟨{ s with mem := s.mem.setBytes out (leBytes W.bytes digest),
                   bus := s.bus ++ bufferAccesses W key len ++ [⟨.write, out, W.bytes⟩] }, ?_, rfl, ?_, ?_⟩
  · rw [exec_hashseed_of_legal W rs1 rs2 rs3 rs4 hlen hpos hlegal, consume_granted _ _ _ _ _ _ hpos hread, hacc,
      andThen_ok, memWrite_granted _ _ _ _ hwrite, conclude_ok, List.append_assoc]
  · exact fun j hj => byteAt_stored _ hrising out W.bytes j digest hj
  · exact fun a ha => byteAt_not_stored _ hrising out W.bytes a digest ha

/-- Settles O45: the one write fails; or `consume_fails` at the key; or the key is consumed and the write fails. -/
theorem hashseedBusError : Obligations.HashseedBusError := by
  intro W s rs1 rs2 rs3 rs4 len key out cmd _
  refine ⟨fun hlen hfails => ?_, fun hlen hpos hlegal => ⟨fun j hj hgranted hfails => ?_, fun hread hfails => ?_⟩⟩
  · rw [exec_hashseed_of_nonpos W rs1 rs2 rs3 rs4 hlen, memWrite_fails _ _ _ _ hfails, conclude_busError]
  · rw [exec_hashseed_of_legal W rs1 rs2 rs3 rs4 hlen hpos hlegal, consume_fails _ _ _ _ _ _ j hj hgranted hfails,
      andThen_error, conclude_busError, List.append_assoc]
  · rw [exec_hashseed_of_legal W rs1 rs2 rs3 rs4 hlen hpos hlegal, consume_granted _ _ _ _ _ _ hpos hread, andThen_ok,
      memWrite_fails _ _ _ _ hfails, conclude_busError, List.append_assoc]

/-! ### Windows that are no memory (R40, R45, R178) -/

/-- A buffer with an access to make is not empty. -/
theorem pos_of_lt_accessCount {W : Width} {n j : Nat} (h : j < accessCount W n) : 0 < n := by
  rcases Nat.eq_zero_or_pos n with rfl | hn
  · simp [accessCount_eq] at h
  · exact hn

section Windows
variable {W : Width} {s : State} {o : Host.Outcome State Fault Refusal}

/-- HASHBUF ends at its first access to such a window. -/
theorem hashbuf_window (rd : Reg) {rs1 rs2 : Reg} {j : Nat} (hsize : W = .w4 → (s.x[rs2]).toNat < 2 ^ 32)
    (hj : j < accessCount W (s.x[rs2]).toNat)
    (hgranted : ∀ k < j, Readable s (chunkAddr W (s.x[rs1]).toNat k) (chunkSize W (s.x[rs2]).toNat k))
    (hstop : StopsWith s (chunkAddr W (s.x[rs1]).toNat j) (chunkSize W (s.x[rs2]).toNat j) o) :
    exec (hashbufAt W rd rs1 rs2) s = o := by
  obtain ⟨l, e, hrun, ho⟩ := consume_window Config.hw W s (BitVec.ofNat W.bits (s.x[rs2]).toNat) _ _ j hj hgranted hstop
  rw [exec_hashbuf, bufferDigest_of_legal _ _ _ hsize, hrun]
  exact conclude_window _ _ _ _ _ ho

/-- HASHSTR ends at its first access to such a window. -/
theorem hashstr_window (rd : Reg) {rs1 : Reg} {j : Nat} (hread : Readable s (s.x[rs1]).toNat (j * W.bytes))
    (hz : ∀ t < j * W.bytes, s.mem.byteAt ((s.x[rs1]).toNat + t) ≠ 0)
    (hstop : StopsWith s (chunkAddr W (s.x[rs1]).toNat j) W.bytes o) : exec (hashstrAt W rd rs1) s = o := by
  obtain ⟨e, hrun, ho⟩ := memRead_window hstop
  rw [exec_hashstr, stringDigest_stops _ hread hz hrun]
  exact conclude_window _ _ _ _ _ ho

/-- HASHSEED ends at the first access of its key to such a window. -/
theorem hashseed_key_window {rs1 rs2 : Reg} (rs3 rs4 : Reg) {len j : Nat} (hlen : (s.x[rs2]).toInt = len)
    (hlegal : W = .w4 → len < 2 ^ 32) (hj : j < accessCount W len)
    (hgranted : ∀ k < j, Readable s (chunkAddr W (s.x[rs1]).toNat k) (chunkSize W len k))
    (hstop : StopsWith s (chunkAddr W (s.x[rs1]).toNat j) (chunkSize W len j) o) :
    exec (hashseedAt W rs1 rs2 rs3 rs4) s = o := by
  obtain ⟨l, e, hrun, ho⟩ := consume_window Config.hw W s _ _ _ j hj hgranted hstop
  rw [exec_hashseed_of_legal W rs1 rs2 rs3 rs4 hlen (pos_of_lt_accessCount hj) hlegal, hrun, andThen_error]
  exact conclude_window _ _ _ _ _ ho

/-- HASHSEED of the seed alone ends at its write to such a window. -/
theorem hashseed_seed_window (rs1 : Reg) {rs2 : Reg} (rs3 : Reg) {rs4 : Reg} (hlen : (s.x[rs2]).toInt ≤ 0)
    (hstop : StopsWith s (s.x[rs4]).toNat W.bytes o) : exec (hashseedAt W rs1 rs2 rs3 rs4) s = o := by
  obtain ⟨e, hrun, ho⟩ := memWrite_window ((seedOf rs3 s).setWidth W.bits) hstop
  rw [exec_hashseed_of_nonpos W rs1 rs2 rs3 rs4 hlen, hrun]
  exact conclude_window _ _ _ _ _ ho

/-- HASHSEED of a readable key ends at its write to such a window. -/
theorem hashseed_digest_window {rs1 rs2 : Reg} (rs3 : Reg) {rs4 : Reg} {len : Nat} (hlen : (s.x[rs2]).toInt = len)
    (hpos : 0 < len) (hlegal : W = .w4 → len < 2 ^ 32) (hread : Readable s (s.x[rs1]).toNat len)
    (hstop : StopsWith s (s.x[rs4]).toNat W.bytes o) : exec (hashseedAt W rs1 rs2 rs3 rs4) s = o := by
  rw [exec_hashseed_of_legal W rs1 rs2 rs3 rs4 hlen hpos hlegal, consume_granted _ _ _ _ _ _ hpos hread, andThen_ok]
  obtain ⟨e, hrun, ho⟩ := memWrite_window (bufferFold Config.hw W s (s.x[rs1]).toNat len
    (seedAccumulator Config.hw W len (seedOf rs3 s))) hstop
  rw [hrun]
  exact conclude_window _ _ _ _ _ ho

end Windows

/-- Settles O47: one lemma per kind of access; a length of 0 is the seed alone. -/
theorem windowsThatAreNoMemoryStopTheDriver : Obligations.WindowsThatAreNoMemoryStopTheDriver := by
  intro W s rd rs1 rs2 rs3 rs4 o ptr size out
  refine ⟨fun j hsize hj hgranted hstop => hashbuf_window rd hsize hj hgranted hstop,
    fun j hread hz hstop => hashstr_window rd hread hz hstop,
    fun len j hlen hlegal hj hgranted hstop => hashseed_key_window rs3 rs4 hlen hlegal hj hgranted hstop,
    fun len hlen hlegal hread hstop => ?_, fun hlen hstop => hashseed_seed_window rs1 rs3 hlen hstop⟩
  rcases Nat.eq_zero_or_pos len with rfl | hpos
  · exact hashseed_seed_window rs1 rs3 (by omega) hstop
  · exact hashseed_digest_window rs3 hlen hpos hlegal hread hstop

end Sys2Proof.Machine
end

section
/-! Proofs about the encoding: the decoder, the encoder and the opcode table (R60 to R70). -/

namespace Sys2Proof

/-! ### What the decoder answers -/

/-- A command word in a 64-bit value with a zero high half is decoded by its fields (R70, steps (1) and (2)). -/
theorem decode_setWidth (c : BitVec 32) : decode (c.setWidth 64) = decodeFields (cutFields c) := by
  have hhigh : (c.setWidth 64).extractLsb' 32 32 = 0 := by ext j hj; simp
  have hlow : (c.setWidth 64).extractLsb' 0 32 = c := by ext j hj; simp [hj]; omega
  rw [decode, if_neg (not_not.2 hhigh), hlow]

section DecodeFields
variable {f : Fields} {o : Opcode}

/-- Fields that pass steps (3) to (5) of R70 stand for their command, unless MAGIC's index is above 10. -/
theorem decodeFields_of_layout (hzero : f.zero = 0) (hop : opcodeOf f.op = some o)
    (hunused : f.unusedAreZero o.uses = true) : decodeFields f =
      if f.indexIsLegal o = false then .illegal .magicIndex else .legal (commandOf o (widthOf f.w) f) := by
  simp [decodeFields, hzero, hop, hunused]

/-- The index check fails for MAGIC with an index above 10 only (R65 (d)). -/
theorem indexIsLegal_eq_false_iff : f.indexIsLegal o = false ↔ o = .magic ∧ 10 < f.idx.toNat := by
  simp [Fields.indexIsLegal, BitVec.lt_def]

/-- The unused-field check fails for a field that is neither used nor 0 (R65 (e)). -/
theorem unusedAreZero_eq_false_iff {u : Uses} : f.unusedAreZero u = false ↔
    (f.rd.toNat ≠ 0 ∧ u.rd = false) ∨ (f.rs1.toNat ≠ 0 ∧ u.rs1 = false) ∨ (f.rs2.toNat ≠ 0 ∧ u.rs2 = false) ∨
    (f.rs3.toNat ≠ 0 ∧ u.rs3 = false) ∨ (f.rs4.toNat ≠ 0 ∧ u.rs4 = false) ∨
    (f.idx.toNat ≠ 0 ∧ u.idx = false) := by
  have hcheck {n : Nat} (b : BitVec n) (used : Bool) :
      (used || b == 0) = false ↔ b.toNat ≠ 0 ∧ used = false := by
    rw [Bool.or_eq_false_iff, beq_eq_false_iff_ne, ne_eq, BitVec.toNat_eq, and_comm]
    rfl
  simp only [Fields.unusedAreZero, Bool.and_eq_false_iff, hcheck, or_assoc]

/-- An index that its command's encoding allows is legal: the converse of `wellFormed_commandOf`. -/
theorem indexIsLegal_of_wellFormed {W : Width} (h : (commandOf o W f).wellFormed = true) :
    f.indexIsLegal o = true := by
  cases o with
  | magic => cases W <;> simpa [Fields.indexIsLegal] using of_decide_eq_true h
  | _ => rfl

end DecodeFields

/-- Settles O1: the fields cut from the encoding are the command's own (`encodedWord_every`), and they pass every check
of R70. -/
theorem decodeOfEncodedInstruction : Obligations.DecodeOfEncodedInstruction := by
  intro i hwf
  obtain ⟨hcut, hzero, o, hop, hunused, hcmd⟩ := Laws.encodedWord_every i
  have hidx : i.fields.indexIsLegal o = true := indexIsLegal_of_wellFormed (by rwa [hcmd])
  rw [cmdValue, decode_setWidth, hcut, decodeFields_of_layout hzero hop hunused, hcmd, hidx]
  rfl

/-- Settles O2, by the inversion of a legal verdict. -/
theorem encodeOfDecodedValue : Obligations.EncodeOfDecodedValue :=
  fun _ _ h => ⟨cmdValue_of_decode h, wellFormed_of_decode h⟩

/-! ### The illegal values (R65) -/

/-- Cases (b) to (e) of R65 on the fields of a command word. -/
theorem decodeFields_illegal_iff (f : Fields) : (∃ why, decodeFields f = .illegal why) ↔
    f.zero ≠ 0 ∨ opcodeOf f.op = none ∨
      ∃ o, opcodeOf f.op = some o ∧ (f.indexIsLegal o = false ∨ f.unusedAreZero o.uses = false) := by
  by_cases hzero : f.zero = 0
  · cases hop : opcodeOf f.op with
    | none => simp [decodeFields, hzero, hop]
    | some o =>
      cases hunused : f.unusedAreZero o.uses with
      | false => simp [decodeFields, hzero, hop, hunused]
      | true =>
        rw [decodeFields_of_layout hzero hop hunused]
        cases hidx : f.indexIsLegal o <;> simp [hzero, hidx, hunused]
  · rw [decodeFields, if_pos hzero]
    exact iff_of_true ⟨_, rfl⟩ (.inl hzero)

/-- Cases (a) to (e) of R65 on a 64-bit value. -/
theorem decode_illegal_iff (v : Word) : (∃ why, decode v = .illegal why) ↔
    v.extractLsb' 32 32 ≠ 0 ∨ ∃ why, decodeFields (cutFields (v.extractLsb' 0 32)) = .illegal why := by
  by_cases hhigh : v.extractLsb' 32 32 = 0
  · rw [decode, if_neg (not_not.2 hhigh)]
    simp only [hhigh, ne_eq, not_true_eq_false, false_or]
  · rw [decode, if_pos hhigh]
    exact iff_of_true ⟨_, rfl⟩ (.inl hhigh)

/-- The values of `op` that R62 does not list. -/
theorem opcodeOf_eq_none_iff (op : BitVec 6) : opcodeOf op = none ↔
    op.toNat ∉ [0x01, 0x02, 0x03, 0x04, 0x05, 0x06, 0x07, 0x08, 0x09, 0x0A, 0x0B, 0x10, 0x11, 0x12] := by
  revert op; decide

/-- The high half of a value as a number. -/
theorem high_eq_zero_iff (v : Word) : v.extractLsb' 32 32 = 0 ↔ v.toNat / 2 ^ 32 = 0 := by
  have hlt : v.toNat / 2 ^ 32 < 2 ^ 32 := by omega
  rw [← BitVec.toNat_inj, BitVec.extractLsb'_toNat, Nat.shiftRight_eq_div_pow, Nat.mod_eq_of_lt hlt]
  rfl

/-- A field of the low half as a number: the high half does not reach into it. -/
theorem toNat_lowField (v : Word) {lo len : Nat} (h : lo + len ≤ 32) :
    ((v.extractLsb' 0 32).extractLsb' lo len).toNat = v.toNat / 2 ^ lo % 2 ^ len := by
  have hlow : (v.extractLsb' 0 32).extractLsb' lo len = v.extractLsb' lo len := by
    ext j hj
    simp
    omega
  rw [hlow, BitVec.extractLsb'_toNat, Nat.shiftRight_eq_div_pow]

/-- The table of R63 by opcode number: which commands leave each field unused. -/
theorem uses_eq_false_iff (o : Opcode) :
    (o.uses.rd = false ↔ o.code.toNat = 0x12) ∧
    (o.uses.rs1 = false ↔ o.code.toNat = 0x01) ∧
    (o.uses.rs2 = false ↔ o.code.toNat ∈ [0x01, 0x04, 0x0B, 0x11]) ∧
    (o.uses.rs3 = false ↔ o.code.toNat ∈ [0x01, 0x02, 0x03, 0x04, 0x05, 0x08, 0x0B, 0x10, 0x11]) ∧
    (o.uses.rs4 = false ↔
      o.code.toNat ∈ [0x01, 0x02, 0x03, 0x04, 0x05, 0x06, 0x08, 0x09, 0x0B, 0x10, 0x11]) ∧
    (o.uses.idx = false ↔ o.code.toNat ≠ 0x01) := by
  cases o <;> decide

/-- MAGIC is the opcode with number 1 (R62). -/
theorem eq_magic_iff (o : Opcode) : o = .magic ↔ o.code.toNat = 0x01 := by cases o <;> decide

/-- Settles O3: where the opcode is reserved both sides hold; where it is in R62, `uses_eq_false_iff` turns the checks
on the fields into conditions on its number. -/
theorem illegalValuesExactly : Obligations.IllegalValuesExactly := by
  intro v field op
  have hop : (cutFields (v.extractLsb' 0 32)).op.toNat = op := toNat_lowField v (by decide)
  have hzero : (cutFields (v.extractLsb' 0 32)).zero = 0 ↔ field 26 6 = 0 := by
    rw [BitVec.toNat_eq]
    exact Eq.congr_left (toNat_lowField v (by decide))
  rw [decode_illegal_iff, decodeFields_illegal_iff, ne_eq, high_eq_zero_iff, ne_eq, hzero]
  cases ho : opcodeOf (cutFields (v.extractLsb' 0 32)).op with
  | none =>
    have hreserved := (opcodeOf_eq_none_iff _).1 ho
    rw [hop] at hreserved
    simp only [true_or, or_true, hreserved, not_false_iff]
  | some o =>
    have hlisted := (opcodeOf_eq_none_iff (cutFields (v.extractLsb' 0 32)).op).not.1 (by simp [ho])
    rw [hop] at hlisted
    obtain ⟨hrd, hrs1, hrs2, hrs3, hrs4, hidx⟩ := uses_eq_false_iff o
    have hcode : o.code.toNat = op := by rw [code_of_opcodeOf _ _ ho, hop]
    simp only [Option.some.injEq, exists_eq_left', reduceCtorEq, false_or, indexIsLegal_eq_false_iff,
      unusedAreZero_eq_false_iff, hrd, hrs1, hrs2, hrs3, hrs4, hidx, eq_magic_iff, hcode, hlisted]
    simp (disch := decide) only [cutFields, toNat_lowField]
    exact Iff.rfl

/-! ### The opcode table (R63) -/

/-- The fourteen opcodes in the order of R62. -/
def Opcode.all : List Opcode :=
  [.magic, .mask, .mix, .scramble, .red2, .red3, .red4, .comb2, .comb3, .comb4, .mcz, .hashbuf, .hashstr, .hashseed]

theorem Opcode.mem_all (o : Opcode) : o ∈ Opcode.all := by cases o <;> decide

/-- The bits of a field that a row's mask covers: all of them, unless the command uses the field (R63). -/
def maskBits (n : Nat) (used : Bool) : BitVec n := if used then 0 else BitVec.allOnes n

/-- The fields of the mask of an opcode's rows. -/
def Opcode.maskFields (o : Opcode) : Fields where
  op   := maskBits 6 false
  w    := maskBits 1 false
  rd   := maskBits 3 o.uses.rd
  rs1  := maskBits 3 o.uses.rs1
  rs2  := maskBits 3 o.uses.rs2
  rs3  := maskBits 3 o.uses.rs3
  rs4  := maskBits 3 o.uses.rs4
  idx  := maskBits 4 o.uses.idx
  zero := maskBits 6 false

/-- The fields of a row's match: the opcode, the width, and 0 in every other field. -/
def matchFields (o : Opcode) (W : Width) : Fields := fieldsOf o W 0 0 0 0 0 0

/-- The row of an opcode at a width, from the field table. -/
def rowOf (o : Opcode) (W : Width) : Machine.TableRow :=
  ⟨(commandOf o W (matchFields o W)).mnemonic, o.maskFields.word, (matchFields o W).word⟩

/-- The rows of opcode_table.json are those of the field table. -/
theorem opcodeTable_eq : Machine.opcodeTable = Opcode.all.flatMap fun o => [rowOf o .w4, rowOf o .w8] := by decide

theorem mem_opcodeTable_iff (r : Machine.TableRow) : r ∈ Machine.opcodeTable ↔ ∃ o W, r = rowOf o W := by
  simp only [opcodeTable_eq, List.mem_flatMap, List.mem_cons, List.not_mem_nil, or_false]
  constructor
  · rintro ⟨o, -, h | h⟩
    · exact ⟨o, .w4, h⟩
    · exact ⟨o, .w8, h⟩
  · rintro ⟨o, W, h⟩
    cases W
    · exact ⟨o, o.mem_all, .inl h⟩
    · exact ⟨o, o.mem_all, .inr h⟩

/-- A command's mnemonic depends on its opcode and width only (R68). -/
theorem mnemonic_commandOf (o : Opcode) (W : Width) (f : Fields) :
    (commandOf o W f).mnemonic = (rowOf o W).mnemonic := by
  cases o <;> cases W <;> rfl

/-- The bitwise and of two words, field by field. -/
def Fields.and (f g : Fields) : Fields where
  op   := f.op &&& g.op
  w    := f.w &&& g.w
  rd   := f.rd &&& g.rd
  rs1  := f.rs1 &&& g.rs1
  rs2  := f.rs2 &&& g.rs2
  rs3  := f.rs3 &&& g.rs3
  rs4  := f.rs4 &&& g.rs4
  idx  := f.idx &&& g.idx
  zero := f.zero &&& g.zero

theorem cutFields_and (c d : BitVec 32) : cutFields (c &&& d) = (cutFields c).and (cutFields d) := by
  simp [cutFields, Fields.and, BitVec.extractLsb'_and]

/-- Two words are equal when their fields are (R60: the fields cover the word). -/
theorem cutFields_inj {c d : BitVec 32} : cutFields c = cutFields d ↔ c = d :=
  ⟨fun h => by rw [← word_cutFields c, h, word_cutFields], fun h => h ▸ rfl⟩

@[simp] theorem and_maskBits_false {n : Nat} (b : BitVec n) : b &&& maskBits n false = b := by simp [maskBits]

@[simp] theorem and_maskBits_eq_zero {n : Nat} (b : BitVec n) (used : Bool) :
    b &&& maskBits n used = 0 ↔ (used || b == 0) = true := by
  cases used <;> simp [maskBits]

theorem opcodeOf_eq_some_iff (op : BitVec 6) (o : Opcode) : opcodeOf op = some o ↔ op = o.code :=
  ⟨fun h => (code_of_opcodeOf op o h).symm, fun h => h ▸ opcodeOf_code o⟩

/-- A word selects a row when it passes steps (3) to (5) of R70 with the row's opcode and has the row's width. -/
theorem selectedBy_rowOf (o : Opcode) (W : Width) (c : BitVec 32) : (rowOf o W).selectedBy c = true ↔
    (cutFields c).zero = 0 ∧ opcodeOf (cutFields c).op = some o ∧ (cutFields c).w = widthBit W ∧
      (cutFields c).unusedAreZero o.uses = true := by
  rw [Machine.TableRow.selectedBy, beq_iff_eq, ← cutFields_inj, cutFields_and, rowOf, cutFields_word, cutFields_word,
    opcodeOf_eq_some_iff]
  simp only [Fields.and, Opcode.maskFields, matchFields, fieldsOf, Fields.mk.injEq, regBits_zero,
    and_maskBits_false, and_maskBits_eq_zero, Fields.unusedAreZero, Bool.and_eq_true]
  tauto

/-- Settles O4: a row selects by the checks of R70 but the one on MAGIC's index (`selectedBy_rowOf`). -/
theorem tableRowsSelectTheirCommands : Obligations.TableRowsSelectTheirCommands := by
  refine ⟨fun c r hr hsel => ?_, fun v i hv => ?_⟩
  · obtain ⟨o, W, rfl⟩ := (mem_opcodeTable_iff r).1 hr
    obtain ⟨hzero, hop, hw, hunused⟩ := (selectedBy_rowOf o W c).1 hsel
    rw [decode_setWidth, decodeFields_of_layout hzero hop hunused, hw, widthOf_widthBit]
    cases hidx : (cutFields c).indexIsLegal o with
    | true => exact .inl ⟨_, rfl, mnemonic_commandOf o W _⟩
    | false =>
      obtain ⟨rfl, hgt⟩ := indexIsLegal_eq_false_iff.1 hidx
      exact .inr ⟨by cases W <;> decide, hgt, rfl⟩
  · obtain ⟨-, o, hzero, hop, hunused, -, rfl⟩ := decode_legal hv
    have hlow : v.setWidth 32 = v.extractLsb' 0 32 := by ext j hj; simp
    rw [hlow]
    exact ⟨rowOf o _, (mem_opcodeTable_iff _).2 ⟨o, _, rfl⟩, (mnemonic_commandOf o _ _).symm,
      (selectedBy_rowOf o _ _).2 ⟨hzero, hop, (widthBit_widthOf _).symm, hunused⟩⟩

/-- Settles O5: the decoder evaluated on each word. -/
theorem writtenOutWordsDecode : Obligations.WrittenOutWordsDecode := by
  unfold Obligations.WrittenOutWordsDecode
  decide

end Sys2Proof
end

section
/-! Proofs about the datapath functions (R82, R83, R87 to R89) and the primitive commands that write their results
(R90 to R100). -/

namespace Sys2Proof.Machine

/-! ### Masking and the folded product (R82, R83) -/

/-- Settles O19: masking to all W bytes is the first branch of `maskTo`; the number is `maskTo_toNat`. -/
theorem maskingKeepsTheLowBytes : Obligations.MaskingKeepsTheLowBytes :=
  fun W v k _ hk => ⟨fun hfull => if_pos hfull, maskTo_toNat W v k hk⟩

section Mix
variable {n : Nat} (v c : BitVec n)

/-- The exact product does not depend on the order of its factors (R83). -/
theorem mix_comm : mix v c = mix c v := by
  apply BitVec.eq_of_toNat_eq
  simp only [mix_toNat, foldedProduct, Nat.mul_comm]

/-- A product with 1 has a zero high half (R92). -/
theorem mix_one (hn : 0 < n) : mix v 1 = v := by
  have hone : (1 : BitVec n).toNat = 1 := Nat.mod_eq_of_lt (Nat.one_lt_two_pow hn.ne')
  apply BitVec.eq_of_toNat_eq
  rw [mix_toNat, foldedProduct, hone, Nat.mul_one, Nat.div_eq_of_lt v.isLt, Nat.mod_eq_of_lt v.isLt, Nat.zero_xor]

end Mix

/-- Settles O20: the number of `mix` is `mix_toNat`; the corner cases follow from it. -/
theorem mixFoldsTheExactProduct : Obligations.MixFoldsTheExactProduct := by
  intro W v c
  have hbits : 0 < W.bits := by cases W <;> decide
  exact ⟨mix_toNat v c, mix_comm v c, by rw [mix_comm, mix_zero_left], mix_one v hbits⟩

/-! ### The byte scan (R88) -/

section Scan
variable (W : Width) (w : BitVec W.bits)

/-- The scan answers the least offset whose byte is zero. -/
theorem firstZero_eq_some_iff (i : Nat) : firstZero W w = some i ↔
    i < W.bytes ∧ w.toNat / 2 ^ (8 * i) % 256 = 0 ∧ ∀ j < i, w.toNat / 2 ^ (8 * j) % 256 ≠ 0 := by
  simp only [firstZero, List.find?_range_eq_some, List.mem_range, Bool.not_eq_true', beq_iff_eq, beq_eq_false_iff_ne,
    ne_eq, byte_eq_zero_iff]
  tauto

/-- The scan answers none when no byte is zero. -/
theorem firstZero_eq_none_iff : firstZero W w = none ↔ ∀ i < W.bytes, w.toNat / 2 ^ (8 * i) % 256 ≠ 0 := by
  simp only [firstZero, List.find?_range_eq_none, Bool.not_eq_true', beq_eq_false_iff_ne, ne_eq, byte_eq_zero_iff]

end Scan

/-- Settles O22: the two answers of `List.find?` over the offsets in rising order. -/
theorem firstZeroIsTheLeast : Obligations.FirstZeroIsTheLeast :=
  fun W w => ⟨firstZero_eq_some_iff W w, firstZero_eq_none_iff W w⟩

/-! ### The zero-byte detector (R87, R89)

Subtracting `LO_W` borrows out of a byte only where the byte is zero, so up to and including the least zero byte the
subtraction takes 1 from each byte by itself. -/

/-- One more byte in a power of two. -/
theorem two_pow_byte_succ (i : Nat) : 2 ^ (8 * (i + 1)) = 256 * 2 ^ (8 * i) := by
  rw [Nat.mul_succ, Nat.pow_add, Nat.mul_comm]

/-- `LO_W` is the number whose W bytes are all 1 (R6). -/
theorem loMask_toNat (W : Width) : (loMask W).toNat = leNumber (List.replicate W.bytes 1) := by
  cases W <;> rfl

/-- The number whose n bytes are all 1 has n bytes. -/
theorem ones_lt (n : Nat) : leNumber (List.replicate n 1) < 2 ^ (8 * n) := by
  simpa using leNumber_lt (List.replicate n 1)

/-- One more byte of 1, below the others. -/
theorem ones_succ (n : Nat) : leNumber (List.replicate (n + 1) 1) = 1 + 256 * leNumber (List.replicate n 1) := rfl

/-- Byte i + 1 of a number is byte i of the number without its lowest byte. -/
theorem div_byte_succ (x i : Nat) : x / 2 ^ (8 * (i + 1)) = x / 256 / 2 ^ (8 * i) := by
  rw [two_pow_byte_succ, Nat.div_div_eq_div_mul]

/-- At and below the least zero byte, taking 1 from every byte of an n-byte number takes 1 from byte i by itself; the
subtraction wraps modulo 2^(8n). By induction on i, peeling off the lowest byte, which does not borrow. -/
theorem byte_sub_ones {n x i : Nat} (hi : i < n) (h : ∀ j < i, x / 2 ^ (8 * j) % 256 ≠ 0) :
    (2 ^ (8 * n) - leNumber (List.replicate n 1) + x) / 2 ^ (8 * i) % 256 = (x / 2 ^ (8 * i) % 256 + 255) % 256 := by
  induction i generalizing n x with
  | zero =>
    obtain ⟨n, rfl⟩ := Nat.exists_eq_succ_of_ne_zero hi.ne'
    have hlt := ones_lt n
    rw [ones_succ, two_pow_byte_succ, Nat.mul_zero, Nat.pow_zero, Nat.div_one, Nat.div_one]
    omega
  | succ i ih =>
    obtain ⟨n, rfl⟩ := Nat.exists_eq_succ_of_ne_zero (Nat.ne_zero_of_lt hi)
    have hlow : x % 256 ≠ 0 := by simpa using h 0 (Nat.succ_pos i)
    have hpeel : (2 ^ (8 * (n + 1)) - leNumber (List.replicate (n + 1) 1) + x) / 256 =
        2 ^ (8 * n) - leNumber (List.replicate n 1) + x / 256 := by
      have hlt := ones_lt n
      rw [ones_succ, two_pow_byte_succ]
      omega
    rw [div_byte_succ, div_byte_succ, hpeel]
    refine ih (Nat.lt_of_succ_lt_succ hi) fun j hj => ?_
    rw [← div_byte_succ]
    exact h (j + 1) (Nat.succ_lt_succ hj)

section Detector
variable {W : Width} {w : BitVec W.bits} {i : Nat}

/-- Byte i of the detector's difference is byte i less 1, when no byte below it is zero. -/
theorem byte_sub_loMask (hi : i < W.bytes) (h : ∀ j < i, w.toNat / 2 ^ (8 * j) % 256 ≠ 0) :
    (w - loMask W).extractLsb' (8 * i) 8 = w.extractLsb' (8 * i) 8 - 1 := by
  apply BitVec.eq_of_toNat_eq
  rw [byte_toNat, BitVec.toNat_sub, byte_mod _ _ _ (by show 8 * i + 8 ≤ 8 * W.bytes; omega), loMask_toNat,
    byte_sub_ones hi h, BitVec.toNat_sub, byte_toNat, Nat.add_comm]
  rfl

/-- The only bits `HI_W` sets are the top bits of the bytes (R6). -/
theorem hiMask_getLsbD (W : Width) {k : Nat} (hk : k < W.bits) : (hiMask W).getLsbD k = (k % 8 == 7) := by
  revert k
  cases W <;> decide

/-- The top bit of byte i is the byte's own top bit. -/
theorem byte_top {n : Nat} (v : BitVec n) (i : Nat) : (v.extractLsb' (8 * i) 8).getLsbD 7 = v.getLsbD (8 * i + 7) := by
  rw [BitVec.getLsbD_extractLsb']
  rfl

/-- Taking 1 from a byte turns a clear top bit into a set one exactly when the byte is zero. -/
theorem top_of_sub_one (b : BitVec 8) : ((b - 1).getLsbD 7 && !b.getLsbD 7) = (b == 0) := by
  revert b
  decide

/-- With no zero byte below byte i, the detector's bit for byte i tells whether the byte is zero. -/
theorem detectorWord_top (hi : i < W.bytes) (h : ∀ j < i, w.toNat / 2 ^ (8 * j) % 256 ≠ 0) :
    (detectorWord W w).getLsbD (8 * i + 7) = true ↔ w.toNat / 2 ^ (8 * i) % 256 = 0 := by
  have hk : 8 * i + 7 < W.bits := by show 8 * i + 7 < 8 * W.bytes; omega
  have hmask : (hiMask W).getLsbD (8 * i + 7) = true := by rw [hiMask_getLsbD W hk, beq_iff_eq]; omega
  rw [detectorWord, BitVec.getLsbD_and, BitVec.getLsbD_and, BitVec.getLsbD_not, hmask, decide_eq_true hk, Bool.and_true,
    Bool.true_and, ← byte_top, ← byte_top, byte_sub_loMask hi h, top_of_sub_one, beq_iff_eq, byte_eq_zero_iff]

/-- A bit of the detector's word that is set is the top bit of a byte. -/
theorem exists_byte_of_detectorWord {k : Nat} (h : (detectorWord W w).getLsbD k = true) :
    ∃ i < W.bytes, k = 8 * i + 7 := by
  have hk : k < 8 * W.bytes := BitVec.lt_of_getLsbD h
  rw [detectorWord, BitVec.getLsbD_and, Bool.and_eq_true, hiMask_getLsbD W hk, beq_iff_eq] at h
  exact ⟨k / 8, by omega, by omega⟩

end Detector

/-- The detector answers true exactly when some bit of its word is set. -/
theorem mcz_iff_exists_bit (W : Width) (w : BitVec W.bits) :
    mcz W w = true ↔ ∃ k, (detectorWord W w).getLsbD k = true := by
  rw [mcz, bne_iff_ne, ne_eq, ← not_iff_not, not_not, not_exists]
  refine ⟨fun h k => by simp [h], fun h => BitVec.eq_of_getLsbD_eq fun k _ => ?_⟩
  rw [Bool.eq_false_iff.2 (h k)]
  exact (BitVec.getLsbD_zero).symm

/-- Settles O21: the scan's least zero byte sets its bit of the detector's word (no false negative), and with no zero
byte every bit that could be set is clear (no false positive). -/
theorem detectorIsExact : Obligations.DetectorIsExact := by
  intro W w
  rw [mcz_iff_exists_bit]
  constructor
  · rintro ⟨k, hk⟩ hnone
    have hz := (firstZero_eq_none_iff W w).1 hnone
    obtain ⟨i, hi, rfl⟩ := exists_byte_of_detectorWord hk
    exact hz i hi ((detectorWord_top hi fun j hj => hz j (hj.trans hi)).1 hk)
  · intro hsome
    obtain ⟨i, hi⟩ := Option.ne_none_iff_exists'.1 hsome
    obtain ⟨hlt, hzero, hbelow⟩ := (firstZero_eq_some_iff W w i).1 hi
    exact ⟨8 * i + 7, (detectorWord_top hlt hbelow).2 hzero⟩

/-! ### What a primitive command writes (R90 to R100) -/

/-- A W-wide view is the register modulo 2^(8W) (R34). -/
@[simp] theorem wideView_toNat (W : Width) (r : Reg) (s : State) :
    (wideView W r s).toNat = (s.x[r]).toNat % 2 ^ W.bits :=
  BitVec.toNat_setWidth ..

/-- Completing with a W-wide result of a known number sets the destination to that number, and changes nothing else. -/
theorem next_writeResult {W : Width} {v : BitVec W.bits} {n : Nat} (rd : Reg) (s : State) (h : v.toNat = n) :
    (.next (writeResult W rd v s) : Host.Outcome State Fault Refusal) =
      .next { s with x := s.x.set rd (BitVec.ofNat 64 n) } := by
  rw [writeResult_eq_setX, setWidth64_eq, h]
  rfl

/-! ### MASK (R91) -/

/-- Settles O27: `countInRange_iff` decides the branch; the masked number is `maskTo_toNat` of the view. -/
theorem maskWritesOrRaises : Obligations.MaskWritesOrRaises := by
  intro W s rd rs1 rs2 k
  rw [exec_maskAt, maskCommand, countOf_eq]
  refine ⟨fun hk => ?_, fun hk _ => ?_⟩
  · have hdvd : 2 ^ (8 * k) ∣ 2 ^ W.bits := Nat.pow_dvd_pow 2 (Nat.mul_le_mul_left 8 hk.2)
    rw [if_pos ((countInRange_iff W k).2 hk)]
    exact next_writeResult rd s (by rw [maskTo_toNat W _ k hk.2, wideView_toNat, Nat.mod_mod_of_dvd _ hdvd])
  · rw [if_neg fun hin => by have := (countInRange_iff W k).1 hin; omega]
    rfl

/-! ### MCZ (R100) -/

/-- The detector answers whether some byte of the word is zero (R89, R88). -/
theorem mcz_iff_zero_byte (W : Width) (w : BitVec W.bits) :
    mcz W w = true ↔ ∃ j < W.bytes, w.toNat / 2 ^ (8 * j) % 256 = 0 := by
  rw [detectorIsExact W w, ne_eq, firstZero_eq_none_iff]
  push Not
  rfl

/-- The detector's answer for a W-wide view, over the bytes of the register (R34, R89). -/
theorem mcz_wideView_iff (W : Width) (r : Reg) (s : State) :
    mcz W (wideView W r s) = true ↔ ∃ j < W.bytes, (s.x[r]).toNat / 2 ^ (8 * j) % 256 = 0 := by
  rw [mcz_iff_zero_byte]
  exact exists_congr fun j => and_congr_right fun hj => by rw [byte_wideView W r s j hj]

/-- Settles O32: MCZ writes the detector's answer, which `mcz_wideView_iff` describes. -/
theorem mczWritesWhetherAByteIsZero : Obligations.MczWritesWhetherAByteIsZero := by
  intro W s rd rs1
  rw [exec_mczAt, mczCommand]
  refine ⟨fun h => ?_, fun h => ?_⟩
  · rw [if_pos ((mcz_wideView_iff W rs1 s).2 h)]
    rfl
  · rw [if_neg fun hm => by obtain ⟨j, hj, hz⟩ := (mcz_wideView_iff W rs1 s).1 hm; exact h j hj hz]
    rfl

/-! ### MAGIC (R90) -/

section Magic
variable (cfg : Config) (W : Width)

/-- An index 0 to 9 looks up its entry (R81). -/
theorem magic_entry (k : Fin 10) :
    magic cfg W (BitVec.ofNat 4 k).toNat = some (cfg.magicEntry W k) := by
  have hk : (BitVec.ofNat 4 k).toNat = k := Nat.mod_eq_of_lt (by omega)
  rw [hk, magic, dif_pos k.isLt]

/-- Index 10 looks up GOLDEN (R81). -/
theorem magic_golden : magic cfg W 10 = some (cfg.golden W) := rfl

/-- An index above 10 has no constant (R81). -/
theorem magic_eq_none {i : Nat} (h : 10 < i) : magic cfg W i = none := by
  rw [magic, dif_neg (by omega), if_neg (by omega)]

variable {W} {idx : BitVec 4} (rd : Reg) (s : State)

/-- MAGIC with a constant writes it, zero-extended. -/
theorem exec_magicAt_of_some {c : BitVec W.bits} {v : Word}
    (h : magic Config.hw W idx.toNat = some c) (hv : c.setWidth 64 = v) :
    exec (magicAt W rd idx) s = .next { s with x := s.x.set rd v } := by
  rw [exec_magicAt, magicCommand, h, ← hv]
  rfl

/-- MAGIC without one raises IllegalCommand (R90, R142). -/
theorem exec_magicAt_of_none (h : magic Config.hw W idx.toNat = none) :
    exec (magicAt W rd idx) s = .next { s with err := 1, fcmd := cmdValue (magicAt W rd idx), faddr := 0 } := by
  rw [exec_magicAt, magicCommand, h]
  rfl

end Magic

/-- Settles O26: the looked-up constant, or none for an index above 10; a constant of 64 bits is written as it is. -/
theorem magicWritesItsConstant : Obligations.MagicWritesItsConstant :=
  fun s rd =>
    ⟨fun k => exec_magicAt_of_some rd s (magic_entry Config.hw .w4 k) (setWidth64_eq .w4 _),
      fun k => exec_magicAt_of_some rd s (magic_entry Config.hw .w8 k) (BitVec.setWidth_eq _),
      exec_magicAt_of_some (W := .w4) rd s (magic_golden Config.hw .w4) (setWidth64_eq .w4 _),
      exec_magicAt_of_some (W := .w8) rd s (magic_golden Config.hw .w8) (BitVec.setWidth_eq _),
      fun W _ hidx _ => exec_magicAt_of_none rd s (magic_eq_none Config.hw W hidx)⟩

/-! ### MIX and SCRAMBLE (R92, R93) -/

/-- The fold of a W-wide view with a constant, as a number (R83, R34). -/
theorem mix_wideView_toNat (W : Width) (r : Reg) (s : State) (c : BitVec W.bits) :
    (mix (wideView W r s) c).toNat = foldedProduct W.bits ((s.x[r]).toNat % 2 ^ W.bits) c.toNat := by
  rw [mix_toNat, wideView_toNat]

/-- Settles O28: MIX writes `mix` of the two views. -/
theorem mixWritesTheFoldedProduct : Obligations.MixWritesTheFoldedProduct := by
  intro W s rd rs1 rs2
  rw [exec_mixAt, mixCommand]
  exact next_writeResult rd s (by rw [mix_wideView_toNat, wideView_toNat])

/-- Settles O29: SCRAMBLE writes `mix` of the view with slot 0. -/
theorem scrambleWritesTheMixWithMagic1 : Obligations.ScrambleWritesTheMixWithMagic1 := by
  intro W s rd rs1
  rw [exec_scrambleAt, scrambleCommand]
  exact next_writeResult rd s (mix_wideView_toNat W rs1 s _)

/-! ### RED2, RED3, RED4 and COMB2, COMB3, COMB4 (R94 to R99) -/

/-- Settles O30: the XOR of the views is the XOR of the registers modulo 2^(8W). -/
theorem reduceWritesTheXor : Obligations.ReduceWritesTheXor := by
  intro W s rd a b c d
  rw [exec_red2At, red2Command, exec_red3At, red3Command, exec_red4At, red4Command]
  refine ⟨next_writeResult rd s ?_, next_writeResult rd s ?_, next_writeResult rd s ?_⟩
  · simp only [reduce2, BitVec.toNat_xor, wideView_toNat, Nat.xor_mod_two_pow]
  · simp only [reduce3, BitVec.toNat_xor, wideView_toNat, Nat.xor_mod_two_pow]
  · simp only [reduce4, BitVec.toNat_xor, wideView_toNat, Nat.xor_mod_two_pow]

/-- Settles O31: a combine is the reduction of each view's fold with its slot's constant. -/
theorem combineWritesTheXorOfMixes : Obligations.CombineWritesTheXorOfMixes := by
  intro W s rd a b c d part
  rw [exec_comb2At, comb2Command, exec_comb3At, comb3Command, exec_comb4At, comb4Command]
  refine ⟨next_writeResult rd s ?_, next_writeResult rd s ?_, next_writeResult rd s ?_⟩
  · simp only [combine2, reduce2, BitVec.toNat_xor, mix_wideView_toNat, part]
  · simp only [combine3, reduce3, BitVec.toNat_xor, mix_wideView_toNat, part]
  · simp only [combine4, reduce4, BitVec.toNat_xor, mix_wideView_toNat, part]

end Sys2Proof.Machine
end

section
/-! Proofs about what the driver commands compute: the digests of a buffer, of a string and of a seed, their frame, and
the bytes of a string they do not reach (R110 to R116, R175). -/

namespace Sys2Proof.Machine

/-! ### The long path of `consume` (R110, R114) -/

/-- The long path is the accesses of the buffer, each folded in; for no bytes it makes none. -/
theorem longPath_eq_readChunks (cfg : Config) (W : Width) (s : State) (acc : BitVec W.bits) (ptr n : Nat) :
    ((foldWords cfg W s (n / W.bytes) ptr acc).andThen fun acc' =>
        foldTail cfg W s (ptr + n / W.bytes * W.bytes) (n % W.bytes) acc') =
      readChunks cfg W s (bufferChunks W ptr n) acc := by
  rw [bufferChunks_eq, readChunks_append, foldWords_eq_readChunks]
  simp only [foldTail_eq_readChunks]

/-- A buffer of no bytes has no access. -/
@[simp] theorem accessCount_zero (W : Width) : accessCount W 0 = 0 := by simp [accessCount_eq]

/-- Settles O23: both are `readChunks` of the buffer for n >= 1; for n = 0 the short path combines two zero words. -/
theorem consumePathsAgree : Obligations.ConsumePathsAgree := by
  intro cfg W s acc ptr n hacc
  rw [longPath_eq_readChunks]
  rcases Nat.eq_zero_or_pos n with rfl | hn
  · rw [consume_zero, hacc rfl, combine2_zero, bufferChunks, accessCount_zero]
    rfl
  · exact consume_eq_readChunks cfg W s acc ptr n hn

/-! ### HASHBUF (R111) -/

/-- No bytes fold to the accumulator. -/
theorem bufferFold_zero (cfg : Config) (W : Width) (s : State) (ptr : Nat) (acc : BitVec W.bits) :
    bufferFold cfg W s ptr 0 acc = acc := by
  rw [bufferFold, accessCount_zero]
  rfl

/-- The digest of a readable buffer: exactly its accesses, and the fold of its words from the size (R111). For size 0
the short path combines the accumulator 0 with a zero word, which is 0 again (R115). -/
theorem bufferDigest_granted (cfg : Config) {W : Width} {s : State} {ptr size : Nat} (hsize : W = .w4 → size < 2 ^ 32)
    (h : Readable s ptr size) : bufferDigest cfg W s ptr size =
      ⟨bufferAccesses W ptr size, .ok (bufferFold cfg W s ptr size (BitVec.ofNat W.bits size))⟩ := by
  rw [bufferDigest_of_legal cfg s ptr hsize]
  rcases Nat.eq_zero_or_pos size with rfl | hpos
  · have hzero : BitVec.ofNat W.bits 0 = 0 := rfl
    rw [consume_zero, hzero, combine2_zero, bufferFold_zero, bufferAccesses, accessCount_zero]
    rfl
  · exact consume_granted cfg W s _ ptr size hpos h

/-- Settles O34, by `bufferDigest_granted`. -/
theorem hashbufWritesTheFoldOfItsBuffer : Obligations.HashbufWritesTheFoldOfItsBuffer := by
  intro W s rd rs1 rs2 ptr size hsize hread
  rw [exec_hashbuf, bufferDigest_granted _ hsize hread]
  rfl

/-! ### A string, word by word (R112) -/

section StringWords
variable {W : Width} {s : State} {a L : Nat}

/-- What follows the first n bytes of a string is a string. -/
theorem stringAt_drop {n : Nat} (h : StringAt s a L) (hn : n ≤ L) : StringAt s (a + n) (L - n) := by
  obtain ⟨hbytes, hend⟩ := h
  refine ⟨fun j hj => ?_, ?_⟩
  · rw [Nat.add_assoc]
    exact hbytes (n + j) (by omega)
  · rwa [Nat.add_assoc, Nat.add_sub_cancel' hn]

/-- The first word of a string that fills it holds no terminator. -/
theorem terminatorIn_of_le (h : StringAt s a L) (hL : W.bytes ≤ L) : terminatorIn W (wordAt W s a W.bytes) = none :=
  terminatorIn_eq_none fun t ht => h.1 t (Nat.lt_of_lt_of_le ht hL)

/-- The first word of a shorter string holds its terminator, at the string's length: the detector fires (R89), and the
scan's least zero byte is the terminator (R88). -/
theorem terminatorIn_of_lt (h : StringAt s a L) (hL : L < W.bytes) :
    terminatorIn W (wordAt W s a W.bytes) = some L := by
  have hscan : firstZero W (wordAt W s a W.bytes) = some L := by
    rw [firstZero_eq_some_iff]
    refine ⟨hL, ?_, fun j hj hzero => h.1 j hj (BitVec.eq_of_toNat_eq ?_)⟩
    · rw [wordAt_byte W s a L hL, h.2]
      rfl
    · rwa [wordAt_byte W s a j (hj.trans hL)] at hzero
  have hmcz : mcz W (wordAt W s a W.bytes) = true := (detectorIsExact W _).2 (by rw [hscan]; exact Option.some_ne_none L)
  rw [terminatorIn, if_pos hmcz, hscan]

/-- The number of words before the terminator's, one word on. -/
theorem words_of_le (hL : W.bytes ≤ L) : L / W.bytes = (L - W.bytes) / W.bytes + 1 :=
  Nat.div_eq_sub_div (width_pos W) hL

/-- Readable words up to the terminator's: the first one is readable. -/
theorem readable_first_word {k : Nat} (h : Readable s a (W.bytes * (k + 1))) : Readable s a W.bytes :=
  readable_within h (Nat.le_refl _) (Nat.add_le_add_left (Nat.le_mul_of_pos_right _ (Nat.succ_pos k)) a)

/-- And so are those after it. -/
theorem readable_after_first (h : Readable s a (W.bytes * (L / W.bytes + 1))) (hL : W.bytes ≤ L) :
    Readable s (a + W.bytes) (W.bytes * ((L - W.bytes) / W.bytes + 1)) := by
  rw [words_of_le hL, Nat.mul_succ] at h
  exact readable_within h (Nat.le_add_right _ _) (by omega)

/-! ### The closed forms, one word peeled off -/

/-- A string shorter than a word takes one access. -/
theorem stringAccesses_of_lt (hL : L < W.bytes) : stringAccesses W a L = [⟨.read, a, W.bytes⟩] := by
  rw [stringAccesses, Nat.div_eq_of_lt hL]
  simp

/-- A longer one takes the access of its first word and then those of the rest. -/
theorem stringAccesses_of_le (hL : W.bytes ≤ L) :
    stringAccesses W a L = ⟨.read, a, W.bytes⟩ :: stringAccesses W (a + W.bytes) (L - W.bytes) := by
  rw [stringAccesses, stringAccesses, words_of_le hL, List.range_succ_eq_map]
  simp [chunkAddr_after_first, Function.comp_def]

/-- Each word of a string, the last one holding only the bytes before the terminator, folded into an accumulator: what
the loop of R112 computes from the second word on. -/
def scanFold (cfg : Config) (W : Width) (s : State) (a L : Nat) (acc : BitVec W.bits) : BitVec W.bits :=
  (List.range (L / W.bytes + 1)).foldl
    (fun acc j => combine2 cfg W acc (wordAt W s (chunkAddr W a j) (chunkSize W L j))) acc

/-- The sizes of the words after the first one. -/
theorem chunkSize_after_first (W : Width) (L j : Nat) : chunkSize W (L - W.bytes) j = chunkSize W L (j + 1) := by
  rw [chunkSize, chunkSize, Nat.succ_mul]
  congr 1
  omega

variable (cfg : Config) (acc : BitVec W.bits)

/-- The word with the terminator is folded in up to it. -/
theorem scanFold_of_lt (hL : L < W.bytes) : scanFold cfg W s a L acc = combine2 cfg W acc (wordAt W s a L) := by
  have hsize : chunkSize W L 0 = L := by rw [chunkSize]; omega
  simp [scanFold, Nat.div_eq_of_lt hL, hsize]

/-- A word before it is folded in whole. -/
theorem scanFold_of_le (hL : W.bytes ≤ L) : scanFold cfg W s a L acc =
    scanFold cfg W s (a + W.bytes) (L - W.bytes) (combine2 cfg W acc (wordAt W s a W.bytes)) := by
  have hsize : chunkSize W L 0 = W.bytes := by rw [chunkSize]; omega
  rw [scanFold, scanFold, words_of_le hL, List.range_succ_eq_map, List.foldl_cons, List.foldl_map, hsize, chunkAddr_zero]
  simp only [chunkAddr_after_first, chunkSize_after_first]

/-- The digest of a string of W bytes or more: its first word, then the loop's fold of the rest. -/
theorem stringFold_of_le (hL : W.bytes ≤ L) : stringFold cfg W s a L =
    scanFold cfg W s (a + W.bytes) (L - W.bytes) (wordAt W s a W.bytes) := by
  rw [stringFold, if_neg (Nat.not_lt.2 hL), scanFold, ← words_of_le hL]
  simp only [chunkAddr_after_first, chunkSize_after_first]

/-! ### HASHSTR of a readable string (R112) -/

/-- The loop over a readable string: its accesses, and the fold of its words. By induction on the words the loop may
still read, one peeled off in each round. -/
theorem stringLoop_granted {fuel : Nat} (hfuel : L / W.bytes < fuel) (h : StringAt s a L)
    (hread : Readable s a (W.bytes * (L / W.bytes + 1))) :
    stringLoop cfg W s fuel a acc = ⟨stringAccesses W a L, .ok (scanFold cfg W s a L acc)⟩ := by
  induction fuel generalizing a L acc with
  | zero => exact absurd hfuel (Nat.not_lt_zero _)
  | succ fuel ih =>
    have hfirst := readable_first_word hread
    rcases Nat.lt_or_ge L W.bytes with hL | hL
    · rw [stringLoop_end cfg W s fuel a L acc hfirst hL.le (terminatorIn_of_lt h hL), stringAccesses_of_lt hL,
        scanFold_of_lt cfg acc hL]
    · have hrest : (L - W.bytes) / W.bytes < fuel := by rw [words_of_le hL] at hfuel; omega
      rw [stringLoop_step cfg W s fuel a acc hfirst (terminatorIn_of_le h hL),
        readTail_granted W s a _ (Nat.le_refl _) hfirst, andThen_ok,
        ih _ hrest (stringAt_drop h hL) (readable_after_first hread hL), stringAccesses_of_le hL,
        scanFold_of_le cfg acc hL]
      rfl

/-- The digest of a readable string: its accesses, and the string's fold; the loop's bound is not reached, because the
words lie inside the address space. -/
theorem stringDigest_granted (h : StringAt s a L) (hread : Readable s a (W.bytes * (L / W.bytes + 1))) :
    stringDigest cfg W s a = ⟨stringAccesses W a L, .ok (stringFold cfg W s a L)⟩ := by
  have hfirst := readable_first_word hread
  rcases Nat.lt_or_ge L W.bytes with hL | hL
  · rw [stringDigest_first cfg W s a L hfirst hL.le (terminatorIn_of_lt h hL), stringAccesses_of_lt hL, stringFold,
      if_pos hL]
  · have hrest := readable_after_first hread hL
    have hfuel : (L - W.bytes) / W.bytes < addressSpace :=
      Nat.lt_of_lt_of_le (Nat.lt_succ_self _)
        ((Nat.le_mul_of_pos_left _ (width_pos W)).trans ((Nat.le_add_left _ _).trans hrest.1))
    rw [stringDigest_long cfg W s a hfirst (terminatorIn_of_le h hL),
      stringLoop_granted cfg _ hfuel (stringAt_drop h hL) hrest, stringAccesses_of_le hL, stringFold_of_le cfg hL]

end StringWords

/-- Settles O35, by `stringDigest_granted`. -/
theorem hashstrWritesTheDigestOfItsString : Obligations.HashstrWritesTheDigestOfItsString := by
  intro W s rd rs1 L ptr hstring hread
  rw [exec_hashstr, stringDigest_granted _ hstring hread]
  rfl

/-! ### Empty digests (R115) -/

/-- Settles O38: the empty buffer and the empty string of O34 and O35; 0 is the fold of nothing from the size 0, and the
scramble of the zero word. -/
theorem emptyDigestsAreZero : Obligations.EmptyDigestsAreZero := by
  intro W s rd rs1 rs2
  refine ⟨fun hsize => ?_, fun hzero hread => ?_⟩
  · have hread : Readable s (s.x[rs1]).toNat (s.x[rs2]).toNat :=
      ⟨by rw [hsize]; exact (s.x[rs1]).isLt.le, fun j hj => absurd hj (by omega)⟩
    rw [hashbufWritesTheFoldOfItsBuffer W s rd rs1 rs2 (fun _ => by omega) hread, hsize, bufferFold_zero]
    simp [bufferAccesses]
  · have hwords : W.bytes * (0 / W.bytes + 1) = W.bytes := by simp
    have hstring : StringAt s (s.x[rs1]).toNat 0 := ⟨fun j hj => absurd hj (Nat.not_lt_zero j), hzero⟩
    rw [hashstrWritesTheDigestOfItsString W s rd rs1 0 hstring (by rwa [hwords]), stringAccesses_of_lt (width_pos W),
      stringFold, if_pos (width_pos W), wordAt_zero, scramble, mix_zero_left]
    simp

/-! ### HASHSTR of a string that another memory holds too (R112, R175) -/

/-- One word of the scan: read, and either used up to its terminator by `done` or handed to `next`. -/
def scanWord {β : Type} (W : Width) (s : State) (a : Nat) (done next : BitVec W.bits → Run β) : Run β :=
  (memRead s a W.bytes).andThen fun w => (terminatorIn W w).elim (next w) fun i => done (maskedWord W w i)

/-- A round of the loop is one word of the scan. -/
theorem stringLoop_eq_scanWord (cfg : Config) (W : Width) (s : State) (fuel a : Nat) (acc : BitVec W.bits) :
    stringLoop cfg W s (fuel + 1) a acc = scanWord W s a (fun w => Run.done (combine2 cfg W acc w))
      fun w => stringLoop cfg W s fuel (a + W.bytes) (combine2 cfg W acc w) := by
  rw [stringLoop, scanWord]
  congr 1
  funext w
  cases terminatorIn W w <;> rfl

/-- The digest is the scan of the first word, and the loop from the second on. -/
theorem stringDigest_eq_scanWord (cfg : Config) (W : Width) (s : State) (ptr : Nat) :
    stringDigest cfg W s ptr = scanWord W s ptr (fun w => Run.done (scramble cfg W w))
      (stringLoop cfg W s addressSpace (ptr + W.bytes)) := by
  rw [stringDigest, scanWord]
  congr 1
  funext w
  cases terminatorIn W w <;> rfl

/-- Two memories hold the same string at a, and their maps agree on the words up to the terminator's. -/
structure SameString (W : Width) (s : State) (m : Memory) (map : List Region) (a L : Nat) : Prop where
  string  : StringAt s a L
  bytes   : ∀ j ≤ L, m.byteAt (a + j) = s.mem.byteAt (a + j)
  windows : ∀ j < W.bytes * (L / W.bytes + 1), regionAt map (a + j) = regionAt s.map (a + j)

section SameString
variable {W : Width} {s : State} {m : Memory} {map : List Region} {a L : Nat}

/-- The bytes at an address as a word, over the other memory. -/
theorem wordAt_congr {n : Nat} (h : ∀ j < n, m.byteAt (a + j) = s.mem.byteAt (a + j)) :
    wordAt W (onMemory m map s) a n = wordAt W s a n := by
  have hbytes : m.bytesAt a n = s.mem.bytesAt a n := List.map_congr_left fun j hj => h j (List.mem_range.1 hj)
  rw [wordAt, wordAt, ← hbytes]
  rfl

/-- Over the other memory the string is a string too. -/
theorem SameString.string_onMemory (h : SameString W s m map a L) : StringAt (onMemory m map s) a L := by
  obtain ⟨hbytes, hend⟩ := h.string
  exact ⟨fun j hj => (h.bytes j hj.le).trans_ne (hbytes j hj), (h.bytes L (Nat.le_refl L)).trans hend⟩

/-- Any bytes up to the terminator make the same word. -/
theorem SameString.word (h : SameString W s m map a L) {n : Nat} (hn : n ≤ L) :
    wordAt W (onMemory m map s) a n = wordAt W s a n :=
  wordAt_congr fun j hj => h.bytes j (hj.le.trans hn)

/-- The first word's windows are the same. -/
theorem SameString.first_windows (h : SameString W s m map a L) :
    ∀ j < W.bytes, regionAt map (a + j) = regionAt s.map (a + j) :=
  fun j hj => h.windows j (hj.trans_le (Nat.le_mul_of_pos_right _ (Nat.succ_pos _)))

/-- After a whole word the rest of the string is the same too. -/
theorem SameString.drop (h : SameString W s m map a L) (hL : W.bytes ≤ L) :
    SameString W s m map (a + W.bytes) (L - W.bytes) where
  string := stringAt_drop h.string hL
  bytes j hj := by
    rw [Nat.add_assoc]
    exact h.bytes (W.bytes + j) (by omega)
  windows j hj := by
    rw [Nat.add_assoc]
    refine h.windows (W.bytes + j) ?_
    rw [words_of_le hL, Nat.mul_succ]
    omega

/-- A read of a full word is one access whose value, where memory grants it, is `wordAt` (R42). -/
theorem memRead_eq_access (W : Width) (s : State) (a : Nat) :
    memRead s a W.bytes = access s.map .read a W.bytes (wordAt W s a W.bytes) := by
  rw [memRead, leWord_eq_ofNat _ _ (by rw [bytesAt_length])]
  rfl

/-- Two accesses that memory answers alike, with values that are used alike, run alike. -/
theorem access_andThen_congr {α β : Type} {map map' : List Region} {k : AccessKind} {a n : Nat} {v v' : α}
    {f g : α → Run β} (hanswer : memoryAnswer map' k a n = memoryAnswer map k a n) (huse : f v' = g v) :
    (access map' k a n v').andThen f = (access map k a n v).andThen g := by
  rw [access, access, hanswer]
  split
  · rfl
  · cases memoryAnswer map k a n with
    | none => rw [andThen_ok, andThen_ok, huse]
    | some e => rfl

/-- One word of the scan over either memory: it is answered alike; with the terminator in it, the bytes before are the
same; with none, the word is, and the scan goes on. -/
theorem SameString.scanWord_eq {β : Type} (h : SameString W s m map a L) {done next next' : BitVec W.bits → Run β}
    (hnext : W.bytes ≤ L → next' (wordAt W s a W.bytes) = next (wordAt W s a W.bytes)) :
    scanWord W (onMemory m map s) a done next' = scanWord W s a done next := by
  rw [scanWord, scanWord, memRead_eq_access, memRead_eq_access]
  refine access_andThen_congr (memoryAnswer_congr _ _ _ _ _ h.first_windows) ?_
  rcases Nat.lt_or_ge L W.bytes with hL | hL
  · simp only [terminatorIn_of_lt h.string hL, terminatorIn_of_lt h.string_onMemory hL, Option.elim_some,
      maskedWord_wordAt _ _ _ _ hL.le, h.word (Nat.le_refl L)]
  · simp only [h.word hL, terminatorIn_of_le h.string hL, Option.elim_none, hnext hL]

/-- The loop runs alike over both memories, word by word. -/
theorem SameString.stringLoop_eq (cfg : Config) (h : SameString W s m map a L) (fuel : Nat) (acc : BitVec W.bits) :
    stringLoop cfg W (onMemory m map s) fuel a acc = stringLoop cfg W s fuel a acc := by
  induction fuel generalizing a L acc with
  | zero => rfl
  | succ fuel ih =>
    rw [stringLoop_eq_scanWord, stringLoop_eq_scanWord]
    exact h.scanWord_eq fun hL => ih (h.drop hL) _

/-- And so does the whole digest. -/
theorem SameString.stringDigest_eq (cfg : Config) (h : SameString W s m map a L) :
    stringDigest cfg W (onMemory m map s) a = stringDigest cfg W s a := by
  rw [stringDigest_eq_scanWord, stringDigest_eq_scanWord]
  exact h.scanWord_eq fun hL => (h.drop hL).stringLoop_eq cfg _ _

end SameString

/-- Settles O41: by `SameString.stringDigest_eq`, and because ending a command looks at no byte and no window. -/
theorem hashstrIgnoresBytesAfterTheTerminator : Obligations.HashstrIgnoresBytesAfterTheTerminator := by
  intro W s rd rs1 L m map hstring hbytes hwindows
  have hdigest := SameString.stringDigest_eq Config.hw ⟨hstring, hbytes, hwindows⟩
  rw [exec_hashstr, exec_hashstr, ← conclude_onMemory, ← hdigest]
  rfl

/-! ### HASHSEED of a length of 0 or less (R113) -/

/-- Byte j of the zero-extended seed, as a number. -/
theorem seed_byte (W : Width) (r : Reg) (s : State) (j : Nat) :
    (((seedOf r s).setWidth W.bits).extractLsb' (8 * j) 8).toNat = (s.x[r]).toNat % 2 ^ 32 / 2 ^ (8 * j) % 256 := by
  have hbits : 2 ^ 32 ≤ 2 ^ W.bits := by cases W <;> decide
  have hlt : (s.x[r]).toNat % 2 ^ 32 < 2 ^ 32 := Nat.mod_lt _ (by decide)
  rw [byte_toNat, seedOf_setWidth, BitVec.toNat_ofNat, Nat.mod_eq_of_lt (hlt.trans_le hbits)]

/-- Settles O36: `memWrite_granted` gives the one write, the laws of `setBytes` its memory. -/
theorem hashseedWritesTheSeed : Obligations.HashseedWritesTheSeed := by
  intro W s rs1 rs2 rs3 rs4 out hlen hwrite hm
  have hrising : Rising s.mem := ((wf_iff _).1 hm).1
  rw [exec_hashseed_of_nonpos W rs1 rs2 rs3 rs4 hlen, memWrite_granted _ _ _ _ hwrite, conclude_ok]
  refine ⟨_, rfl, rfl, fun j hj => ?_, fun a ha => byteAt_not_stored _ hrising out W.bytes a _ ha⟩
  rw [← seed_byte W rs3 s j, ← byteAt_stored s.mem hrising out W.bytes j _ hj]

/-! ### The frame of the driver commands (R116) -/

/-- Settles O39: `exec_next` for the registers, the latch and the other agents' side, `exec_mem_frame` for memory. -/
theorem driverFrame : Obligations.DriverFrame := by
  intro i s t _ _ hm h
  obtain ⟨hmap, hevents, hreply, hdraws, heither⟩ := exec_next h
  have hmem := exec_mem_frame ((wf_iff _).1 hm).1 h
  rcases heither with ⟨-, hfaddr, hfcmd, hx, -⟩ | ⟨e, herr, -, hx, -⟩
  · exact ⟨hx, hmem, hmap, hevents, hreply, hdraws, fun _ => ⟨hfaddr, hfcmd⟩⟩
  · exact ⟨fun r _ => by rw [hx], hmem, hmap, hevents, hreply, hdraws, fun h0 => absurd (herr ▸ h0) (code_ne_zero e)⟩

end Sys2Proof.Machine
end

section
/-! Proofs about the error latch at the register port: how an illegal value sets it, what it discards while it is set,
and what clears it (R142, R146 to R148, R170). -/

namespace Sys2Proof.Machine

/-! ### One transaction at CMD or STATUS (R142, R147, R148) -/

section Transaction
variable {s : State} {rest : List Event} {v : Word}

/-- A CMD write of an illegal value with the latch clear enters the error state (R142, R146). -/
theorem step_of_illegal_write {why : IllegalReason} (h : s.events = .regWrite 0x40 v :: rest) (hs : s.err = 0)
    (hd : decode v = .illegal why) : step s = .next ((s.accepting rest).takeError .illegalCommand v 0) := by
  rw [step_of_command_write h]
  exact commandWrite_illegal hs hd

/-- A CMD write with the latch set is discarded undecoded (R147). -/
theorem step_of_discarded_write (h : s.events = .regWrite 0x40 v :: rest) (hs : s.err ≠ 0) :
    step s = .next (s.accepting rest) := by
  rw [step_of_command_write h]
  exact commandWrite_discarded hs

/-- A write to STATUS clears the latch and its records, whatever the value (R148). -/
theorem step_of_status_write (h : s.events = .regWrite 0x48 v :: rest) :
    step s = .next (s.accepting rest).clearLatch := by
  rw [step_of_event h, handleEvent, regWrite, slotAt_status]

end Transaction

/-- Settles O7: by `step_of_illegal_write`, whose error entry writes the latch and its records alone. -/
theorem illegalValueRaisesIllegalCommand : Obligations.IllegalValueRaisesIllegalCommand :=
  fun _ _ _ _ h hs hd => step_of_illegal_write h hs hd

/-- Settles O8: only the CMD write looks at the latch; each other transaction is the one of its slot. -/
theorem latchedEngineDiscardsCommands : Obligations.LatchedEngineDiscardsCommands := by
  intro s rest hs
  refine ⟨fun v h => ?_, fun r v h => ?_, fun r h => ?_, fun h => ?_, fun h => ?_, fun h => ?_, fun h => ?_,
    fun v h => ?_⟩
  · exact step_of_discarded_write h hs
  · exact step_of_data_write h (slotAt_data r)
  · exact step_of_read h (slotAt_data r)
  · exact step_of_read h slotAt_cmd
  · exact step_of_read h slotAt_status
  · exact step_of_read h slotAt_faddr
  · exact step_of_read h slotAt_fcmd
  · exact step_of_status_write h

/-- Settles O9: the write is `clearLatch`, and the next CMD write meets a clear latch (`stepRunsTheDecodedCommand` for a
legal value, `step_of_illegal_write` for an illegal one). -/
theorem statusWriteClearsTheLatch : Obligations.StatusWriteClearsTheLatch := by
  intro s rest v h t
  refine ⟨step_of_status_write h, fun rest' u hnext => ⟨fun i hd => ?_, fun why hd => ?_⟩⟩
  · exact stepRunsTheDecodedCommand.1 t rest' u i hnext rfl hd
  · exact step_of_illegal_write (s := t) hnext rfl hd

/-! ### What clears the latch (R147, R170) -/

/-- Settles O51: of the three cases of `step_latch` only the last one starts from a set latch and ends with a clear
one. -/
theorem onlyStatusWriteAndResetClearTheLatch : Obligations.OnlyStatusWriteAndResetClearTheLatch := by
  intro s t hs h ht
  rcases step_latch h with ⟨herr, -⟩ | ⟨hclear, -⟩ | ⟨e, rest, he, hclears, -⟩
  · exact absurd (herr ▸ ht) hs
  · exact absurd hclear hs
  · refine ⟨rest, ?_⟩
    simp only [he, List.cons.injEq, and_true]
    exact hclears

end Sys2Proof.Machine
end

section
/-! Proofs about the errors a command raises: exactly one, with its records, and RangeError for exactly the operands
out of range (R140, R141, R143, R146). -/

namespace Sys2Proof.Machine

/-! ### Completion or one error (R140) -/

/-- The code of an error is 1, 2 or 3 (R141). -/
theorem code_cases (e : ErrorKind) : e.code = 1 ∨ e.code = 2 ∨ e.code = 3 := by cases e <;> decide

/-- Settles O46: by the two ends of `exec_next`. -/
theorem commandCompletesOrRaisesOneError : Obligations.CommandCompletesOrRaisesOneError := by
  intro i s t hs h
  obtain ⟨hmap, hevents, hreply, hdraws, heither⟩ := exec_next h
  refine ⟨hmap, hevents, hreply, hdraws, ?_⟩
  rcases heither with ⟨herr, hfaddr, hfcmd, -⟩ | ⟨e, herr, hfcmd, hx, hmem, -, -, -, hfaddr⟩
  · exact .inl ⟨herr.trans hs, hfaddr, hfcmd⟩
  · rw [herr]
    exact .inr ⟨code_cases e, hfcmd, fun hne => hfaddr fun he => hne (he ▸ code_bus), hx, hmem⟩

/-! ### RangeError is raised for an operand out of range (R143) -/

section OutOfRange
variable (cfg : Config) {W : Width} (s : State)

/-- HASHBUF checks its size before any access (R111, R143 (b)). -/
theorem bufferDigest_of_tooLarge (ptr : Nat) {size : Nat} (h : sizeTooLarge W size = true) :
    bufferDigest cfg W s ptr size = Run.stop (.raise .rangeError 0) := by
  rw [bufferDigest, if_pos h]

/-- HASHSEED checks a positive length before any access (R113, R143 (c)). -/
theorem seededOutput_of_tooLarge (key : Nat) {len : Int} (seed : BitVec 32) (hpos : 0 < len)
    (h : sizeTooLarge W len.toNat = true) :
    seededOutput cfg W s key len seed = Run.stop (.raise .rangeError 0) := by
  rw [seededOutput, if_neg (Int.not_le.2 hpos), if_pos h]

/-- A command that stops before its first access with RangeError takes that error and changes nothing else (R143,
R146). -/
theorem conclude_rangeError {α : Type} (cmd : Word) (done : α → State → State) :
    conclude cmd s (Run.stop (.raise .rangeError 0)) done = .next { s with err := 2, fcmd := cmd, faddr := 0 } := by
  rw [Run.stop, conclude_raise, List.append_nil]
  rfl

end OutOfRange

/-- HASHBUF.W4 of a size of 2^32 or more (R143 (b)). -/
theorem exec_hashbufW4_of_tooLarge (rd rs1 : Reg) {rs2 : Reg} {s : State} (h : 2 ^ 32 ≤ (s.x[rs2]).toNat) :
    exec (.hashbufW4 rd rs1 rs2) s =
      .next { s with err := 2, fcmd := cmdValue (.hashbufW4 rd rs1 rs2), faddr := 0 } := by
  rw [exec_hashbuf .w4, bufferDigest_of_tooLarge _ _ _ ((sizeTooLarge_iff _ _).2 ⟨rfl, h⟩), conclude_rangeError]

/-- HASHSEED.W4 of a length of 2^32 or more (R143 (c)). -/
theorem exec_hashseedW4_of_tooLarge (rs1 : Reg) {rs2 : Reg} (rs3 rs4 : Reg) {s : State}
    (h : 2 ^ 32 ≤ (s.x[rs2]).toInt) : exec (.hashseedW4 rs1 rs2 rs3 rs4) s =
      .next { s with err := 2, fcmd := cmdValue (.hashseedW4 rs1 rs2 rs3 rs4), faddr := 0 } := by
  have hlarge : sizeTooLarge .w4 (signedLengthOf rs2 s).toNat = true :=
    (sizeTooLarge_iff _ _).2 ⟨rfl, by rw [signedLengthOf_eq]; omega⟩
  rw [exec_hashseedAt .w4, hashseedCommand, seededOutput_of_tooLarge _ _ _ _ (by rw [signedLengthOf_eq]; omega) hlarge,
    andThen_stop, conclude_rangeError]

/-- An operand out of range raises RangeError with no memory access and no other change (R143, R146). -/
theorem exec_of_outOfRange {i : Instr} {s : State} (hs : s.err = 0) (h : outOfRange i s) :
    exec i s = .next { s with err := 2, fcmd := cmdValue i, faddr := 0 } := by
  cases i with
  | maskW4 rd rs1 rs2 => exact (maskWritesOrRaises .w4 s rd rs1 rs2).2 h hs
  | maskW8 rd rs1 rs2 => exact (maskWritesOrRaises .w8 s rd rs1 rs2).2 h hs
  | hashbufW4 rd rs1 rs2 => exact exec_hashbufW4_of_tooLarge rd rs1 h
  | hashseedW4 rs1 rs2 rs3 rs4 => exact exec_hashseedW4_of_tooLarge rs1 rs3 rs4 h
  | _ => exact h.elim

/-! ### RangeError is raised for nothing else (R143) -/

/-- A command that ends in RangeError is one that can raise it (R143). -/
theorem canRaiseRange_of_err {i : Instr} {s t : State} (hs : s.err = 0) (h : exec i s = .next t) (ht : t.err = 2) :
    canRaiseRange i = true := by
  rcases (exec_next h).either with ⟨herr, -⟩ | ⟨e, herr, -, -, -, -, hrange, -⟩
  · rw [herr, hs] at ht
    exact absurd ht (by decide)
  · cases e with
    | rangeError => exact hrange rfl
    | illegalCommand | busError => exact absurd (herr.symm.trans ht) (by decide)

/-- A command whose computation raises BusError alone, and whose completion leaves the latch clear, does not end in
RangeError. -/
theorem conclude_err_ne_range {α : Type} {cmd : Word} {s t : State} {r : Run α} {done : α → State → State}
    (hs : s.err = 0) (h : conclude cmd s r done = .next t) (hr : OnlyBusErrors r)
    (hdone : ∀ a u, (done a u).err = u.err) : t.err ≠ 2 := by
  rcases conclude_next h with ⟨a, -, rfl⟩ | ⟨e, faddr, he, rfl⟩
  · rw [hdone]
    exact fun h2 => absurd (hs.symm.trans h2) (by decide)
  · rw [takeError_err, hr e faddr he]
    decide

/-- MASK of a count in [1, W] completes (R91). -/
theorem mask_err_ne_range {W : Width} {rd rs1 rs2 : Reg} {s t : State} (hs : s.err = 0)
    (hk : 1 ≤ (s.x[rs2]).toNat ∧ (s.x[rs2]).toNat ≤ W.bytes) (h : exec (maskAt W rd rs1 rs2) s = .next t) :
    t.err ≠ 2 := by
  rw [(maskWritesOrRaises W s rd rs1 rs2).1 hk] at h
  cases h
  rw [hs]
  decide

/-- HASHBUF of a size the width admits raises no RangeError (R111). -/
theorem hashbuf_err_ne_range {W : Width} {rd rs1 rs2 : Reg} {s t : State} (hs : s.err = 0)
    (hsize : W = .w4 → (s.x[rs2]).toNat < 2 ^ 32) (h : exec (hashbufAt W rd rs1 rs2) s = .next t) : t.err ≠ 2 := by
  rw [exec_hashbuf, bufferDigest_of_legal _ _ _ hsize] at h
  exact conclude_err_ne_range hs h (consume_onlyBusErrors _ _ _ _ _ _) fun _ _ => rfl

/-- HASHSEED of a length the width admits raises no RangeError (R113). -/
theorem hashseed_err_ne_range {W : Width} {rs1 rs2 rs3 rs4 : Reg} {s t : State} (hs : s.err = 0)
    (hlen : W = .w4 → (s.x[rs2]).toInt < 2 ^ 32) (h : exec (hashseedAt W rs1 rs2 rs3 rs4) s = .next t) :
    t.err ≠ 2 := by
  have hwrite := fun v : BitVec W.bits => onlyBusErrors_access s.map .write (s.x[rs4]).toNat W.bytes
    (s.mem.setBytes (s.x[rs4]).toNat (leBytes W.bytes v))
  rcases le_or_gt (s.x[rs2]).toInt 0 with hnonpos | hpos
  · rw [exec_hashseed_of_nonpos W rs1 rs2 rs3 rs4 hnonpos] at h
    exact conclude_err_ne_range hs h (hwrite _) fun _ _ => rfl
  · obtain ⟨len, heq⟩ := Int.eq_ofNat_of_zero_le hpos.le
    rw [exec_hashseed_of_legal W rs1 rs2 rs3 rs4 heq (by omega) fun hW => by have := hlen hW; omega] at h
    exact conclude_err_ne_range hs h (onlyBusErrors_andThen _ _ (consume_onlyBusErrors _ _ _ _ _ _) hwrite)
      fun _ _ => rfl

/-- A command that ends in RangeError had an operand out of range (R143). -/
theorem outOfRange_of_err {i : Instr} {s t : State} (hs : s.err = 0) (h : exec i s = .next t) (ht : t.err = 2) :
    outOfRange i s := by
  have hi := canRaiseRange_of_err hs h ht
  by_contra hin
  cases i with
  | maskW4 rd rs1 rs2 =>
    obtain ⟨hne, hle⟩ := not_or.1 hin
    exact mask_err_ne_range (W := .w4) hs ⟨Nat.pos_of_ne_zero hne, Nat.not_lt.1 hle⟩ h ht
  | maskW8 rd rs1 rs2 =>
    obtain ⟨hne, hle⟩ := not_or.1 hin
    exact mask_err_ne_range (W := .w8) hs ⟨Nat.pos_of_ne_zero hne, Nat.not_lt.1 hle⟩ h ht
  | hashbufW4 rd rs1 rs2 => exact hashbuf_err_ne_range (W := .w4) hs (fun _ => Nat.not_le.1 hin) h ht
  | hashseedW4 rs1 rs2 rs3 rs4 => exact hashseed_err_ne_range (W := .w4) hs (fun _ => Int.not_le.1 hin) h ht
  | _ => cases hi

/-- Settles O42: `exec_of_outOfRange` and `outOfRange_of_err`. -/
theorem rangeErrorExactly : Obligations.RangeErrorExactly := fun _ _ hs =>
  ⟨exec_of_outOfRange hs, fun _ h ht => outOfRange_of_err hs h ht⟩

end Sys2Proof.Machine
end

section
/-! Proofs about reset during a command: the engine's registers are reset, and memory holds no byte but the old ones and
the ones the command would have written (R171, R178). -/

namespace Sys2Proof.Machine

/-- A reset during a command that would have ended in a next state abandons it; one that would have ended in an error
has nothing to store (R171, R146). -/
theorem step_abandons_of_next {s t : State} {v : Word} {i : Instr} {rest : List Event}
    (he : s.events = .cmdThenReset v :: rest) (hs : s.err = 0) (hd : decode v = .legal i)
    (h : exec i (s.accepting rest) = .next t) :
    step s = .next (abandon (if t.err = 0 then (memoryUse Config.hw i (s.accepting rest)).stores else [])
      (memoryUse Config.hw i (s.accepting rest)).accesses (s.accepting rest)) := by
  rw [step_of_event he]
  simp [handleEvent, commandThenReset, hs, hd, h]

/-- A reset during a command stuck on an access that is never answered abandons it (R178). -/
theorem step_abandons_of_fault {s : State} {v : Word} {i : Instr} {rest : List Event}
    (he : s.events = .cmdThenReset v :: rest) (hs : s.err = 0) (hd : decode v = .legal i)
    (h : exec i (s.accepting rest) = .fault .memoryNeverAnswers) :
    step s = .next (abandon (memoryUse Config.hw i (s.accepting rest)).stores
      (memoryUse Config.hw i (s.accepting rest)).accesses (s.accepting rest)) := by
  rw [step_of_event he]
  simp [handleEvent, commandThenReset, hs, hd, h]

/-- Each byte after an abandoned command is the old one or one the command had to store (R171). -/
theorem abandon_byteAt (stores : List (Nat × Byte)) (accesses : List Access) {s : State} (hm : s.mem.wf = true)
    (a : Nat) : (abandon stores accesses s).mem.byteAt a = s.mem.byteAt a ∨
      ∃ b, (a, b) ∈ stores ∧ (abandon stores accesses s).mem.byteAt a = b :=
  abandonedStores_byteAt stores s.draws s.mem ((wf_iff _).1 hm).1 a

/-- Settles O16: `abandon_byteAt`, and what the command had to store is what it leaves when it completes. -/
theorem resetDuringCommand : Obligations.ResetDuringCommand := by
  intro s rest v i t he hs hd hm h
  replace h : exec i (s.accepting rest) = .next t := h
  refine ⟨_, step_abandons_of_next he hs hd h, resetEngine_reg _, rfl, rfl, rfl, rfl, rfl, fun a => ?_⟩
  refine (abandon_byteAt _ _ (s := s.accepting rest) hm a).imp_right fun ⟨b, hin, hb⟩ => ?_
  by_cases ht : t.err = 0
  · rw [if_pos ht] at hin
    exact hb.trans (memoryUse_stores_of_next h ht ((wf_iff _).1 hm).1 hin).2.symm
  · rw [if_neg ht] at hin
    cases hin

/-- Settles O17: `abandon_byteAt`, and every byte the command had to store is one `storesTo` names. -/
theorem resetRecoversFromAnUnansweredAccess : Obligations.ResetRecoversFromAnUnansweredAccess := by
  intro s rest v i he hs hd hm h
  refine ⟨_, step_abandons_of_fault he hs hd h, resetEngine_reg _, rfl, rfl, rfl, rfl, rfl, fun a ha => ?_⟩
  refine (abandon_byteAt _ _ (s := s.accepting rest) hm a).resolve_right fun ⟨b, hin, _⟩ => ha ?_
  rw [← storesTo_accepting i s rest]
  exact memoryUse_storesTo hin

end Sys2Proof.Machine
end
